-- ==== Sys2Proof/Word.lean ====
section
/-! DEFINITION. The word types of the NSE: the widths the spec gives its data (00_scope R8, R9). -/

namespace Sys2Proof

/-- A token nibble (TOKEN_W, R8). -/
abbrev Nibble := BitVec 4

/-- A byte: a pixel, a packed column, a dictionary entry, a byte of the packed stream (R8). -/
abbrev Byte := BitVec 8

/-- A host data word, DATA_W = 32 bits (R9). -/
abbrev Word := BitVec 32

/-- A host byte address, ADDR_W = 20 bits (R9, R50). -/
abbrev Addr := BitVec 20

end Sys2Proof
end

