-- ==== Sys2Proof/Config.lean ====
section
/-! DEFINITION. The parameters of 00_scope R8 and R9, the address map of 20_memory R51, and the one free value of
the machine: how long the core takes (70_reset R289, 93 U8). -/

namespace Sys2Proof

/-- DICT_MAX (R8): the dictionary has at most 12 entries. -/
abbrev Config.dictMax : Nat := 12

/-- The largest run length, short-run length or raw-run count, 8 bits (R8, COUNT_W). -/
abbrev Config.countMax : Nat := 255

/-- BAND_H (R8): rows per packed byte. -/
abbrev Config.bandHeight : Nat := 8

/-- Size of the register window (R51). -/
abbrev Config.regSize : Nat := 0x100

/-- Host address of `PIX[0]` (R53). -/
abbrev Config.pixBase : Nat := 0x10000

/-- PIX_BUF_SIZE (R9). -/
abbrev Config.pixSize : Nat := 65536

/-- Host address of `COL[0]` (R53). -/
abbrev Config.colBase : Nat := 0x20000

/-- COL_BUF_SIZE (R9). -/
abbrev Config.colSize : Nat := 8192

/-- Host address of `OUT[0]` (R53). -/
abbrev Config.outBase : Nat := 0x30000

/-- OUT_BUF_SIZE (R9). -/
abbrev Config.outSize : Nat := 12288

/-- FREE VALUE (93 U8, R66, R289; log 1): how many host accesses are served between the acceptance of the `k`-th
command and its core step. It is finite (weak fairness, R289) and nothing else is known of it. -/
opaque Config.commandDelay : Nat → Nat

/-- DIR_BYTE_ORDER (R9): the byte order of a 2-byte directory entry, an OPEN parameter of the host side (log 13). -/
inductive Config.ByteOrder
  | little
  | big
  deriving DecidableEq, Repr

/-- DIR_OFFSET_ORIGIN (R9, 90_conflicts C1): what a directory offset counts from (log 13). -/
inductive Config.OffsetOrigin
  | blob
  | record
  deriving DecidableEq, Repr

/-- The three DIR_ parameters of R9, with the spec's defaults. -/
structure Config.Directory where
  flagBit : Fin 16 := 15
  byteOrder : Config.ByteOrder := .little
  origin : Config.OffsetOrigin := .blob
  deriving DecidableEq, Repr

end Sys2Proof
end

