-- ==== Sys2Proof/Syntax.lean ====
section
/-! DEFINITION. The two instruction-like encodings of the NSE as one type (30_encoding R80): the command words of
R83 and the five token kinds of R87. -/

namespace Sys2Proof

/-- One constructor per mnemonic of spec/opcode_table.json. The twelve DictRef rows are the twelve values of the
operand of `dictRef` (log 4). A count, length or value is the field's bits (R88 to R93). -/
inductive Instr
  /-- NOP, command word 0x00000000 (R113). -/
  | nop
  /-- PACK, command word 0x00000001 (R132). -/
  | pack
  /-- ENCODE, command word 0x00000002 (R179). -/
  | encode
  /-- DictRef(i): one dictionary byte (R88, R169). -/
  | dictRef (i : Nibble)
  /-- RawRun(n, values): n raw bytes (R92, R168). -/
  | rawRun (n : Byte) (values : List Byte)
  /-- ShortRunRepeat(len, i): len copies of a dictionary byte (R91, R167). -/
  | shortRunRepeat (len : Byte) (i : Nibble)
  /-- RunRepeat(len, v): len copies of a byte (R90, R166). -/
  | runRepeat (len v : Byte)
  /-- RawByte(v): one raw byte (R89, R170). -/
  | rawByte (v : Byte)
  deriving DecidableEq, Repr

end Sys2Proof
end

