-- ==== Sys2Proof/WellFormed.lean ====
section
/-! DEFINITION. Which terms of Instr are instructions of the formats of 30_encoding R81 and R88 to R92. -/

namespace Sys2Proof

/-- Well-formed by the formats: a dictionary index is 0x0 to 0xB (R88, R91), and the count of a RawRun is the
number of its values (R92). Counts below what the encoder emits are well-formed (R96). -/
def Instr.wellFormed : Instr → Bool
  | .nop => true
  | .pack => true
  | .encode => true
  | .dictRef i => decide (i.toNat < Config.dictMax)
  | .rawRun n values => decide (n.toNat = values.length)
  | .shortRunRepeat _ i => decide (i.toNat < Config.dictMax)
  | .runRepeat _ _ => true
  | .rawByte _ => true

/-- Is the instruction a token, rather than a command (R80)? -/
def Instr.isToken : Instr → Bool
  | .nop => false
  | .pack => false
  | .encode => false
  | .dictRef _ => true
  | .rawRun _ _ => true
  | .shortRunRepeat _ _ => true
  | .runRepeat _ _ => true
  | .rawByte _ => true

end Sys2Proof
end

