-- ==== Sys2Proof/Decode.lean ====
section
/-! DEFINITION. The decoder and the encoder of the two encodings (30_encoding.md), the nibble helpers they share,
and the reading of a table word. -/

namespace Sys2Proof

/-- `hi(x) = x[7:4]` (00_scope R11; PRESUMED by the spec's own mark G1, log 14). -/
def hiNibble (x : Byte) : Nibble := x.extractLsb' 4 4

/-- `lo(x) = x[3:0]` (00_scope R11; log 14). -/
def loNibble (x : Byte) : Nibble := x.extractLsb' 0 4

/-- `{hi, lo}`: two nibbles as a byte, the first high (R93, R98). -/
def joinNibbles (h l : Nibble) : Byte := h ++ l

/-- The two nibbles of a field, the high one first (R93). -/
def fieldNibbles (x : Byte) : List Nibble := [hiNibble x, loNibble x]

/-- The nibbles of the values of a RawRun, each high nibble first (R92). -/
def valueNibbles : List Byte → List Nibble
  | [] => []
  | v :: vs => fieldNibbles v ++ valueNibbles vs

/-- An encoded instruction: a 32-bit command word, or the nibbles of a token in the order they are emitted. The two
spaces do not overlap (R80). -/
inductive Code
  | command (w : Word)
  | token (nibbles : List Nibble)
  deriving DecidableEq, Repr

/-- Why bits are no instruction. -/
inductive DecodeError
  /-- A command word with OP in 0x3 to 0xF (R84). -/
  | illegalOp (op : Nibble)
  /-- A command word with bits 31:4 nonzero, whatever its OP (R82). -/
  | reservedBits (w : Word)
  /-- Fewer nibbles than the token's length (R94). -/
  | truncatedToken
  /-- A ShortRunRepeat whose index field is not a dictionary index 0x0 to 0xB (R91). -/
  | badIndex (i : Nibble)
  /-- Nibbles left over after the one token expected. -/
  | trailingNibbles
  deriving DecidableEq, Repr

/-- The command decoder (R81 to R84). -/
def decodeCommand (w : Word) : Except DecodeError Instr :=
  if w.extractLsb' 4 28 ≠ 0 then .error (.reservedBits w)
  else if w.extractLsb' 0 4 = 0x0 then .ok .nop
  else if w.extractLsb' 0 4 = 0x1 then .ok .pack
  else if w.extractLsb' 0 4 = 0x2 then .ok .encode
  else .error (.illegalOp (w.extractLsb' 0 4))

/-- Reads `n` two-nibble values, high nibble first (R92). -/
def readValues : Nat → List Nibble → Except DecodeError (List Byte × List Nibble)
  | 0, ns => .ok ([], ns)
  | n + 1, h :: l :: ns =>
    match readValues n ns with
    | .ok (vs, rest) => .ok (joinNibbles h l :: vs, rest)
    | .error e => .error e
  | _ + 1, _ => .error .truncatedToken

/-- The values of a RawRun after its selector (R92). -/
def decodeRawRun : List Nibble → Except DecodeError (Instr × List Nibble)
  | h :: l :: ns =>
    match readValues (joinNibbles h l).toNat ns with
    | .ok (vs, rest) => .ok (.rawRun (joinNibbles h l) vs, rest)
    | .error e => .error e
  | _ => .error .truncatedToken

/-- The fields of a ShortRunRepeat after its selector (R91). -/
def decodeShortRun : List Nibble → Except DecodeError (Instr × List Nibble)
  | h :: l :: i :: rest =>
    if i.toNat < Config.dictMax then .ok (.shortRunRepeat (joinNibbles h l) i, rest) else .error (.badIndex i)
  | _ => .error .truncatedToken

/-- The fields of a RunRepeat after its selector (R90). -/
def decodeRun : List Nibble → Except DecodeError (Instr × List Nibble)
  | h :: l :: vh :: vl :: rest => .ok (.runRepeat (joinNibbles h l) (joinNibbles vh vl), rest)
  | _ => .error .truncatedToken

/-- The field of a RawByte after its selector (R89). -/
def decodeRawByte : List Nibble → Except DecodeError (Instr × List Nibble)
  | vh :: vl :: rest => .ok (.rawByte (joinNibbles vh vl), rest)
  | _ => .error .truncatedToken

/-- The token decoder: the selector decides the kind and the length (R87, R94). It answers the token and the
nibbles after it. -/
def decodeToken : List Nibble → Except DecodeError (Instr × List Nibble)
  | [] => .error .truncatedToken
  | s :: ns =>
    if s = 0xC then decodeRawRun ns
    else if s = 0xD then decodeShortRun ns
    else if s = 0xE then decodeRun ns
    else if s = 0xF then decodeRawByte ns
    else .ok (.dictRef s, ns)

/-- Exactly one token. -/
def decodeOneToken (ns : List Nibble) : Except DecodeError Instr :=
  match decodeToken ns with
  | .ok (i, []) => .ok i
  | .ok (_, _ :: _) => .error .trailingNibbles
  | .error e => .error e

/-- The decoder of both spaces. -/
def decode : Code → Except DecodeError Instr
  | .command w => decodeCommand w
  | .token ns => decodeOneToken ns

/-- The nibbles of a token in emission order (R88 to R92); a command has none. -/
def tokenNibbles : Instr → List Nibble
  | .nop => []
  | .pack => []
  | .encode => []
  | .dictRef i => [i]
  | .rawRun n values => 0xC :: (fieldNibbles n ++ valueNibbles values)
  | .shortRunRepeat len i => 0xD :: (fieldNibbles len ++ [i])
  | .runRepeat len v => 0xE :: (fieldNibbles len ++ fieldNibbles v)
  | .rawByte v => 0xF :: fieldNibbles v

/-- The encoder (R83, R88 to R92). -/
def encode : Instr → Code
  | .nop => .command 0x00000000
  | .pack => .command 0x00000001
  | .encode => .command 0x00000002
  | .dictRef i => .token (tokenNibbles (.dictRef i))
  | .rawRun n values => .token (tokenNibbles (.rawRun n values))
  | .shortRunRepeat len i => .token (tokenNibbles (.shortRunRepeat len i))
  | .runRepeat len v => .token (tokenNibbles (.runRepeat len v))
  | .rawByte v => .token (tokenNibbles (.rawByte v))

/-- How many input bytes a token stands for (R93, R171); a command stands for none. -/
def Instr.count : Instr → Nat
  | .nop => 0
  | .pack => 0
  | .encode => 0
  | .dictRef _ => 1
  | .rawRun n _ => n.toNat
  | .shortRunRepeat len _ => len.toNat
  | .runRepeat len _ => len.toNat
  | .rawByte _ => 1

/-- Nibble `k` of a number, nibble 0 the least significant. -/
def nibbleOf (w k : Nat) : Nibble := BitVec.ofNat 4 (w / 16 ^ k)

/-- The `m` low nibbles of a number, the most significant first: a token of a fixed length read by the numbering of
30_encoding R86. -/
def nibblesHighFirst (w : Nat) : Nat → List Nibble
  | 0 => []
  | m + 1 => nibbleOf w m :: nibblesHighFirst w m

/-- The `m` low nibbles of a number, the least significant first: the numbering of the table's RawRun row, whose
`fixed` bits 3:0 are the FIRST nibble. -/
def nibblesLowFirst (w : Nat) (m : Nat) : List Nibble := (nibblesHighFirst w m).reverse

/-- A RawRun from its table word: the header's count and as many values, every nibble above the given bits 0. -/
def rawRunNibbles (w : Nat) : List Nibble :=
  nibblesLowFirst w (3 + 2 * (joinNibbles (nibbleOf w 1) (nibbleOf w 2)).toNat)

/-- The bits of a table word as the machine holds them (log 16). A 32-bit row is a command word. A token row is read
by the numbering of R86, which leaves the bits above the token 0 (a token of 1, 3 or 5 nibbles does not fill its
bytes); the RawRun row, whose table bits 3:0 are its first nibble, is read from its first nibble up. A word that fits a
fixed-length row and the RawRun row both, such as 0x0F0C of 16 bits, is read as the fixed-length token (DESIGN CHOICE,
log 16). -/
def tableCode (nbits w : Nat) : Option Code :=
  if nbits = 32 then some (.command (BitVec.ofNat 32 w))
  else if nbits = 8 ∧ w < 0xC then some (.token (nibblesHighFirst w 1))
  else if nbits = 16 ∧ w / 0x1000 = 0xD then some (.token (nibblesHighFirst w 4))
  else if nbits = 16 ∧ w / 0x100 = 0xF then some (.token (nibblesHighFirst w 3))
  else if nbits = 24 ∧ w / 0x10000 = 0xE then some (.token (nibblesHighFirst w 5))
  else if nbits ≤ 24 ∧ w % 0x10 = 0xC then some (.token (rawRunNibbles w))
  else none

/-- The instruction the decoder reads from a word numbered as spec/opcode_table.json numbers it. -/
def decodeTableWord (nbits w : Nat) : Option Instr :=
  match tableCode nbits w with
  | none => none
  | some c =>
    match decode c with
    | .ok i => some i
    | .error _ => none

end Sys2Proof
end

