-- ==== Sys2Proof/Machine/State.lean ====
section
/-! DEFINITION. The state of the NSE (10_state.md), the reasons a step can stop, and the state after reset
(70_reset R280 to R282). -/

namespace Sys2Proof.Machine

/-- Why a run has no final state: the entries of the fault record (10_state R45) and what a step of a faulted run
answers. -/
inductive Fault
  /-- Raised by a malformed host access: unmapped, misaligned, window-crossing, or narrow on a register
  (20_memory R54, R58, R60). The NSE itself changes nothing. Safe: the hardware goes on, the model stops. -/
  | busError (addr : Addr)
  /-- Raised by a read, by the host or by a command, of the buffer byte at this host address, which nothing has
  written since reset (20_memory R75). Safe: no value is chosen for it. -/
  | unwrittenRead (addr : Nat)
  /-- Raised by a host access that the BUSY window forbids (70_reset R286). Safe: the hardware gives some value. -/
  | hazard (addr : Addr)
  /-- Raised by the token packer asked to write `OUT[k]` past the end of OUT, an address that does not exist
  (20_memory R53). No ENCODE does it (R74): only a token run from the port can. Safe. -/
  | outOverrun (k : Nat)
  deriving DecidableEq, Repr

/-- Why a step has no meaning. -/
inductive Refusal
  /-- An instruction not modelled yet, by its mnemonic. No arm of exec answers it. Safe. -/
  | notModelled (mnemonic : String)
  /-- The port holds nibbles that are no token of 30_encoding R87 to R92 (log 3). Nothing in the machine puts them
  there. Safe. -/
  | malformedToken
  /-- A command where the encoder's loop wants a token: the rules of 43 R165 choose none. Safe. -/
  | notAToken
  deriving DecidableEq, Repr

/-- STATUS.ERR_CODE: the codes of 60_exceptions R250. The reserved codes never arise (93 U11), so they have no
constructor. -/
inductive ErrCode
  | none
  | illegalCmd
  | shape
  | len
  | dict
  deriving DecidableEq, Repr

/-- CTRL (10_state R22): only IRQ_EN is stored, since reserved bits read 0 and ignore writes (R33). -/
structure Ctrl where
  irqEn : Bool
  deriving DecidableEq, Repr

/-- STATUS (10_state R24). -/
structure Status where
  busy : Bool
  done : Bool
  compress : Bool
  errCode : ErrCode
  deriving DecidableEq, Repr

/-- GEOM (10_state R25). -/
structure Geom where
  width : Byte
  height : Byte
  deriving DecidableEq, Repr

/-- The dictionary registers DICT0 to DICT11 (10_state R32, R34). -/
abbrev DictRegs := Vector Byte 12

/-- The operand capture of 40_control R111: the accepted word and the registers a command reads. -/
structure Snapshot where
  cmd : Word
  geom : Geom
  fg : Byte
  pixLen : Word
  colLen : Word
  dictCnt : BitVec 4
  dict : DictRegs
  deriving DecidableEq, Repr

/-- One entry of the segment table, `seg(start) = (value, len)` (10_state R39, 43 R162). -/
structure Segment where
  start : Nat
  value : Byte
  len : Nat
  deriving DecidableEq, Repr

/-- The internal state of ENCODE: segment table (R39), position (R40) and token packer (R41). -/
structure Encoder where
  seg : List Segment
  pos : Nat
  hold : Nibble
  half : Bool
  nib : Nat
  ob : Nat
  deriving DecidableEq, Repr

/-- `packer_init` and an empty segment table at position 0 (44 R200, 10_state R40). -/
def Encoder.initial : Encoder := ⟨[], 0, 0, false, 0, 0⟩

/-- The sizes of a host access (20_memory R56). -/
inductive Size
  | byte
  | half
  | word
  deriving DecidableEq, Repr

/-- What the host does next: a bus access (30_encoding R101), a wait, or the reset input (70_reset R280), whose driver the
spec does not name and the model puts in the host's list (DESIGN CHOICE, log 27). -/
inductive HostOp
  /-- `MemRead(addr, n)`. -/
  | read (addr : Addr) (size : Size)
  /-- `MemWrite(addr, n, data)`. -/
  | write (addr : Addr) (size : Size) (data : Word)
  /-- POLL: read STATUS until BUSY = 0 (R101). -/
  | poll
  /-- No access until the interrupt output is 1 (R264, log 18). -/
  | waitIrq
  /-- The reset input is asserted (R280, log 27). -/
  | reset
  deriving DecidableEq, Repr

/-- What the bus answered to the last host access (the model's own field, log 19). -/
inductive BusReply
  /-- No access yet. -/
  | none
  /-- A read's data, zero-extended to 32 bits (R56). -/
  | data (w : Word)
  /-- A write was taken. -/
  | ack
  /-- The bus error response of R54: no data. -/
  | busError
  /-- A hazard or a read of an unwritten byte: the spec states no data (R75, R286). -/
  | unspecified
  deriving DecidableEq, Repr

/-- The buffer bytes by host address, rising; a listed byte is a written byte (10_state R38, log 5). -/
abbrev Memory := List Host.Cell

/-- The state of the NSE. -/
structure State where
  /-- CTRL (R22). -/
  ctrl : Ctrl
  /-- STATUS (R24). -/
  status : Status
  /-- GEOM (R25). -/
  geom : Geom
  /-- FG.COLOR (R26). -/
  fg : Byte
  /-- PIX_LEN (R27). -/
  pixLen : Word
  /-- COL_LEN (R28). -/
  colLen : Word
  /-- OUT_LEN (R29). -/
  outLen : Word
  /-- NIB_COUNT (R30). -/
  nibCount : Word
  /-- DICT_CNT.COUNT (R31). -/
  dictCnt : BitVec 4
  /-- DICT0 to DICT11 (R32). -/
  dict : DictRegs
  /-- PIX, COL and OUT with their written marks (R35 to R38). -/
  mem : Memory
  /-- The accepted command and its operands (40_control R111). -/
  snap : Snapshot
  /-- The internal state of ENCODE (R39 to R41). -/
  enc : Encoder
  /-- The flag WIN: the BUSY window is open (R45). -/
  win : Bool
  /-- The fault record (R45). -/
  faults : List Fault
  /-- The model's own: a token presented to the multiplexer from outside an ENCODE (log 3). -/
  port : List Nibble
  /-- The model's own: the host's accesses still to come, the next one first (log 2). -/
  hostOps : List HostOp
  /-- The model's own: the bus's last answer (log 19). -/
  reply : BusReply
  /-- The model's own: host accesses still served before the core's step (log 1). -/
  coreDelay : Nat
  /-- The model's own: how many commands have been accepted, the argument of the free value (log 1). -/
  accepted : Nat
  deriving DecidableEq, Repr

/-- All dictionary registers zero (R32). -/
def DictRegs.zero : DictRegs := Vector.replicate 12 0

/-- The value the model names for the snapshot before any command (DESIGN CHOICE, log 10). -/
def Snapshot.zero : Snapshot := ⟨0, ⟨0, 0⟩, 0, 0, 0, 0, DictRegs.zero⟩

/-- The machine right after reset (R280 to R282): every host-visible register 0, no byte written, no fault. -/
def State.reset : State where
  ctrl := ⟨false⟩
  status := ⟨false, false, false, .none⟩
  geom := ⟨0, 0⟩
  fg := 0
  pixLen := 0
  colLen := 0
  outLen := 0
  nibCount := 0
  dictCnt := 0
  dict := DictRegs.zero
  mem := []
  snap := Snapshot.zero
  enc := Encoder.initial
  win := false
  faults := []
  port := []
  hostOps := []
  reply := .none
  coreDelay := 0
  accepted := 0

/-- What one step answers. -/
abbrev Result := Host.Outcome State Fault Refusal

end Sys2Proof.Machine
end

