-- ==== Sys2Proof/Machine/Flags.lean ====
section
/-! DEFINITION. The status bits of the NSE: the STATUS word, COMPRESS and the interrupt output. There are no
condition codes (10_state R43). -/

namespace Sys2Proof.Machine

/-- The code of an error in STATUS.ERR_CODE (60_exceptions R250). -/
def ErrCode.bits : ErrCode → BitVec 4
  | .none => 0x0
  | .illegalCmd => 0x1
  | .shape => 0x2
  | .len => 0x3
  | .dict => 0x4

/-- STATUS as the host reads it: ERR_CODE in 7:4, bit 3 zero, COMPRESS, DONE, BUSY (10_state R24). -/
def Status.word (t : Status) : Word :=
  (0 : BitVec 24) ++ t.errCode.bits ++ (0 : BitVec 1) ++ BitVec.ofBool t.compress ++ BitVec.ofBool t.done ++
    BitVec.ofBool t.busy

/-- CTRL as the host reads it (10_state R22). -/
def Ctrl.word (c : Ctrl) : Word := (0 : BitVec 31) ++ BitVec.ofBool c.irqEn

/-- GEOM as the host reads it (10_state R25). -/
def Geom.word (g : Geom) : Word := (0 : BitVec 16) ++ g.height ++ g.width

/-- The interrupt output, `IRQ = CTRL.IRQ_EN and STATUS.DONE` (60_exceptions R264). -/
def State.irq (s : State) : Bool := s.ctrl.irqEn && s.status.done

/-- STATUS.COMPRESS of a successful ENCODE: the stream is strictly shorter than its input (44 R204). -/
def compressFlag (streamLen inputLen : Nat) : Bool := decide (streamLen < inputLen)

/-- STATUS at the acceptance of a command: COMPRESS is kept (40_control R111). -/
def Status.started (t : Status) : Status := { t with busy := true, done := false, errCode := .none }

/-- STATUS at completion with code `c` (40_control R115). -/
def Status.completed (t : Status) (c : ErrCode) : Status := { t with busy := false, done := true, errCode := c }

/-- STATUS after a host write: only DONE can change, and a 1 in bit 1 clears it (40_control R117). In the tail of the
BUSY window, the core's step done and BUSY = 0 not yet read, this clears DONE, although 70_reset R286 says that a STATUS
write in the window "can change nothing": the model follows R117 there (DEDUCED, log 25). -/
def Status.hostWrite (t : Status) (w : Word) : Status := { t with done := t.done && !w.getLsbD 1 }

end Sys2Proof.Machine
end

