-- ==== Sys2Proof/Machine/Ops.lean ====
section
/-! DEFINITION. The named operations over memory and registers: buffer bytes and their canonical form, acceptance
and completion of a command, error entry, and the token packer. -/

namespace Sys2Proof.Machine

/-! ### Buffer bytes (20_memory R53, 10_state R38) -/

/-- Is the host address a byte of PIX, COL or OUT (R51, R53)? -/
def inBuffer (a : Nat) : Bool :=
  decide (Config.pixBase ≤ a ∧ a < Config.pixBase + Config.pixSize) ||
  decide (Config.colBase ≤ a ∧ a < Config.colBase + Config.colSize) ||
  decide (Config.outBase ≤ a ∧ a < Config.outBase + Config.outSize)

/-- The canonical form: rising addresses, each a buffer byte. An unlisted byte is unwritten and has no value, so no
entry can repeat it (log 5). -/
abbrev Memory.wf (m : Memory) : Prop :=
  m.Pairwise (fun p q => p.1 < q.1) ∧ ∀ c ∈ m, inBuffer c.1 = true

/-- The byte at a host address; nothing where it was never written (R38). -/
def Memory.read : Memory → Nat → Option Byte
  | [], _ => none
  | (k, v) :: m, a => if k = a then some v else Memory.read m a

/-- Writes one byte and so sets its written mark (R38, R57). -/
def Memory.write : Memory → Nat → Byte → Memory
  | [], a, b => [(a, b)]
  | (k, v) :: m, a, b =>
    if a < k then (a, b) :: (k, v) :: m
    else if a = k then (a, b) :: m
    else (k, v) :: Memory.write m a b

/-- Writes consecutive bytes from an address up. -/
def Memory.writeBytes (m : Memory) (a : Nat) : List Byte → Memory
  | [] => m
  | b :: bs => Memory.writeBytes (m.write a b) (a + 1) bs

/-- Reads `n` consecutive bytes from an address up; an unwritten one is a fault (R75). Of several unwritten bytes the
fault names the lowest, in a host's read as in a command's (DESIGN CHOICE, log 12). -/
def Memory.readBytes (m : Memory) : Nat → Nat → Except Fault (List Byte)
  | _, 0 => .ok []
  | a, n + 1 =>
    match m.read a with
    | none => .error (.unwrittenRead a)
    | some b =>
      match Memory.readBytes m (a + 1) n with
      | .ok bs => .ok (b :: bs)
      | .error f => .error f

/-! ### Sequencing -/

/-- Runs `f` on a next state; a stop stays a stop. -/
def andThen (o : Result) (f : State → Result) : Result :=
  match o with
  | .next s => f s
  | .fault r => .fault r
  | .refused r => .refused r

/-! ### Acceptance, completion and error entry (40_control.md, 60_exceptions.md) -/

/-- The operand capture of a command word (40_control R111, 20_memory R70). -/
def State.capture (s : State) (w : Word) : Snapshot :=
  { cmd := w, geom := s.geom, fg := s.fg, pixLen := s.pixLen, colLen := s.colLen, dictCnt := s.dictCnt,
    dict := s.dict }

/-- Command start, atomic with the accepted CMD write (40_control R111), which also opens the BUSY window (10_state
R45) and draws the free completion time of this command (log 1). -/
def State.accept (s : State) (w : Word) : State :=
  { s with
    status := s.status.started
    snap := s.capture w
    win := true
    coreDelay := Config.commandDelay s.accepted
    accepted := s.accepted + 1 }

/-- Completion, the last thing the core step does (40_control R115). -/
def State.complete (s : State) (c : ErrCode) : State := { s with status := s.status.completed c }

/-- Error entry, the NSE's form of taking an exception (60_exceptions R260, 40_control R118): the command stops, only
the three STATUS fields of its completion change, nothing is saved, there is no vector and no mode. There is no
return either (R262): the code holds until the next acceptance or reset. -/
def raiseError (c : ErrCode) (s : State) : Result := .next (s.complete c)

/-- Adds to the fault record (10_state R45). -/
def State.recordFault (s : State) (f : Fault) : State := { s with faults := s.faults ++ [f] }

/-- The model's treatment of a fault (60_exceptions R257, R258; log 6): it is added to the fault record of `s` and
nothing else of `s` changes. -/
def settle (s : State) (o : Result) : Result :=
  match o with
  | .next t => .next t
  | .fault f => .next (s.recordFault f)
  | .refused r => .refused r

/-- Reset (70_reset R280 to R283): every register at its reset value, the BUSY window ended, the internal state
discarded, every written mark cleared. What the host does next and the count of accepted commands are no part of the
NSE and stay (log 9). -/
def State.applyReset (s : State) : State :=
  { State.reset with hostOps := s.hostOps, accepted := s.accepted }

/-! ### The token packer (44_token_packer.md) -/

/-- Writes `OUT[ob]` and counts the byte; past the end of OUT there is no such byte (20_memory R53). -/
def putOut (b : Byte) (s : State) : Result :=
  if s.enc.ob < Config.outSize then
    .next { s with
      mem := s.mem.write (Config.outBase + s.enc.ob) b
      enc := { s.enc with ob := s.enc.ob + 1, half := false } }
  else .fault (.outOverrun s.enc.ob)

/-- `emit(n)` (44 R200): the first nibble of a pair is held, the second completes a byte, first nibble high. -/
def emit (n : Nibble) (s : State) : Result :=
  if s.enc.half then putOut (joinNibbles s.enc.hold n) { s with enc := { s.enc with nib := s.enc.nib + 1 } }
  else .next { s with enc := { s.enc with nib := s.enc.nib + 1, hold := n, half := true } }

/-- Emits nibbles in order. -/
def emitAll : List Nibble → State → Result
  | [], s => .next s
  | n :: ns, s => andThen (emit n s) (emitAll ns)

/-- `packer_flush()` (44 R201): an odd count is padded with a zero low nibble. -/
def flush (s : State) : Result :=
  if s.enc.half then putOut (joinNibbles s.enc.hold 0) s else .next s

/-- Advances the position (10_state R40, 43 R171). -/
def State.advance (s : State) (m : Nat) : State := { s with enc := { s.enc with pos := s.enc.pos + m } }

/-- The shared shape of rules a to d (43 R166 to R170): emit the token's nibbles, then advance `pos` by the bytes it
stands for. -/
def emitToken (ns : List Nibble) (m : Nat) (s : State) : Result :=
  andThen (emitAll ns s) fun t => .next (t.advance m)

end Sys2Proof.Machine
end

