-- ==== Sys2Proof/Machine/Operands.lean ====
section
/-! DEFINITION. The operands of the commands: they are all in the snapshot (10_state R20, 40_control R111). The
dictionary of a command, its validity and its lookup (42_dictionary_lookup.md). -/

namespace Sys2Proof.Machine

/-- WIDTH of the command (R130). -/
def Snapshot.width (p : Snapshot) : Nat := p.geom.width.toNat

/-- HEIGHT of the command (R130). -/
def Snapshot.height (p : Snapshot) : Nat := p.geom.height.toNat

/-- `N = COL_LEN`, the input length of ENCODE (43 R160). -/
def Snapshot.inputLen (p : Snapshot) : Nat := p.colLen.toNat

/-- DICT_CNT.COUNT of the command. -/
def Snapshot.count (p : Snapshot) : Nat := p.dictCnt.toNat

/-- The dictionary `[DICT[0], ..., DICT[COUNT - 1]]` (42 R145): entries at COUNT and above take no part (R34). -/
def Snapshot.dictionary (p : Snapshot) : List Byte := p.dict.toList.take p.count

/-- Validity of the dictionary (42 R146): at most 12 entries, pairwise distinct. -/
def Snapshot.dictValid (p : Snapshot) : Bool := decide (p.count ≤ Config.dictMax) && decide p.dictionary.Nodup

/-- `dict_index(v)` (42 R147): the first matching index, or none. -/
def dictIndex : List Byte → Byte → Option Nat
  | [], _ => none
  | d :: ds, v => if d = v then some 0 else (dictIndex ds v).map (· + 1)

/-- `in_dict(v)` (42 R147). -/
def inDict (d : List Byte) (v : Byte) : Bool := (dictIndex d v).isSome

/-- The hit lines of the hardware lookup, `hit_k = (k < COUNT) and (DICT[k] == v)` (42 R148). -/
def Snapshot.hit (p : Snapshot) (v : Byte) (k : Fin 12) : Bool := decide (k.val < p.count) && decide (p.dict[k] = v)

/-- The nibble of a dictionary index (42 R149): 0x0 to 0xB. -/
def indexNibble (k : Nat) : Nibble := BitVec.ofNat 4 k

end Sys2Proof.Machine
end

