-- ==== Sys2Proof/Machine/Control.lean ====
section
/-! DEFINITION. The command NOP (40_control R113). -/

namespace Sys2Proof.Machine

/-- NOP (40_control R113): no operand, no effect; it completes without error like any command. -/
def execNop (s : State) : Result := .next (s.complete .none)

end Sys2Proof.Machine
end

