-- ==== Sys2Proof/Machine/Tokens.lean ====
section
/-! DEFINITION. The meaning of each token kind as an action of the encoder (43_nibble_encoder R166 to R170): its
nibbles go to the token packer in order, then `pos` advances by the bytes it stands for. -/

namespace Sys2Proof.Machine

/-- DictRef(i), rule d with a dictionary byte (43 R169). -/
def execDictRef (i : Nibble) (s : State) : Result := emitToken [i] 1 s

/-- RawByte(v), rule d with a non-dictionary byte (43 R170). -/
def execRawByte (v : Byte) (s : State) : Result := emitToken [0xF, hiNibble v, loNibble v] 1 s

/-- RunRepeat(len, v), rule a (43 R166). -/
def execRunRepeat (len v : Byte) (s : State) : Result :=
  emitToken [0xE, hiNibble len, loNibble len, hiNibble v, loNibble v] len.toNat s

/-- ShortRunRepeat(len, i), rule b (43 R167). -/
def execShortRunRepeat (len : Byte) (i : Nibble) (s : State) : Result :=
  emitToken [0xD, hiNibble len, loNibble len, i] len.toNat s

/-- RawRun(n, values), rule c (43 R168): each value high nibble first (30_encoding R92). -/
def execRawRun (n : Byte) (values : List Byte) (s : State) : Result :=
  emitToken (0xC :: hiNibble n :: loNibble n :: valueNibbles values) n.toNat s

end Sys2Proof.Machine
end

