-- ==== Sys2Proof/Machine/Encode.lean ====
section
/-! DEFINITION. The nibble-stream encoder, command ENCODE (43_nibble_encoder.md): runs and segments, the four
priority rules, the main loop. -/

namespace Sys2Proof.Machine

/-! ### Runs and segments (43 R161, R162) -/

/-- The maximal stretches of equal bytes, given the one open so far: its start, value and length. -/
def runsFrom (start : Nat) (v : Byte) (len : Nat) : List Byte → List Segment
  | [] => [⟨start, v, len⟩]
  | y :: ys => if y = v then runsFrom start v (len + 1) ys else ⟨start, v, len⟩ :: runsFrom (start + len) y 1 ys

/-- All maximal stretches of equal bytes of the input, those of one byte too. -/
def runs : List Byte → List Segment
  | [] => []
  | y :: ys => runsFrom 0 y 1 ys

/-- Cuts a run into pieces of at most 255 bytes (SPLIT, 00_scope R7); a piece of one byte is no segment (43 R161). -/
def cutRun (r : Segment) : List Segment :=
  (List.range ((r.len + 254) / Config.countMax)).filterMap fun k =>
    let t := Config.countMax * k
    let m := min Config.countMax (r.len - t)
    if 2 ≤ m then some ⟨r.start + t, r.value, m⟩ else none

/-- The segment table of the input (43 R162). -/
def segments (x : List Byte) : List Segment := (runs x).flatMap cutRun

/-- `seg(j)` (43 R162). -/
def segAt (seg : List Segment) (j : Nat) : Option Segment := seg.find? fun g => decide (g.start = j)

/-- `qual_a(j)` (43 R163), with its segment. -/
def qualA (d : List Byte) (seg : List Segment) (j : Nat) : Option Segment :=
  (segAt seg j).filter fun g => !inDict d g.value && decide (3 ≤ g.len)

/-- `qual_b(j)` (43 R164), with its segment. -/
def qualB (d : List Byte) (seg : List Segment) (j : Nat) : Option Segment :=
  (segAt seg j).filter fun g => inDict d g.value && decide (4 ≤ g.len)

/-! ### The priority rules (43 R165) -/

/-- The scan of rule c over the input bytes from index `p` on, at most `cap` more (43 R168). -/
def spanFrom (d : List Byte) (seg : List Segment) : Nat → Nat → List Byte → Nat
  | _, _, [] => 0
  | 0, _, _ :: _ => 0
  | cap + 1, p, y :: ys =>
    if inDict d y || (qualA d seg p).isSome then 0 else spanFrom d seg cap (p + 1) ys + 1

/-- `span(p)` (43 R168). -/
def span (d x : List Byte) (seg : List Segment) (p : Nat) : Nat := spanFrom d seg Config.countMax p (x.drop p)

/-- A count as its 8-bit field (30_encoding R93). -/
def countField (n : Nat) : Byte := BitVec.ofNat 8 n

/-- Rule d (43 R169, R170). -/
def tokenRuleD (d : List Byte) (v : Byte) : Instr :=
  match dictIndex d v with
  | some k => .dictRef (indexNibble k)
  | none => .rawByte v

/-- Rule c, else rule d, at a byte `v` at `pos` (43 R168). -/
def tokenRuleC (d x : List Byte) (seg : List Segment) (pos : Nat) (v : Byte) : Instr :=
  let n := span d x seg pos
  if 2 < n then .rawRun (countField n) ((x.drop pos).take n) else tokenRuleD d v

/-- Rule b, else rules c and d (43 R167). -/
def tokenRuleB (d x : List Byte) (seg : List Segment) (pos : Nat) (v : Byte) : Instr :=
  match qualB d seg pos with
  | some g => .shortRunRepeat (countField g.len) (indexNibble ((dictIndex d g.value).getD 0))
  | none => tokenRuleC d x seg pos v

/-- The token at `pos`: the first matching rule in the strict order a, b, c, d (43 R165). -/
def tokenRuleA (d x : List Byte) (seg : List Segment) (pos : Nat) (v : Byte) : Instr :=
  match qualA d seg pos with
  | some g => .runRepeat (countField g.len) g.value
  | none => tokenRuleB d x seg pos v

/-- The token the encoder chooses at `pos`, none when `pos` is at the end of the input (43 R165). -/
def chooseToken (d x : List Byte) (seg : List Segment) (pos : Nat) : Option Instr :=
  (x[pos]?).map (tokenRuleA d x seg pos)

/-- The tokens chosen from `pos` on, at most `fuel` of them. -/
def tokensFrom (d x : List Byte) (seg : List Segment) : Nat → Nat → List Instr
  | 0, _ => []
  | fuel + 1, pos =>
    match chooseToken d x seg pos with
    | none => []
    | some t => t :: tokensFrom d x seg fuel (pos + t.count)

/-- The tokens of an input (43 R165, R174); at most one a byte (R171). -/
def tokenize (d x : List Byte) : List Instr := tokensFrom d x (segments x) x.length 0

/-! ### The command (43 R179) -/

/-- Runs a token the rules chose, by its own meaning. -/
def runToken (t : Instr) (s : State) : Result :=
  match t with
  | .nop => .refused .notAToken
  | .pack => .refused .notAToken
  | .encode => .refused .notAToken
  | .dictRef i => execDictRef i s
  | .rawRun n values => execRawRun n values s
  | .shortRunRepeat len i => execShortRunRepeat len i s
  | .runRepeat len v => execRunRepeat len v s
  | .rawByte v => execRawByte v s

/-- The main loop of ENCODE, `while pos < N` (43 R165, R179), at most `fuel` tokens (R171). -/
def encodeLoop (d x : List Byte) : Nat → State → Result
  | 0, s => .next s
  | fuel + 1, s =>
    match chooseToken d x s.enc.seg s.enc.pos with
    | none => .next s
    | some t => andThen (runToken t s) (encodeLoop d x fuel)

/-- The end of ENCODE (43 R172): the results are written, and the internal state holds no value afterwards
(10_state R42, log 11). -/
def finishEncode (n : Nat) (s : State) : State :=
  { s with
    nibCount := BitVec.ofNat 32 s.enc.nib
    outLen := BitVec.ofNat 32 s.enc.ob
    status := { s.status with compress := compressFlag s.enc.ob n }.completed .none
    enc := Encoder.initial }

/-- ENCODE after its checks, on the input bytes it read (43 R179). -/
def encodeInput (x : List Byte) (s : State) : Result :=
  andThen (encodeLoop s.snap.dictionary x x.length { s with enc := { Encoder.initial with seg := segments x } })
    fun t => andThen (flush t) fun u => .next (finishEncode x.length u)

/-- ENCODE (43 R173, R179): LEN, then DICT, then the reads of `COL[0]` to `COL[N - 1]`, then the tokens. -/
def execEncode (s : State) : Result :=
  if Config.colSize < s.snap.inputLen then raiseError .len s
  else if s.snap.dictValid = false then raiseError .dict s
  else
    match s.mem.readBytes Config.colBase s.snap.inputLen with
    | .error f => .fault f
    | .ok x => encodeInput x s

end Sys2Proof.Machine
end

