-- ==== Sys2Proof/Machine/Serializer.lean ====
section
/-! DEFINITION. The column-packed bitmap serializer, command PACK (41_bitmap_serializer.md). -/

namespace Sys2Proof.Machine

/-- The number of bands, `ceil(HEIGHT / 8)` (41 R132). -/
def bandCount (height : Nat) : Nat := (height + 7) / Config.bandHeight

/-- Is the pixel at row `r`, column `c` foreground (41 R133)? Rows at HEIGHT and above are not (R134). Pixels are
row-major (20_memory R63). -/
def pixelSet (width height : Nat) (fg : Byte) (pix : List Byte) (r c : Nat) : Bool :=
  decide (r < height) && decide (pix[r * width + c]? = some fg)

/-- The byte of band `b`, column `c`: bit `h` is row `8b + h` (20_memory R61, 41 R133). -/
def columnByte (width height : Nat) (fg : Byte) (pix : List Byte) (b c : Nat) : Byte :=
  BitVec.ofFnLE fun h : Fin 8 => pixelSet width height fg pix (Config.bandHeight * b + h.val) c

/-- The PackedColumn array, band-major (41 R134). -/
def packColumns (width height : Nat) (fg : Byte) (pix : List Byte) : List Byte :=
  (List.range (bandCount height)).flatMap fun b => (List.range width).map fun c => columnByte width height fg pix b c

/-- PACK (41 R131, R132, R135). The shape check comes before any read; the pixels `PIX[0]` to
`PIX[WIDTH × HEIGHT - 1]` are read (R136), and an unwritten one is a fault (R137 (5)). -/
def execPack (s : State) : Result :=
  let n := s.snap.width * s.snap.height
  if s.snap.pixLen.toNat ≠ n then raiseError .shape s
  else
    match s.mem.readBytes Config.pixBase n with
    | .error f => .fault f
    | .ok pix =>
      let cols := packColumns s.snap.width s.snap.height s.snap.fg pix
      .next
        { s with
          mem := s.mem.writeBytes Config.colBase cols
          colLen := BitVec.ofNat 32 (s.snap.width * bandCount s.snap.height)
          status := s.status.completed .none }

end Sys2Proof.Machine
end

