-- ==== Sys2Proof/Machine/Dispatch.lean ====
section
/-! DEFINITION. One arm per constructor of Instr: each calls its instruction's meaning. -/

namespace Sys2Proof.Machine

def exec (i : Instr) (s : State) : Host.Outcome State Fault Refusal :=
  match i with
  | .nop => Sys2Proof.Machine.execNop s
  | .pack => Sys2Proof.Machine.execPack s
  | .encode => Sys2Proof.Machine.execEncode s
  | .dictRef k => Sys2Proof.Machine.execDictRef k s
  | .rawRun n values => Sys2Proof.Machine.execRawRun n values s
  | .shortRunRepeat len k => Sys2Proof.Machine.execShortRunRepeat len k s
  | .runRepeat len v => Sys2Proof.Machine.execRunRepeat len v s
  | .rawByte v => Sys2Proof.Machine.execRawByte v s

end Sys2Proof.Machine
end

