-- ==== Sys2Proof/Machine/HostPort.lean ====
section
/-! DEFINITION. The host's side of the bus (20_memory.md, 10_state.md): the address map, the registers, the hazards
of the BUSY window (70_reset R286), and one host operation. -/

namespace Sys2Proof.Machine

/-! ### The address map and the bus rules -/

/-- The number of bytes of an access (20_memory R56). -/
def Size.bytes : Size → Nat
  | .byte => 1
  | .half => 2
  | .word => 4

/-- The four mapped windows (20_memory R51). -/
inductive Window
  | regs
  | pix
  | col
  | out
  deriving DecidableEq, Repr

/-- The window a host address lies in; none where the map is unmapped (20_memory R51). -/
def windowOf (a : Nat) : Option Window :=
  if a < Config.regSize then some .regs
  else if Config.pixBase ≤ a ∧ a < Config.pixBase + Config.pixSize then some .pix
  else if Config.colBase ≤ a ∧ a < Config.colBase + Config.colSize then some .col
  else if Config.outBase ≤ a ∧ a < Config.outBase + Config.outSize then some .out
  else none

/-- Every byte of the access lies in the window of its first byte (20_memory R54). -/
def insideWindow (a n : Nat) : Bool :=
  (windowOf a).isSome && (List.range n).all fun k => decide (windowOf (a + k) = windowOf a)

/-- An access the bus takes: inside one window and naturally aligned (20_memory R56, R60); the register window takes
32-bit accesses only (R58). Any other gets a bus error (R54). -/
def busAccepts (a : Nat) (size : Size) : Bool :=
  insideWindow a size.bytes && decide (a % size.bytes = 0) &&
    (decide (windowOf a ≠ some .regs) || decide (size = .word))

/-! ### Registers (10_state R21) -/

/-- The registers of the register window. -/
inductive Reg
  | ctrl
  | cmd
  | status
  | geom
  | fg
  | pixLen
  | colLen
  | outLen
  | nibCount
  | dictCnt
  | dict (k : Fin 12)
  | reserved
  deriving DecidableEq, Repr

/-- The register at a word-aligned offset of the register window (10_state R21, 20_memory R52). -/
def regAt (o : Nat) : Reg :=
  if o = 0x00 then .ctrl
  else if o = 0x04 then .cmd
  else if o = 0x08 then .status
  else if o = 0x0C then .geom
  else if o = 0x10 then .fg
  else if o = 0x14 then .pixLen
  else if o = 0x18 then .colLen
  else if o = 0x1C then .outLen
  else if o = 0x20 then .nibCount
  else if o = 0x24 then .dictCnt
  else if h : 0x40 ≤ o ∧ o < 0x70 then .dict ⟨(o - 0x40) / 4, by omega⟩
  else .reserved

/-- The 32 bits a host read of a register returns: reserved bits, reserved offsets and CMD read 0 (10_state R22 to
R33). -/
def State.readReg (s : State) : Reg → Word
  | .ctrl => s.ctrl.word
  | .cmd => 0
  | .status => s.status.word
  | .geom => s.geom.word
  | .fg => (0 : BitVec 24) ++ s.fg
  | .pixLen => s.pixLen
  | .colLen => s.colLen
  | .outLen => s.outLen
  | .nibCount => s.nibCount
  | .dictCnt => (0 : BitVec 28) ++ s.dictCnt
  | .dict k => (0 : BitVec 24) ++ s.dict[k]
  | .reserved => 0

/-- A host write of a register: its writable fields take the data (20_memory R58); read-only registers and reserved
offsets ignore it (10_state R33); CMD starts the command (40_control R110). -/
def State.writeReg (s : State) (r : Reg) (w : Word) : State :=
  match r with
  | .ctrl => { s with ctrl := ⟨w.getLsbD 0⟩ }
  | .cmd => s.accept w
  | .status => { s with status := s.status.hostWrite w }
  | .geom => { s with geom := ⟨w.extractLsb' 0 8, w.extractLsb' 8 8⟩ }
  | .fg => { s with fg := w.extractLsb' 0 8 }
  | .pixLen => { s with pixLen := w }
  | .colLen => { s with colLen := w }
  | .outLen => s
  | .nibCount => s
  | .dictCnt => { s with dictCnt := w.extractLsb' 0 4 }
  | .dict k => { s with dict := s.dict.set k (w.extractLsb' 0 8) }
  | .reserved => s

/-! ### Hazards of the BUSY window (70_reset R286) -/

/-- The registers whose read and write the window forbids: all but STATUS and CTRL ("Every other access is a hazard",
R286; 93 U5). For a CMD read and for the reserved offsets, which R286 does not name one by one, this is the model's
reading (DEDUCED, log 8): a reserved write changes nothing, as 10_state R33 says, and is recorded. -/
def barredInWindow : Reg → Bool
  | .ctrl => false
  | .status => false
  | .cmd => true
  | .geom => true
  | .fg => true
  | .pixLen => true
  | .colLen => true
  | .outLen => true
  | .nibCount => true
  | .dictCnt => true
  | .dict _ => true
  | .reserved => true

/-- A CMD write needs BUSY = 0 and a closed window (40_control R110); the other hazards are those of the open window
(10_state R45; log 20). -/
def State.windowBars (s : State) (r : Reg) : Bool := s.win || (decide (r = .cmd) && s.status.busy)

/-! ### Bus reads and writes -/

/-- The model flag WIN after a host read of STATUS: the window closes when the read returns BUSY = 0 (10_state R45). -/
def State.statusSeen (s : State) : State := { s with win := s.win && s.status.busy }

/-- Little-endian assembly of the bytes of a read, zero-extended (20_memory R56, R59). -/
def littleEndian : List Byte → Nat
  | [] => 0
  | b :: bs => b.toNat + 256 * littleEndian bs

/-- The `n` low bytes of a word, the lowest first (20_memory R57, R59). -/
def wordBytes (w : Word) (n : Nat) : List Byte := (List.range n).map fun k => w.extractLsb' (8 * k) 8

/-- A host read of a register: the data, and the window closed by a STATUS read that returns BUSY = 0. -/
def readRegister (a : Addr) (r : Reg) (s : State) : Result :=
  if s.win && barredInWindow r then .fault (.hazard a)
  else
    let t := if r = .status then s.statusSeen else s
    .next { t with reply := .data (s.readReg r) }

/-- A host write of a register. -/
def writeRegister (a : Addr) (r : Reg) (w : Word) (s : State) : Result :=
  if s.windowBars r && barredInWindow r then .fault (.hazard a)
  else .next { s.writeReg r w with reply := .ack }

/-- A host read of buffer bytes (20_memory R56): a hazard in the BUSY window (R286), a fault on an unwritten byte
(R75). In the window a read of an unwritten byte has both causes of 60_exceptions R258, and the model records the
hazard alone (DESIGN CHOICE, log 24). Of several unwritten bytes the fault names the lowest (DESIGN CHOICE, log 12). -/
def readBuffer (a : Addr) (size : Size) (s : State) : Result :=
  if s.win then .fault (.hazard a)
  else
    match s.mem.readBytes a.toNat size.bytes with
    | .error f => .fault f
    | .ok bs => .next { s with reply := .data (BitVec.ofNat 32 (littleEndian bs)) }

/-- A host write of buffer bytes (20_memory R57): a hazard in the BUSY window (R286). -/
def writeBuffer (a : Addr) (size : Size) (w : Word) (s : State) : Result :=
  if s.win then .fault (.hazard a)
  else .next { s with mem := s.mem.writeBytes a.toNat (wordBytes w size.bytes), reply := .ack }

/-- `MemRead(a, n)` (20_memory R54, R56, R58). -/
def hostRead (a : Addr) (size : Size) (s : State) : Result :=
  if busAccepts a.toNat size then
    if windowOf a.toNat = some .regs then readRegister a (regAt a.toNat) s else readBuffer a size s
  else .fault (.busError a)

/-- `MemWrite(a, n, w)` (20_memory R54, R57, R58). -/
def hostWrite (a : Addr) (size : Size) (w : Word) (s : State) : Result :=
  if busAccepts a.toNat size then
    if windowOf a.toNat = some .regs then writeRegister a (regAt a.toNat) w s else writeBuffer a size w s
  else .fault (.busError a)

/-! ### One host operation -/

/-- What the host gets back with a fault: the bus error response (20_memory R54), or data the spec does not state. -/
def replyOnFault : Fault → BusReply
  | .busError _ => .busError
  | .unwrittenRead _ => .unspecified
  | .hazard _ => .unspecified
  | .outOverrun _ => .unspecified

/-- Takes the host's next operation off the list; a core that is busy comes one access nearer to its step (log 1). -/
def State.hostTurn (s : State) (rest : List HostOp) : State :=
  { s with hostOps := rest, coreDelay := s.coreDelay - 1 }

/-- One host operation on a state whose list no longer holds it. A POLL whose read returns BUSY = 1, and a wait for an
interrupt output that is 0, stay the next operation. -/
def serveOp (op : HostOp) (s : State) : Result :=
  match op with
  | .read a size => hostRead a size s
  | .write a size w => hostWrite a size w s
  | .poll =>
    andThen (hostRead 0x00008 .word s) fun t =>
      .next (if s.status.busy then { t with hostOps := .poll :: t.hostOps } else t)
  | .waitIrq => .next (if s.irq then s else { s with hostOps := .waitIrq :: s.hostOps })
  | .reset => .next s.applyReset

/-- The host's turn: its next operation, or nothing when it has none (R272: all state survives in IDLE). A fault is
recorded and answered on the bus (60_exceptions R257, R258; 20_memory R54). -/
def hostStep (s : State) : Result :=
  match s.hostOps with
  | [] => .next s
  | op :: rest =>
    match serveOp op (s.hostTurn rest) with
    | .next t => .next t
    | .fault f => .next ({ s.hostTurn rest with reply := replyOnFault f }.recordFault f)
    | .refused r => .refused r

end Sys2Proof.Machine
end

