-- ==== Sys2Proof/Machine/Fetch.lean ====
section
/-! DEFINITION. Where the next instruction comes from: the accepted command word (40_control R112) or a token at the
port (log 3). -/

namespace Sys2Proof.Machine

/-- The core's step is enabled: BUSY, and its free delay is over or the host has nothing more to do (10_state R44,
70_reset R289, log 1). -/
def State.coreReady (s : State) : Bool := s.status.busy && (s.hostOps.isEmpty || decide (s.coreDelay = 0))

/-- Dispatch, the core's one step (40_control R112, 10_state R44): an illegal word completes with ILLEGAL_CMD (R114);
a legal one runs. -/
def coreStep (s : State) : Result :=
  match decodeCommand s.snap.cmd with
  | .error _ => raiseError .illegalCmd s
  | .ok i => exec i s

/-- The port emptied of its token. -/
def State.portTaken (s : State) : State := { s with port := [] }

/-- Runs the one token at the port (log 3). -/
def portStep (s : State) : Result :=
  match decodeOneToken s.port with
  | .error _ => .refused .malformedToken
  | .ok i => exec i s.portTaken

/-- Brings a command word to where the core's next step dispatches it: accepted now (40_control R111), no delay left,
nothing at the port, no fault recorded. -/
def State.loadCommand (s : State) (w : Word) : State :=
  { s.accept w with coreDelay := 0, port := [], faults := [] }

/-- Brings a token to the port, with no fault recorded. -/
def State.loadToken (s : State) (ns : List Nibble) : State := { s with port := ns, faults := [] }

end Sys2Proof.Machine
end

