-- ==== Sys2Proof/Machine/Step.lean ====
section
/-! DEFINITION. One step of the machine, and the state in which a given table word is its next instruction. -/

namespace Sys2Proof.Machine

/-- One step. A run with a recorded fault has no further state (60_exceptions R257, 93 "fault"). Otherwise a token at
the port is run, else the core takes its one step if it is due, else the host takes its turn (20_memory R66). -/
def step (s : State) : Host.Outcome State Fault Refusal :=
  match s.faults with
  | f :: _ => .fault f
  | [] =>
    if s.port ≠ [] then settle s (portStep s)
    else if s.coreReady then settle s (coreStep s)
    else hostStep s

/-- The state `s` with the instruction of a table word placed where the next step runs it: a command word accepted and
due, a token at the port. A word no code is read from leaves `s`. -/
def State.withFetchWord (s : State) (nbits w : Nat) : State :=
  match tableCode nbits w with
  | none => s
  | some (.command c) => s.loadCommand c
  | some (.token ns) => s.loadToken ns

end Sys2Proof.Machine
end

