-- ==== Sys2Proof/Machine/Reference.lean ====
section
/-! DEFINITION. The wire format as pure functions, beside the machine: the packed stream of an input (30_encoding R98,
R99), the bytes a token stands for (R88 to R92), the operand ranges of R95, and the reference decode (44 R206), which
is no NSE hardware. -/

namespace Sys2Proof.Machine

/-- Two nibbles a byte, first nibble high, an odd count padded by a zero nibble (30_encoding R98, R99). -/
def packNibbles : List Nibble → List Byte
  | [] => []
  | [h] => [joinNibbles h 0]
  | h :: l :: ns => joinNibbles h l :: packNibbles ns

/-- The bytes that the complete pairs of a nibble sequence make (44 R200). -/
def fullBytes : List Nibble → List Byte
  | [] => []
  | [_] => []
  | h :: l :: ns => joinNibbles h l :: fullBytes ns

/-- The nibble of a sequence that no second one has completed to a byte (44 R200, `HOLD` while `HALF = 1`). -/
def leftover : List Nibble → List Nibble
  | [] => []
  | [h] => [h]
  | _ :: _ :: ns => leftover ns

/-- The nibble the packer holds, none while `HALF = 0` (10_state R41). -/
def Encoder.pending (e : Encoder) : List Nibble := if e.half then [e.hold] else []

/-- The nibbles of a list of tokens, in emission order. -/
def streamNibbles (ts : List Instr) : List Nibble := ts.flatMap tokenNibbles

/-- The PackedStream of an input under a dictionary (30_encoding R98). -/
def packedStream (d x : List Byte) : List Byte := packNibbles (streamNibbles (tokenize d x))

/-- The nibbles of a byte sequence, `nib_at` (44 R206). -/
def nibblesOf (bytes : List Byte) : List Nibble := bytes.flatMap fieldNibbles

/-- The bytes a token stands for (30_encoding R88 to R92); none where `D[i]` is not defined (93 U9, log 17), and none
for a command. -/
def expandToken (d : List Byte) : Instr → Option (List Byte)
  | .nop => none
  | .pack => none
  | .encode => none
  | .dictRef i => (d[i.toNat]?).map fun v => [v]
  | .rawRun _ values => some values
  | .shortRunRepeat len i => (d[i.toNat]?).map fun v => List.replicate len.toNat v
  | .runRepeat len v => some (List.replicate len.toNat v)
  | .rawByte v => some [v]

/-- The loop of the reference decode (44 R206): tokens are read while `e` more bytes are wanted (R207), at most `fuel`
of them. A stream that ends before them, whose read past its end R206 leaves unspecified, has no decode (DESIGN CHOICE,
log 17). -/
def decodeNibbles (d : List Byte) : Nat → Nat → List Nibble → Option (List Byte)
  | _, 0, _ => some []
  | 0, _ + 1, _ => none
  | fuel + 1, e + 1, ns =>
    match decodeToken ns with
    | .error _ => none
    | .ok (t, rest) =>
      match expandToken d t with
      | none => none
      | some bs => (decodeNibbles d fuel (e + 1 - bs.length) rest).map (bs ++ ·)

/-- `decode(S, E, D)` (44 R206). A token has at least one nibble, so the fuel is enough for every stream. -/
def referenceDecode (stream : List Byte) (e : Nat) (d : List Byte) : Option (List Byte) :=
  decodeNibbles d (2 * stream.length) e (nibblesOf stream)

/-- The operand ranges of the tokens the encoder emits (30_encoding R95) under a dictionary. -/
def emittable (d : List Byte) : Instr → Bool
  | .nop => false
  | .pack => false
  | .encode => false
  | .dictRef i => decide (i.toNat < d.length)
  | .rawRun n values =>
    decide (3 ≤ n.toNat) && decide (n.toNat = values.length) && values.all fun v => !inDict d v
  | .shortRunRepeat len i => decide (4 ≤ len.toNat) && decide (i.toNat < d.length)
  | .runRepeat len v => decide (3 ≤ len.toNat) && !inDict d v
  | .rawByte v => !inDict d v

end Sys2Proof.Machine
end

