-- ==== Sys2Proof/Machine/HostSide.lean ====
section
/-! DEFINITION. The host-side functions of 48_host_side.md: no NSE hardware (R5, R220), and no step calls them. The
OPEN parameters of 00_scope R9 and R226 are arguments (log 13). -/

namespace Sys2Proof.Machine

/-- A sprite of the run: its source-file name, its class (R226), the one frame size of R236, and its frames' pixels,
row-major. -/
structure Sprite where
  name : List Char
  mask : Bool
  width : Byte
  height : Byte
  frames : List (List Byte)
  deriving DecidableEq, Repr

/-- Why the host's run has no output. The first three are the fatal errors of R235 that a modelled input can cause, and
they name the offending sprite. -/
inductive HostError
  /-- The NSE's SHAPE: a frame's pixel count is not WIDTH × HEIGHT. -/
  | shape (sprite : List Char)
  /-- Any other nonzero ERR_CODE, as STATUS gives it (R235). -/
  | command (sprite : List Char) (code : BitVec 4)
  /-- A directory offset of 2^15 or more (R232). -/
  | offsetOverflow (sprite : List Char)
  /-- The NSE's fault record is not empty: the run has no outcome (60_exceptions R257, R258). Safe. -/
  | nseFault (f : Fault)
  /-- A step of the NSE has no meaning; no access of the host causes it. Safe. -/
  | nseRefusal (r : Refusal)
  /-- A read was answered without data; no read without a recorded fault is. Safe. -/
  | noData
  deriving DecidableEq, Repr

/-! ### Phase 1: histogram and dictionary -/

/-- File names by code point, a shorter prefix first (R221). -/
def nameLe : List Char → List Char → Bool
  | [], _ => true
  | _ :: _, [] => false
  | c :: cs, e :: es => decide (c.toNat < e.toNat) || (decide (c = e) && nameLe cs es)

/-- Inserts a sprite in name order (R221). Sprites of one name, whose order R221 leaves open, keep their input order
(DESIGN CHOICE, log 23). -/
def insertSprite (p : Sprite) : List Sprite → List Sprite
  | [] => [p]
  | q :: qs => if nameLe q.name p.name then q :: insertSprite p qs else p :: q :: qs

/-- The visiting order of R221. -/
def visitOrder (sprites : List Sprite) : List Sprite := sprites.foldl (fun acc p => insertSprite p acc) []

/-- The foreground colour of a sprite (R226): FG_NORMAL and FG_MASK are OPEN. -/
def foreground (fgNormal fgMask : Byte) (p : Sprite) : Byte := if p.mask then fgMask else fgNormal

/-- The PackedColumn array of one frame, as a PACK gives it, or its SHAPE error (R222, R235). -/
def packFrame (fgNormal fgMask : Byte) (p : Sprite) (pixels : List Byte) : Except HostError (List Byte) :=
  if pixels.length ≠ p.width.toNat * p.height.toNat then .error (.shape p.name)
  else .ok (packColumns p.width.toNat p.height.toNat (foreground fgNormal fgMask p) pixels)

/-- The PackedColumn arrays of some frames of a sprite, in frame order. -/
def packFrames (fgNormal fgMask : Byte) (p : Sprite) : List (List Byte) → Except HostError (List (List Byte))
  | [] => .ok []
  | f :: fs =>
    match packFrame fgNormal fgMask p f, packFrames fgNormal fgMask p fs with
    | .ok a, .ok as => .ok (a :: as)
    | .error e, _ => .error e
    | .ok _, .error e => .error e

/-- Every sprite with its arrays, in the order given: the whole of phase 1's packing (R227). -/
def packSprites (fgNormal fgMask : Byte) : List Sprite → Except HostError (List (Sprite × List (List Byte)))
  | [] => .ok []
  | p :: ps =>
    match packFrames fgNormal fgMask p p.frames, packSprites fgNormal fgMask ps with
    | .ok a, .ok as => .ok ((p, a) :: as)
    | .error e, _ => .error e
    | .ok _, .error e => .error e

/-- The byte sequence the histogram counts, in the traversal order of R221. -/
def traversal (packed : List (Sprite × List (List Byte))) : List Byte := packed.flatMap fun q => q.2.flatten

/-- The distinct values of a sequence by their first occurrence (R223). -/
def firstEncounters : List Byte → List Byte
  | [] => []
  | v :: vs => v :: (firstEncounters vs).filter (· ≠ v)

/-- Inserts a value by descending count, after those of the same count (R223). -/
def insertByCount (count : Byte → Nat) (v : Byte) : List Byte → List Byte
  | [] => [v]
  | w :: ws => if count v ≤ count w then w :: insertByCount count v ws else v :: w :: ws

/-- The observed values by descending count, ties by first encounter (R223). -/
def byFrequency (xs : List Byte) : List Byte :=
  (firstEncounters xs).foldl (fun acc v => insertByCount (fun w => xs.count w) v acc) []

/-- The dictionary of a run (R223): the first `min(12, distinct)` values. It is also the dictionary array of the
output, of exactly that length (R234). -/
def buildDictionary (xs : List Byte) : List Byte := (byFrequency xs).take Config.dictMax

/-- The host accesses that load a dictionary from entry `k` on (R225). -/
def loadEntries (k : Nat) : List Byte → List HostOp
  | [] => []
  | v :: vs => .write (BitVec.ofNat 20 (0x40 + 4 * k)) .word (BitVec.ofNat 32 v.toNat) :: loadEntries (k + 1) vs

/-- The host accesses that load a dictionary: the entries, then DICT_CNT (R225). -/
def loadDictionary (d : List Byte) : List HostOp :=
  loadEntries 0 d ++ [.write 0x00024 .word (BitVec.ofNat 32 d.length)]

/-! ### Phase 2: payload choice and sprite record -/

/-- The payload of a frame and its flag (R228): the stream where it is strictly shorter, else the raw array. -/
def choosePayload (d x : List Byte) : Bool × List Byte :=
  if compressFlag (packedStream d x).length x.length then (true, packedStream d x) else (false, x)

/-- The offsets of payloads, the first at `base` (R231). -/
def offsetsFrom (base : Nat) : List (Bool × List Byte) → List Nat
  | [] => []
  | p :: ps => base :: offsetsFrom (base + p.2.length) ps

/-- Where the offsets of a sprite of `frames` frames start (R231, 90_conflicts C1). -/
def offsetBase (dir : Config.Directory) (frames : Nat) : Nat :=
  match dir.origin with
  | .blob => 0
  | .record => 2 + 2 * frames

/-- A directory entry: the flag at DIR_FLAG_BIT, the offset in the other 15 bits in order (R230). -/
def directoryEntry (dir : Config.Directory) (flag : Bool) (offset : Nat) : BitVec 16 :=
  BitVec.ofNat 16
    (offset % 2 ^ dir.flagBit.val + flag.toNat * 2 ^ dir.flagBit.val
      + offset / 2 ^ dir.flagBit.val * 2 ^ (dir.flagBit.val + 1))

/-- The two bytes of an entry in DIR_BYTE_ORDER (R230). -/
def entryBytes (dir : Config.Directory) (e : BitVec 16) : List Byte :=
  match dir.byteOrder with
  | .little => [e.extractLsb' 0 8, e.extractLsb' 8 8]
  | .big => [e.extractLsb' 8 8, e.extractLsb' 0 8]

/-- The directory bytes of payloads and their offsets, in frame order. -/
def directoryBytes (dir : Config.Directory) : List (Bool × List Byte) → List Nat → List Byte
  | p :: ps, o :: os => entryBytes dir (directoryEntry dir p.1 o) ++ directoryBytes dir ps os
  | _, _ => []

/-- The sprite record `[width][height][directory entries][payloads]` (R229), or the fatal error of R232. -/
def spriteRecord (dir : Config.Directory) (p : Sprite) (payloads : List (Bool × List Byte)) :
    Except HostError (List Byte) :=
  let offsets := offsetsFrom (offsetBase dir payloads.length) payloads
  if offsets.all fun o => decide (o < 2 ^ 15) then
    .ok (p.width :: p.height :: (directoryBytes dir payloads offsets ++ payloads.flatMap (·.2)))
  else .error (.offsetOverflow p.name)

/-- The records of packed sprites under a dictionary, each with its sprite's name. -/
def records (dir : Config.Directory) (d : List Byte) :
    List (Sprite × List (List Byte)) → Except HostError (List (List Char × List Byte))
  | [] => .ok []
  | q :: qs =>
    match spriteRecord dir q.1 (q.2.map (choosePayload d)), records dir d qs with
    | .ok r, .ok rs => .ok ((q.1.name, r) :: rs)
    | .error e, _ => .error e
    | .ok _, .error e => .error e

/-- The output of a whole run by the wire format alone: the dictionary array (R234) and the sprite records, or the first
fatal error (R235). Machine/HostRun.lean gives the run itself, on the NSE (R227). -/
def wireOutput (dir : Config.Directory) (fgNormal fgMask : Byte) (sprites : List Sprite) :
    Except HostError (List Byte × List (List Char × List Byte)) :=
  match packSprites fgNormal fgMask (visitOrder sprites) with
  | .error e => .error e
  | .ok packed =>
    match records dir (buildDictionary (traversal packed)) packed with
    | .error e => .error e
    | .ok rs => .ok (buildDictionary (traversal packed), rs)

end Sys2Proof.Machine
end

