-- ==== Sys2Proof/Machine/HostRun.lean ====
section
/-! DEFINITION. The host's run on the NSE (48_host_side R222, R225 to R228, R235): the accesses of phase 1 and phase 2 in
their order, each made by `step`, and what the host does with what it reads (log 26). -/

namespace Sys2Proof.Machine

/-! ### Accesses of a sequential host -/

/-- What the host goes on with after a step: a next state with an empty fault record (60_exceptions R258). -/
def goOn : Result → Except HostError State
  | .fault f => .error (.nseFault f)
  | .refused r => .error (.nseRefusal r)
  | .next t =>
    match t.faults with
    | f :: _ => .error (.nseFault f)
    | [] => .ok t

/-- One access of a sequential host: it is made, and a command that it starts completes before the next
access, the sequential execution every other one is equivalent to (20_memory R66). -/
def access (op : HostOp) (s : State) : Except HostError State :=
  match goOn (step { s with hostOps := [op] }) with
  | .error e => .error e
  | .ok t => if t.status.busy then goOn (step t) else .ok t

/-- Accesses in program order. -/
def accesses : List HostOp → State → Except HostError State
  | [], s => .ok s
  | op :: ops, s =>
    match access op s with
    | .error e => .error e
    | .ok t => accesses ops t

/-- A read, with its data. -/
def fetchWord (a : Addr) (size : Size) (s : State) : Except HostError (Word × State) :=
  match access (.read a size) s with
  | .error e => .error e
  | .ok t =>
    match t.reply with
    | .data w => .ok (w, t)
    | .none => .error .noData
    | .ack => .error .noData
    | .busError => .error .noData
    | .unspecified => .error .noData

/-- Reads of `n` consecutive buffer bytes. -/
def fetchBytes : Nat → Nat → State → Except HostError (List Byte × State)
  | _, 0, s => .ok ([], s)
  | a, n + 1, s =>
    match fetchWord (BitVec.ofNat 20 a) .byte s with
    | .error e => .error e
    | .ok (w, t) =>
      match fetchBytes (a + 1) n t with
      | .error e => .error e
      | .ok (bs, u) => .ok (w.extractLsb' 0 8 :: bs, u)

/-- Byte writes from an address up. -/
def writeAccesses (a : Nat) : List Byte → List HostOp
  | [] => []
  | b :: bs => .write (BitVec.ofNat 20 a) .byte (b.setWidth 32) :: writeAccesses (a + 1) bs

/-- Does something with each item in turn, on the state the one before left. -/
def eachInTurn {α β : Type} (f : α → State → Except HostError (β × State)) :
    List α → State → Except HostError (List β × State)
  | [], s => .ok ([], s)
  | x :: xs, s =>
    match f x s with
    | .error e => .error e
    | .ok (y, t) =>
      match eachInTurn f xs t with
      | .error e => .error e
      | .ok (ys, u) => .ok (y :: ys, u)

/-- The fatal error a nonzero ERR_CODE is to the run (R235). -/
def checkStatus (sprite : List Char) (status : Word) : Except HostError Unit :=
  if status.extractLsb' 4 4 = 0x0 then .ok ()
  else if status.extractLsb' 4 4 = 0x2 then .error (.shape sprite)
  else .error (.command sprite (status.extractLsb' 4 4))

/-! ### Phase 1 -/

/-- The pixels of a frame that PIX has room for; a frame of more is no frame of 255 by 255 pixels (R222, log 26). -/
def storedPixels (pixels : List Byte) : List Byte := pixels.take Config.pixSize

/-- The accesses of one PACK (70_reset R284, R226): geometry, colour, pixels, their number, the command, POLL. -/
def packAccesses (fg : Byte) (p : Sprite) (pixels : List Byte) : List HostOp :=
  .write 0x0000C .word (Geom.word ⟨p.width, p.height⟩) :: .write 0x00010 .word (fg.setWidth 32) ::
    (writeAccesses Config.pixBase (storedPixels pixels) ++
      [.write 0x00014 .word (BitVec.ofNat 32 (storedPixels pixels).length), .write 0x00004 .word 0x00000001, .poll])

/-- Packs one frame on the NSE and reads its PackedColumn array (R222). -/
def packOnNse (fg : Byte) (p : Sprite) (pixels : List Byte) (s : State) : Except HostError (List Byte × State) := do
  let s ← accesses (packAccesses fg p pixels) s
  let (status, s) ← fetchWord 0x00008 .word s
  checkStatus p.name status
  let (n, s) ← fetchWord 0x00018 .word s
  fetchBytes Config.colBase n.toNat s

/-- Packs one frame and keeps its pixels beside its array. -/
def packFrameOnNse (fg : Byte) (p : Sprite) (pixels : List Byte) (s : State) :
    Except HostError ((List Byte × List Byte) × State) := do
  let (x, s) ← packOnNse fg p pixels s
  .ok ((pixels, x), s)

/-- Packs the frames of one sprite in index order (R221). -/
def packSpriteOnNse (fgNormal fgMask : Byte) (p : Sprite) (s : State) :
    Except HostError ((Sprite × List (List Byte × List Byte)) × State) := do
  let (frames, s) ← eachInTurn (packFrameOnNse (foreground fgNormal fgMask p) p) p.frames s
  .ok ((p, frames), s)

/-- The sprites with their arrays alone, as the histogram counts them (R222). -/
def arraysOf (packed : List (Sprite × List (List Byte × List Byte))) : List (Sprite × List (List Byte)) :=
  packed.map fun q => (q.1, q.2.map Prod.snd)

/-! ### Phase 2 -/

/-- The accesses that put a saved PackedColumn array into COL and its length into COL_LEN (R227). -/
def columnAccesses (x : List Byte) : List HostOp :=
  writeAccesses Config.colBase x ++ [.write 0x00018 .word (BitVec.ofNat 32 x.length)]

/-- Runs ENCODE on the array in COL and reads the payload: OUT where STATUS.COMPRESS = 1, else COL (R228). -/
def encodeOnNse (p : Sprite) (s : State) : Except HostError ((Bool × List Byte) × State) := do
  let s ← accesses [.write 0x00004 .word 0x00000002, .poll] s
  let (status, s) ← fetchWord 0x00008 .word s
  checkStatus p.name status
  if status.getLsbD 2 then
    let (n, s) ← fetchWord 0x0001C .word s
    let (bytes, s) ← fetchBytes Config.outBase n.toNat s
    .ok ((true, bytes), s)
  else
    let (n, s) ← fetchWord 0x00018 .word s
    let (bytes, s) ← fetchBytes Config.colBase n.toNat s
    .ok ((false, bytes), s)

/-- Phase 2 of one frame: its array is packed again or written back, which R227 leaves to the host, then encoded. -/
def encodeFrameOnNse (again : Bool) (fg : Byte) (p : Sprite) (frame : List Byte × List Byte) (s : State) :
    Except HostError ((Bool × List Byte) × State) := do
  let s ← if again then (packOnNse fg p frame.1 s).map Prod.snd else accesses (columnAccesses frame.2) s
  encodeOnNse p s

/-- Phase 2 of one sprite: the payloads of its frames and its record (R228, R229). -/
def encodeSpriteOnNse (dir : Config.Directory) (fgNormal fgMask : Byte) (again : Bool)
    (q : Sprite × List (List Byte × List Byte)) (s : State) : Except HostError ((List Char × List Byte) × State) := do
  let (payloads, s) ← eachInTurn (encodeFrameOnNse again (foreground fgNormal fgMask q.1) q.1) q.2 s
  let record ← spriteRecord dir q.1 payloads
  .ok ((q.1.name, record), s)

/-! ### The run -/

/-- The host's run (R227): every frame of every sprite is packed and histogrammed, the dictionary is built and loaded
(R223, R225), and only then is a frame encoded. No access of phase 2 writes the dictionary. Phase 2 takes the sprites,
and lists their records, in phase 1's order, which no rule fixes (DESIGN CHOICE, log 26). It answers the output and the
NSE's state, or the error that ends the run (R235). -/
def hostRun (dir : Config.Directory) (fgNormal fgMask : Byte) (again : Bool) (sprites : List Sprite) (s : State) :
    Except HostError ((List Byte × List (List Char × List Byte)) × State) := do
  let (packed, s) ← eachInTurn (packSpriteOnNse fgNormal fgMask) (visitOrder sprites) s
  let d := buildDictionary (traversal (arraysOf packed))
  let s ← accesses (loadDictionary d) s
  let (rs, s) ← eachInTurn (encodeSpriteOnNse dir fgNormal fgMask again) packed s
  .ok ((d, rs), s)

end Sys2Proof.Machine
end

