-- ==== Sys2Proof/Safety.lean ====
section
/-! DEFINITION. The terms in which claims are made: a run's end (70_reset R290), a safe state, the invariant every step
keeps, and the relation between the states before and after an emission. -/

namespace Sys2Proof.Machine

/-- No fault is recorded: the premise of a claim about a host program (60_exceptions R258). -/
def State.clean (s : State) : Bool := s.faults.isEmpty

/-- The end of a host program (70_reset R290): no access left, BUSY = 0, an empty fault record. -/
def State.programEnd (s : State) : Bool := s.hostOps.isEmpty && !s.status.busy && s.clean

/-- The invariant of the NSE's registers and buffers, for every state a run can reach:
the memory is in its canonical form and lists buffer bytes only (10_state R38, 20_memory R53);
BUSY implies an open window, with DONE and ERR_CODE cleared (40_control R111, 10_state R45);
OUT_LEN is `ceil(NIB_COUNT / 2)` (10_state R29) and fits OUT (44 R205). -/
structure State.Inv (s : State) : Prop where
  mem : s.mem.wf
  busyWindow : s.status.busy = true → s.win = true
  busyDone : s.status.busy = true → s.status.done = false
  busyErr : s.status.busy = true → s.status.errCode = .none
  outLen : s.outLen.toNat = (s.nibCount.toNat + 1) / 2
  outFits : s.outLen.toNat ≤ Config.outSize

/-- A run of the input (43 R161): the maximal interval `[start, start + len)` of 2 or more bytes equal to `v`. -/
structure MaximalRun (x : List Byte) (start len : Nat) (v : Byte) : Prop where
  two : 2 ≤ len
  equal : ∀ j, j < len → x[start + j]? = some v
  left : start = 0 ∨ x[start - 1]? ≠ some v
  right : x[start + len]? ≠ some v

/-- The host addresses the bus takes with a size, read off the map (20_memory R51, R56, R58). -/
def mapTakes (a : Nat) (size : Size) : Prop :=
  (a < 0x100 ∧ size = .word ∧ a % 4 = 0) ∨
    (((0x10000 ≤ a ∧ a < 0x20000) ∨ (0x20000 ≤ a ∧ a < 0x22000) ∨ (0x30000 ≤ a ∧ a < 0x33000)) ∧
      a % size.bytes = 0)

/-- The bits of a register that a host write can set and a read returns (10_state R22 to R32). -/
def Reg.mask : Reg → Word
  | .ctrl => 0x00000001
  | .geom => 0x0000FFFF
  | .fg => 0x000000FF
  | .pixLen => 0xFFFFFFFF
  | .colLen => 0xFFFFFFFF
  | .dictCnt => 0x0000000F
  | .dict _ => 0x000000FF
  | .cmd => 0
  | .status => 0
  | .outLen => 0
  | .nibCount => 0
  | .reserved => 0

/-- The bus takes a 32-bit write of `w` at `a` on `s`, which makes `t`, and a 32-bit read there then returns `v` and changes
nothing. -/
structure WriteThenRead (s : State) (a : Addr) (w : Word) (t : State) (v : Word) : Prop where
  write : hostWrite a .word w s = .next { t with reply := .ack }
  read : hostRead a .word { t with reply := .ack } = .next { t with reply := .data v }

/-- The NSE is IDLE outside the BUSY window, nothing recorded, no token at the port: a host program may go on. -/
structure State.Quiet (s : State) : Prop where
  faults : s.faults = []
  port : s.port = []
  busy : s.status.busy = false
  window : s.win = false

/-- The step of `s` is the host's: nothing recorded, no token at the port, no core step due. -/
structure State.HostsTurn (s : State) : Prop where
  faults : s.faults = []
  port : s.port = []
  core : s.coreReady = false

/-- The step of `s` is the core's: nothing recorded, no token at the port, a command due. -/
structure State.CoresTurn (s : State) : Prop where
  faults : s.faults = []
  port : s.port = []
  core : s.coreReady = true

/-- `u` is `s` after the nibbles `ns` went to the token packer and `pos` advanced by `m` (44 R200, 43 R166 to R170):
the complete pairs, counting the nibble held before, are written from `OUT[ob]` up, the last odd nibble is held, and
nothing else changes. -/
structure Emits (ns : List Nibble) (m : Nat) (s u : State) : Prop where
  rest : u = { s with
    mem := s.mem.writeBytes (Config.outBase + s.enc.ob) (fullBytes (s.enc.pending ++ ns))
    enc := u.enc }
  seg : u.enc.seg = s.enc.seg
  pos : u.enc.pos = s.enc.pos + m
  nib : u.enc.nib = s.enc.nib + ns.length
  ob : u.enc.ob = s.enc.ob + (fullBytes (s.enc.pending ++ ns)).length
  pending : u.enc.pending = leftover (s.enc.pending ++ ns)

end Sys2Proof.Machine
end

