-- ==== Sys2Proof/Certificates/Slice0/Obligations.lean ====
section
/-! DEFINITION. The statements for the provers, one per entry of OBLIGATIONS.json. -/

open Sys2Proof Sys2Proof.Machine

/-! ### Encodings -/

/-- A word of each mnemonic, written out from 30_encoding R83 and R88 to R92, decodes to its instruction. -/
def Obligations.FamilyWordsDecode : Prop :=
  decode (.command 0x00000000) = .ok .nop ∧
  decode (.command 0x00000001) = .ok .pack ∧
  decode (.command 0x00000002) = .ok .encode ∧
  decode (.token [0x3]) = .ok (.dictRef 3) ∧
  decode (.token [0xF, 0x5, 0xA]) = .ok (.rawByte 0x5A) ∧
  decode (.token [0xE, 0x1, 0x5, 0x0, 0x2]) = .ok (.runRepeat 0x15 0x02) ∧
  decode (.token [0xD, 0x0, 0x6, 0xB]) = .ok (.shortRunRepeat 6 11) ∧
  decode (.token [0xC, 0x0, 0x3, 0x1, 0x2, 0x3, 0x4, 0x5, 0x6]) = .ok (.rawRun 3 [0x12, 0x34, 0x56])

/-- 30_encoding R83, R88 to R92: the decoder reads back every well-formed instruction from its encoding. -/
def Obligations.DecodeEncodeIsIdentity : Prop :=
  ∀ i : Instr, i.wellFormed = true → decode (encode i) = .ok i

/-- 30_encoding R88 to R94: what the token decoder reads is a well-formed token whose nibbles are the ones consumed, so
no two tokens share an encoding. -/
def Obligations.TokenDecodeConsumesItsNibbles : Prop :=
  ∀ (ns rest : List Nibble) (t : Instr), decodeToken ns = .ok (t, rest) →
    t.isToken = true ∧ t.wellFormed = true ∧ ns = tokenNibbles t ++ rest

/-- 30_encoding R94: the selector, and for 0xC the two nibbles after it, decide how many nibbles the token has. -/
def Obligations.TokenLengthBySelector : Prop :=
  ∀ (s : Nibble) (ns rest : List Nibble) (t : Instr), decodeToken (s :: ns) = .ok (t, rest) →
    (s.toNat ≤ 0xB → (s :: ns).length = rest.length + 1) ∧
    (s = 0xF → (s :: ns).length = rest.length + 3) ∧
    (s = 0xD → (s :: ns).length = rest.length + 4) ∧
    (s = 0xE → (s :: ns).length = rest.length + 5) ∧
    (s = 0xC → ∃ h l tl, ns = h :: l :: tl ∧
      (s :: ns).length = rest.length + (3 + 2 * (16 * h.toNat + l.toNat)))

/-- 30_encoding R82: a command word with a nonzero bit in 31:4 is illegal whatever its OP; with R83 the legal words are
the three of the table. -/
def Obligations.ReservedBitsMakeWordsIllegal : Prop :=
  (∀ w : Word, w.extractLsb' 4 28 ≠ 0 → ∃ e, decodeCommand w = .error e) ∧
  ∀ (w : Word) (i : Instr), decodeCommand w = .ok i → i.isToken = false ∧ encode i = .command w

/-! ### Reset -/

/-- 70_reset R281: what the host reads after reset, the masked interrupt and the empty, valid dictionary. -/
def Obligations.ResetRegisterValues : Prop :=
  (∀ r : Reg, State.reset.readReg r = 0) ∧ State.reset.irq = false ∧
  ∀ w : Word, (State.reset.capture w).dictionary = [] ∧ (State.reset.capture w).dictValid = true

/-- 70_reset R282: after reset no byte of PIX, COL or OUT is written, and a PACK or an ENCODE succeeds and writes
none. -/
def Obligations.CommandsRightAfterReset : Prop :=
  (∀ a, State.reset.mem.read a = none) ∧
  ∀ (i : Instr) (w : Word), (i = .pack ∧ w = 1) ∨ (i = .encode ∧ w = 2) →
    ∃ t, exec i (State.reset.accept w) = .next t ∧ t.status.errCode = .none ∧ t.status.done = true ∧
      t.mem = [] ∧ t.colLen = 0 ∧ t.outLen = 0 ∧ t.nibCount = 0

/-- 70_reset R280, R282, R283: the reset input, whenever the host's turn asserts it, BUSY or not, leaves every register
0, no window, no fault, no written byte and no interrupt. That the host's list asserts it is the model's choice (log 27).
That every written mark is cleared whether BUSY or not and that the list stays are the model's (log 9); that the
discarded internal state then holds `Encoder.initial` is its choice (log 11). -/
def Obligations.ResetInputClearsTheMachine : Prop :=
  ∀ (s : State) (rest : List HostOp), s.HostsTurn → s.hostOps = .reset :: rest →
    ∃ t, step s = .next t ∧ (∀ r : Reg, t.readReg r = 0) ∧ t.irq = false ∧ t.win = false ∧ t.faults = [] ∧
      (∀ a, t.mem.read a = none) ∧ t.enc = Encoder.initial ∧ t.hostOps = rest

/-! ### One step -/

/-- 40_control R112: at the core's turn a step runs the instruction its accepted word decodes to; a fault of that run is
recorded (60_exceptions R258). -/
def Obligations.StepRunsAcceptedCommand : Prop :=
  ∀ (s : State) (i : Instr), s.CoresTurn → decodeCommand s.snap.cmd = .ok i → step s = settle s (exec i s)

/-- A step with a token at the port runs that token on the state with the port emptied (log 3). -/
def Obligations.StepRunsPortToken : Prop :=
  ∀ (s : State) (i : Instr), s.faults = [] → i.isToken = true → i.wellFormed = true → s.port = tokenNibbles i →
    step s = settle s (exec i { s with port := [] })

/-- 40_control R114: an illegal word completes with ILLEGAL_CMD and changes nothing else. -/
def Obligations.IllegalCommandCompletes : Prop :=
  ∀ s : State, s.CoresTurn → (s.snap.cmd.extractLsb' 4 28 ≠ 0 ∨ 3 ≤ (s.snap.cmd.extractLsb' 0 4).toNat) →
    step s = .next { s with status := { s.status with done := true, errCode := .illegalCmd, busy := false } }

/-- 60_exceptions R257: a run with a recorded fault has no further state. R257 says that the faulted run is never a final
state; that the step answers the record's first fault, and no next state, is the model's reading (log 6). -/
def Obligations.FaultedRunStops : Prop :=
  ∀ (s : State) (f : Fault) (fs : List Fault), s.faults = f :: fs → step s = .fault f

/-- 10_state R45: no step clears the fault record. That a step adds at most one fault is the model's: one fault and not one
a byte for an access or a command (log 12), the hazard alone for a read that is unwritten too (log 24). -/
def Obligations.FaultRecordOnlyGrows : Prop :=
  ∀ s t : State, step s = .next t → ∃ l : List Fault, t.faults = s.faults ++ l ∧ l.length ≤ 1

/-- 60_exceptions R272: an idle NSE with no host access pending keeps all its state. -/
def Obligations.IdleKeepsState : Prop :=
  ∀ s : State, s.HostsTurn → s.hostOps = [] → step s = .next s

/-- 70_reset R289: the core's step is always reached. A host that polls finds it due after at most the command's free
delay (the model's schedule, log 1), with the accepted command and the buffers as they were. -/
def Obligations.PollingReachesTheCoreStep : Prop :=
  ∀ (s : State) (rest : List HostOp), s.faults = [] → s.port = [] → s.status.busy = true →
    s.hostOps = .poll :: rest →
    ∃ t, Sys2Proof.core.run s.coreDelay s = .next t ∧ t.CoresTurn ∧ t.snap = s.snap ∧ t.mem = s.mem ∧
      t.status = s.status ∧ t.win = s.win ∧ t.hostOps = s.hostOps

/-! ### NOP -/

/-- 40_control R113: NOP completes without error and changes nothing else. -/
def Obligations.NopOnlyCompletes : Prop :=
  ∀ s : State, exec .nop s =
    .next { s with status := { s.status with busy := false, done := true, errCode := .none } }

/-! ### PACK -/

/-- 41 R131: a PIX_LEN other than WIDTH × HEIGHT ends PACK with SHAPE, whatever the buffers hold. -/
def Obligations.PackShapeError : Prop :=
  ∀ s : State, s.snap.pixLen.toNat ≠ s.snap.geom.width.toNat * s.snap.geom.height.toNat →
    exec .pack s = .next { s with status := { s.status with busy := false, done := true, errCode := .shape } }

/-- 41 R133, R134, R135: PACK with a matching shape and written pixels completes. Byte `b*width + w` has bit `h` set
iff row `8b + h` is in the frame and the pixel there is FG; COL_LEN is WIDTH × ceil(HEIGHT / 8), at most 8160; nothing
else changes. -/
def Obligations.PackWritesColumns : Prop :=
  ∀ s : State,
    s.snap.pixLen.toNat = s.snap.geom.width.toNat * s.snap.geom.height.toNat →
    (∀ k, k < s.snap.geom.width.toNat * s.snap.geom.height.toNat →
      (s.mem.read (Config.pixBase + k)).isSome = true) →
    ∃ t, exec .pack s = .next t ∧
      t.colLen.toNat = s.snap.geom.width.toNat * ((s.snap.geom.height.toNat + 7) / 8) ∧
      t.colLen.toNat ≤ 8160 ∧
      (∀ b w, b < (s.snap.geom.height.toNat + 7) / 8 → w < s.snap.geom.width.toNat →
        ∃ v, t.mem.read (Config.colBase + (b * s.snap.geom.width.toNat + w)) = some v ∧
          ∀ h, h < 8 →
            (v.getLsbD h = true ↔
              8 * b + h < s.snap.geom.height.toNat ∧
              s.mem.read (Config.pixBase + ((8 * b + h) * s.snap.geom.width.toNat + w)) = some s.snap.fg)) ∧
      (∀ a, a < Config.colBase ∨ Config.colBase + t.colLen.toNat ≤ a → t.mem.read a = s.mem.read a) ∧
      t = { s with
        mem := t.mem
        colLen := t.colLen
        status := { s.status with busy := false, done := true, errCode := .none } }

/-- 41 R138: what a successful PACK leaves in COL and COL_LEN depends on WIDTH, HEIGHT, FG.COLOR and the pixels read
alone. -/
def Obligations.PackDependsOnlyOnItsOperands : Prop :=
  ∀ s s' t t' : State, s.snap.geom = s'.snap.geom → s.snap.fg = s'.snap.fg →
    (∀ k, k < s.snap.geom.width.toNat * s.snap.geom.height.toNat →
      s.mem.read (Config.pixBase + k) = s'.mem.read (Config.pixBase + k)) →
    exec .pack s = .next t → exec .pack s' = .next t' →
    t.status.errCode = .none → t'.status.errCode = .none →
    t.colLen = t'.colLen ∧
      ∀ k, k < t.colLen.toNat → t.mem.read (Config.colBase + k) = t'.mem.read (Config.colBase + k)

/-- 20_memory R75, 60_exceptions R259: after their checks pass, PACK and ENCODE stop on an unwritten input byte, and the
fault names one of them. -/
def Obligations.UnwrittenInputFaults : Prop :=
  (∀ s : State, s.snap.pixLen.toNat = s.snap.geom.width.toNat * s.snap.geom.height.toNat →
    (∃ k, k < s.snap.geom.width.toNat * s.snap.geom.height.toNat ∧ s.mem.read (Config.pixBase + k) = none) →
    ∃ k, k < s.snap.geom.width.toNat * s.snap.geom.height.toNat ∧ s.mem.read (Config.pixBase + k) = none ∧
      exec .pack s = .fault (.unwrittenRead (Config.pixBase + k))) ∧
  (∀ s : State, s.snap.colLen.toNat ≤ 8192 → s.snap.dictValid = true →
    (∃ k, k < s.snap.colLen.toNat ∧ s.mem.read (Config.colBase + k) = none) →
    ∃ k, k < s.snap.colLen.toNat ∧ s.mem.read (Config.colBase + k) = none ∧
      exec .encode s = .fault (.unwrittenRead (Config.colBase + k)))

/-! ### The dictionary -/

/-- 42 R147: the lookup finds the first entry below COUNT that equals the byte, and none where there is none; `in_dict`
says which. In a valid dictionary at most one entry matches. -/
def Obligations.LookupFindsFirstEntry : Prop :=
  ∀ (p : Snapshot) (v : Byte),
    (∀ k, dictIndex p.dictionary v = some k ↔
      k < p.dictCnt.toNat ∧ p.dict[k]? = some v ∧ ∀ j, j < k → p.dict[j]? ≠ some v) ∧
    (dictIndex p.dictionary v = none ↔ ∀ k, k < p.dictCnt.toNat → p.dict[k]? ≠ some v) ∧
    (inDict p.dictionary v = true ↔ dictIndex p.dictionary v ≠ none) ∧
    (p.dictValid = true → ∀ j k, j < p.dictCnt.toNat → k < p.dictCnt.toNat →
      p.dict[j]? = some v → p.dict[k]? = some v → j = k)

/-- 42 R148: with a valid dictionary the twelve comparators have at most one hit, the hit is the lookup's index, and
their OR is `in_dict`. -/
def Obligations.ComparatorsAgreeWithLookup : Prop :=
  ∀ (p : Snapshot) (v : Byte), p.dictValid = true →
    (∀ k : Fin 12, p.hit v k = true ↔ dictIndex p.dictionary v = some k.val) ∧
    (∀ j k : Fin 12, p.hit v j = true → p.hit v k = true → j = k) ∧
    (inDict p.dictionary v = true ↔ ∃ k : Fin 12, p.hit v k = true)

/-- 43 R173: ENCODE checks the length first, then the dictionary (count above 12, or two equal entries), before any
read of COL: the error changes three STATUS fields and nothing else. -/
def Obligations.EncodeChecksInOrder : Prop :=
  (∀ s : State, 8192 < s.snap.colLen.toNat →
    exec .encode s = .next { s with status := { s.status with busy := false, done := true, errCode := .len } }) ∧
  (∀ s : State, s.snap.colLen.toNat ≤ 8192 →
    (12 < s.snap.dictCnt.toNat ∨
      ∃ i j : Nat, ∃ v : Byte, i < j ∧ j < s.snap.dictCnt.toNat ∧ s.snap.dict[i]? = some v ∧
        s.snap.dict[j]? = some v) →
    exec .encode s = .next { s with status := { s.status with busy := false, done := true, errCode := .dict } })

/-! ### Runs, segments and the priority rules -/

/-- 43 R161: the segments are exactly the pieces of 2 to 255 bytes that cutting the maximal runs every 255 bytes
gives. -/
def Obligations.SegmentsAreCutRuns : Prop :=
  ∀ (x : List Byte) (g : Segment), g ∈ segments x ↔
    ∃ start len k, MaximalRun x start len g.value ∧ 255 * k < len ∧ g.start = start + 255 * k ∧
      g.len = min 255 (len - 255 * k) ∧ 2 ≤ g.len

/-- 43 R165, with the conditions of R163 and R164: the first matching rule decides the token at every position. -/
def Obligations.FirstMatchingRuleDecides : Prop :=
  ∀ (d x : List Byte) (pos : Nat) (v : Byte), x[pos]? = some v →
    ∃ t, chooseToken d x (segments x) pos = some t ∧
      (∀ g ∈ segments x, g.start = pos → g.value ∉ d → 3 ≤ g.len → t = .runRepeat (countField g.len) g.value) ∧
      (∀ g ∈ segments x, g.start = pos → g.value ∈ d → 4 ≤ g.len →
        ∃ k, dictIndex d g.value = some k ∧ t = .shortRunRepeat (countField g.len) (indexNibble k)) ∧
      ((∀ g ∈ segments x, g.start = pos → ¬(g.value ∉ d ∧ 3 ≤ g.len) ∧ ¬(g.value ∈ d ∧ 4 ≤ g.len)) →
        (2 < span d x (segments x) pos →
          t = .rawRun (countField (span d x (segments x) pos))
            ((x.drop pos).take (span d x (segments x) pos))) ∧
        (span d x (segments x) pos ≤ 2 →
          (∀ k, dictIndex d v = some k → t = .dictRef (indexNibble k)) ∧ (v ∉ d → t = .rawByte v)))

/-- 43 R168: the raw span is the longest stretch, of at most 255 bytes, that holds no dictionary byte and meets no
start of a qualifying rule-a segment. -/
def Obligations.RawSpanIsLongest : Prop :=
  ∀ (d x : List Byte) (p : Nat),
    span d x (segments x) p ≤ 255 ∧
    (∀ k, k < span d x (segments x) p →
      (∃ v, x[p + k]? = some v ∧ v ∉ d) ∧
      ∀ g ∈ segments x, g.start = p + k → ¬(g.value ∉ d ∧ 3 ≤ g.len)) ∧
    (span d x (segments x) p = 255 ∨
      x[p + span d x (segments x) p]? = none ∨
      (∃ v, x[p + span d x (segments x) p]? = some v ∧ v ∈ d) ∨
      ∃ g ∈ segments x, g.start = p + span d x (segments x) p ∧ g.value ∉ d ∧ 3 ≤ g.len)

/-- 30_encoding R95: every token the encoder emits has its operands in the table's ranges, and is well-formed. -/
def Obligations.EmittedTokensAreInRange : Prop :=
  ∀ (d x : List Byte) (t : Instr), d.length ≤ 12 → t ∈ tokenize d x →
    t.wellFormed = true ∧
    ((∃ i : Nibble, t = .dictRef i ∧ i.toNat < d.length) ∨
     (∃ v : Byte, t = .rawByte v ∧ v ∉ d) ∨
     (∃ len v : Byte, t = .runRepeat len v ∧ 3 ≤ len.toNat ∧ v ∉ d) ∨
     (∃ (len : Byte) (i : Nibble), t = .shortRunRepeat len i ∧ 4 ≤ len.toNat ∧ i.toNat < d.length) ∨
     (∃ (n : Byte) (vs : List Byte), t = .rawRun n vs ∧ 3 ≤ n.toNat ∧ ∀ v ∈ vs, v ∉ d))

/-- 43 R171: every token advances `pos` by 1 to 255, there are at most N tokens, and together they end at N exactly. -/
def Obligations.PositionEndsAtInputLength : Prop :=
  ∀ d x : List Byte,
    ((tokenize d x).map Instr.count).sum = x.length ∧ (tokenize d x).length ≤ x.length ∧
    ∀ t ∈ tokenize d x, 1 ≤ t.count ∧ t.count ≤ 255

/-- 43 R175: the position takes the value of every qualifying segment start, and the segment is emitted there as one
token. -/
def Obligations.QualifyingSegmentIsOneToken : Prop :=
  ∀ (d x : List Byte) (g : Segment), g ∈ segments x →
    (g.value ∉ d → 3 ≤ g.len →
      ∃ pre post, tokenize d x = pre ++ .runRepeat (countField g.len) g.value :: post ∧
        (pre.map Instr.count).sum = g.start) ∧
    (g.value ∈ d → 4 ≤ g.len →
      ∃ pre post k, dictIndex d g.value = some k ∧
        tokenize d x = pre ++ .shortRunRepeat (countField g.len) (indexNibble k) :: post ∧
        (pre.map Instr.count).sum = g.start)

/-- 44 R205, with the bound on the nibbles it comes from: the stream of an input fits `ceil(3N / 2)` bytes, so one of a
packed frame has at most 12240 bytes and every one fits OUT. -/
def Obligations.StreamFitsOut : Prop :=
  ∀ d x : List Byte,
    (streamNibbles (tokenize d x)).length ≤ 3 * x.length ∧
    (packedStream d x).length ≤ (3 * x.length + 1) / 2 ∧
    (x.length ≤ 8160 → (packedStream d x).length ≤ 12240) ∧
    (x.length ≤ 8192 → (packedStream d x).length ≤ Config.outSize)

/-! ### Tokens and the packer -/

/-- 43 R166 to R170: each token kind, where its bytes fit OUT, completes: it hands exactly its nibbles, in order, to the
packer and advances `pos` by the bytes it stands for. -/
def Obligations.TokensEmitTheirNibbles : Prop :=
  ∀ s : State,
    (∀ i : Nibble, s.enc.ob + (s.enc.half.toNat + 1) / 2 ≤ Config.outSize →
      ∃ u, exec (.dictRef i) s = .next u ∧ Emits [i] 1 s u) ∧
    (∀ v : Byte, s.enc.ob + (s.enc.half.toNat + 3) / 2 ≤ Config.outSize →
      ∃ u, exec (.rawByte v) s = .next u ∧ Emits [0xF, hiNibble v, loNibble v] 1 s u) ∧
    (∀ len v : Byte, s.enc.ob + (s.enc.half.toNat + 5) / 2 ≤ Config.outSize →
      ∃ u, exec (.runRepeat len v) s = .next u ∧
        Emits [0xE, hiNibble len, loNibble len, hiNibble v, loNibble v] len.toNat s u) ∧
    (∀ (len : Byte) (i : Nibble), s.enc.ob + (s.enc.half.toNat + 4) / 2 ≤ Config.outSize →
      ∃ u, exec (.shortRunRepeat len i) s = .next u ∧
        Emits [0xD, hiNibble len, loNibble len, i] len.toNat s u) ∧
    (∀ (n : Byte) (vs : List Byte),
      s.enc.ob + (s.enc.half.toNat + (3 + 2 * vs.length)) / 2 ≤ Config.outSize →
      ∃ u, exec (.rawRun n vs) s = .next u ∧
        Emits (0xC :: hiNibble n :: loNibble n :: vs.flatMap fun v => [hiNibble v, loNibble v]) n.toNat s u)

/-- The frame of the five token kinds: every register, the dictionary, the snapshot and the model's fields stay, and
every byte of memory outside the `OUT` bytes completed. -/
def Obligations.TokensChangeOnlyTheirBytes : Prop :=
  ∀ (i : Instr) (s u : State), i.isToken = true → exec i s = .next u →
    u = { s with mem := u.mem, enc := u.enc } ∧ u.enc.seg = s.enc.seg ∧
    ∀ a, a < Config.outBase + s.enc.ob ∨
        Config.outBase + s.enc.ob + (s.enc.half.toNat + (tokenNibbles i).length) / 2 ≤ a →
      u.mem.read a = s.mem.read a

/-- 30_encoding R98 and the padding of R99: nibble 2k is the high half of byte k and nibble 2k + 1 its low half, in
`ceil(n / 2)` bytes; an odd count is padded by one zero nibble. -/
def Obligations.PackedBytesHoldTheNibbles : Prop :=
  ∀ ns : List Nibble,
    (packNibbles ns).length = (ns.length + 1) / 2 ∧
    nibblesOf (packNibbles ns) = ns ++ (if ns.length % 2 = 1 then [0] else [])

/-! ### ENCODE -/

/-- 43 R172, R179, 44 R209: ENCODE with a valid dictionary and written input completes; the stream of R98 stands at
OUT[0] up, OUT_LEN, NIB_COUNT and COMPRESS describe it, and nothing else that the host can see changes. -/
def Obligations.EncodeWritesThePackedStream : Prop :=
  ∀ (s : State) (x : List Byte), s.snap.colLen.toNat ≤ 8192 → s.snap.dictValid = true → x.length = s.snap.colLen.toNat →
    (∀ k, k < x.length → s.mem.read (Config.colBase + k) = x[k]?) →
    ∃ t, exec .encode s = .next t ∧
      (∀ k, k < (packedStream s.snap.dictionary x).length →
        t.mem.read (Config.outBase + k) = (packedStream s.snap.dictionary x)[k]?) ∧
      t.outLen.toNat = (packedStream s.snap.dictionary x).length ∧
      t.nibCount.toNat = (streamNibbles (tokenize s.snap.dictionary x)).length ∧
      t.status = { s.status with
        busy := false, done := true, errCode := .none
        compress := decide ((packedStream s.snap.dictionary x).length < x.length) } ∧
      (∀ a, a < Config.outBase ∨ Config.outBase + (packedStream s.snap.dictionary x).length ≤ a →
        t.mem.read a = s.mem.read a) ∧
      t = { s with
        mem := t.mem, outLen := t.outLen, nibCount := t.nibCount, status := t.status, enc := t.enc }

/-- 44 R202, R204: after a successful ENCODE, OUT_LEN is `ceil(NIB_COUNT / 2)` and COMPRESS is 1 exactly when OUT_LEN
is less than COL_LEN. -/
def Obligations.EncodeResultRegisters : Prop :=
  ∀ s t : State, exec .encode s = .next t → t.status.errCode = .none →
    t.outLen.toNat = (t.nibCount.toNat + 1) / 2 ∧
    t.status.compress = decide (t.outLen.toNat < s.snap.colLen.toNat)

/-- 44 R208: after a successful ENCODE of at most 8192 bytes, the reference decode of `OUT[0..OUT_LEN-1]` gives back
the input. -/
def Obligations.EncodeRoundTrip : Prop :=
  ∀ s t : State, exec .encode s = .next t → t.status.errCode = .none →
    s.snap.colLen.toNat ≤ 8192 ∧
    ∃ x stream, s.mem.readBytes Config.colBase s.snap.colLen.toNat = .ok x ∧
      t.mem.readBytes Config.outBase t.outLen.toNat = .ok stream ∧
      referenceDecode stream s.snap.colLen.toNat s.snap.dictionary = some x

/-! ### What commands read, and how they end -/

/-- 20_memory R70, 40_control R111: no instruction reads the live operand registers or CTRL. A change of them after the
acceptance passes through unchanged, COL_LEN too; only PACK's success, which writes COL_LEN, leaves there the value it
would leave without the change. -/
def Obligations.InstructionsReadOnlyTheSnapshot : Prop :=
  ∀ (i : Instr) (s t : State) (c : Ctrl) (g : Geom) (f : Byte) (n l : Word) (k : BitVec 4) (d : DictRegs),
    exec i s = .next t →
    (i ≠ .pack ∨ t.status.errCode ≠ .none →
      exec i { s with ctrl := c, geom := g, fg := f, pixLen := n, colLen := l, dictCnt := k, dict := d } =
        .next { t with ctrl := c, geom := g, fg := f, pixLen := n, colLen := l, dictCnt := k, dict := d }) ∧
    (i = .pack → t.status.errCode = .none →
      exec i { s with ctrl := c, geom := g, fg := f, pixLen := n, colLen := l, dictCnt := k, dict := d } =
        .next { t with ctrl := c, geom := g, fg := f, pixLen := n, dictCnt := k, dict := d })

/-- 40_control R116: every completion of a command, with or without error, sets DONE, and so the interrupt output is
CTRL.IRQ_EN. -/
def Obligations.EveryCompletionSetsDone : Prop :=
  ∀ s t : State, coreStep s = .next t →
    t.status.done = true ∧ t.status.busy = false ∧ t.irq = s.ctrl.irqEn

/-- 60_exceptions R261: after an error the NSE is as it was before the acceptance but for BUSY, DONE and ERR_CODE (the
snapshot, the window flag and the model's schedule belong to the acceptance). -/
def Obligations.ErrorsArePrecise : Prop :=
  ∀ (s t : State) (w : Word), coreStep (s.accept w) = .next t → t.status.errCode ≠ .none →
    t = { s with
      status := { s.status with busy := false, done := true, errCode := t.status.errCode }
      snap := s.capture w
      win := true
      coreDelay := Config.commandDelay s.accepted
      accepted := s.accepted + 1 }

/-! ### The host's side of the bus -/

/-- 20_memory R51, R54, R58, R60: the bus takes exactly the accesses of the map; any other is a bus error, read or write.
That a malformed access made in the BUSY window is a bus error and no hazard is the model's choice (log 7). -/
def Obligations.BusErrorsAreTheMalformedAccesses : Prop :=
  ∀ (a : Addr) (size : Size) (w : Word) (s : State),
    (hostRead a size s = .fault (.busError a) ↔ ¬mapTakes a.toNat size) ∧
    (hostWrite a size w s = .fault (.busError a) ↔ ¬mapTakes a.toNat size)

/-- 20_memory R55: a bus error is answered on the bus alone: no STATUS bit, no interrupt, no register and no byte
changes; the model records it and the host's access is over. That the record holds a bus error in the BUSY window too is
the model's choice (log 7), and so is the count of the core's free delay (log 1). -/
def Obligations.BusErrorIsAnsweredOnTheBusAlone : Prop :=
  ∀ (s : State) (a : Addr) (size : Size) (w : Word) (rest : List HostOp), s.HostsTurn → ¬mapTakes a.toNat size →
    s.hostOps = .read a size :: rest ∨ s.hostOps = .write a size w :: rest →
    step s = .next { s with
      hostOps := rest, coreDelay := s.coreDelay - 1, reply := .busError, faults := [.busError a] }

/-- 10_state R21 to R32, 20_memory R52, R58: a writable register reads back the written bits of its fields and 0
elsewhere. Outside the window a host write at each offset of R21 sets its register's field and nothing else, and a host
read there then returns it; the read-only OUT_LEN and NIB_COUNT are read at 0x1C and 0x20, and CMD reads 0. -/
def Obligations.WritableFieldsReadBack : Prop :=
  ∀ (s : State) (w : Word),
    (∀ r : Reg, r.mask ≠ 0 → (s.writeReg r w).readReg r = w &&& r.mask) ∧
    (s.win = false →
      WriteThenRead s 0x00000 w { s with ctrl := ⟨w.getLsbD 0⟩ } (w &&& 0x00000001) ∧
      WriteThenRead s 0x0000C w { s with geom := ⟨w.extractLsb' 0 8, w.extractLsb' 8 8⟩ } (w &&& 0x0000FFFF) ∧
      WriteThenRead s 0x00010 w { s with fg := w.extractLsb' 0 8 } (w &&& 0x000000FF) ∧
      WriteThenRead s 0x00014 w { s with pixLen := w } w ∧
      WriteThenRead s 0x00018 w { s with colLen := w } w ∧
      WriteThenRead s 0x00024 w { s with dictCnt := w.extractLsb' 0 4 } (w &&& 0x0000000F) ∧
      (∀ k : Fin 12, WriteThenRead s (BitVec.ofNat 20 (0x40 + 4 * k.val)) w
        { s with dict := s.dict.set k (w.extractLsb' 0 8) } (w &&& 0x000000FF)) ∧
      hostRead 0x0001C .word s = .next { s with reply := .data s.outLen } ∧
      hostRead 0x00020 .word s = .next { s with reply := .data s.nibCount } ∧
      hostRead 0x00004 .word s = .next { s with reply := .data 0 })

/-- 10_state R21 to R33: a write of a register other than CMD changes no other register, no byte and no other state. -/
def Obligations.RegisterWriteFrame : Prop :=
  ∀ (s : State) (r r' : Reg) (w : Word), r ≠ .cmd → r' ≠ r →
    (s.writeReg r w).readReg r' = s.readReg r' ∧
    (s.writeReg r w).mem = s.mem ∧ (s.writeReg r w).snap = s.snap ∧ (s.writeReg r w).enc = s.enc ∧
    (s.writeReg r w).win = s.win ∧ (s.writeReg r w).faults = s.faults ∧ (s.writeReg r w).port = s.port ∧
    (s.writeReg r w).hostOps = s.hostOps ∧ (s.writeReg r w).reply = s.reply ∧
    (s.writeReg r w).coreDelay = s.coreDelay ∧ (s.writeReg r w).accepted = s.accepted

/-- 10_state R33: outside the window, a host write of a read-only register or of a reserved offset is taken and changes
nothing, and a reserved offset reads 0. -/
def Obligations.ReadOnlyAndReservedIgnoreWrites : Prop :=
  ∀ (s : State) (a : Addr) (w : Word), s.win = false → a.toNat % 4 = 0 →
    (a = 0x0001C ∨ a = 0x00020 ∨ (0x28 ≤ a.toNat ∧ a.toNat ≤ 0x3C) ∨ (0x70 ≤ a.toNat ∧ a.toNat ≤ 0xFC)) →
    hostWrite a .word w s = .next { s with reply := .ack } ∧
    ((0x28 ≤ a.toNat ∧ a.toNat ≤ 0x3C) ∨ (0x70 ≤ a.toNat ∧ a.toNat ≤ 0xFC) →
      hostRead a .word s = .next { s with reply := .data 0 })

/-- 20_memory R57: outside the window a buffer write stores byte `i` of the data at `a + i`, the lowest first, and
changes nothing else. -/
def Obligations.BufferWriteIsLittleEndian : Prop :=
  ∀ (s : State) (a : Addr) (size : Size) (w : Word), s.win = false → mapTakes a.toNat size → 0x100 ≤ a.toNat →
    ∃ t, hostWrite a size w s = .next t ∧
      (∀ k, k < size.bytes → t.mem.read (a.toNat + k) = some (w.extractLsb' (8 * k) 8)) ∧
      (∀ c, c < a.toNat ∨ a.toNat + size.bytes ≤ c → t.mem.read c = s.mem.read c) ∧
      t = { s with mem := t.mem, reply := .ack }

/-- 20_memory R56: outside the window a buffer read returns the written bytes assembled little-endian and
zero-extended, and has no side effect. -/
def Obligations.BufferReadIsLittleEndian : Prop :=
  ∀ (s : State) (a : Addr) (size : Size) (bs : List Byte), s.win = false → mapTakes a.toNat size → 0x100 ≤ a.toNat →
    bs.length = size.bytes → (∀ k, k < size.bytes → s.mem.read (a.toNat + k) = bs[k]?) →
    ∃ v : Word, hostRead a size s = .next { s with reply := .data v } ∧
      ∀ k, k < 4 → v.extractLsb' (8 * k) 8 = bs[k]?.getD 0

/-- 20_memory R75: outside the window a buffer read that meets an unwritten byte faults, and the fault names one. -/
def Obligations.HostReadOfUnwrittenFaults : Prop :=
  ∀ (s : State) (a : Addr) (size : Size), s.win = false → mapTakes a.toNat size → 0x100 ≤ a.toNat →
    (∃ k, k < size.bytes ∧ s.mem.read (a.toNat + k) = none) →
    ∃ k, k < size.bytes ∧ s.mem.read (a.toNat + k) = none ∧
      hostRead a size s = .fault (.unwrittenRead (a.toNat + k))

/-- 70_reset R286, R287: in the BUSY window every access that the bus takes, but those of STATUS and CTRL, adds a hazard
to the record. That a CMD read and the accesses of reserved offsets are among them is the model's reading (log 8), and
that nothing else of the NSE changes is the model's (log 6), with the reply (log 19) and the core's delay (log 1). That
the record names the access's first byte (log 7), and is that one hazard for a read of an unwritten byte too (log 24), is
the model's choice. -/
def Obligations.HazardsAreRecorded : Prop :=
  ∀ (s : State) (a : Addr) (size : Size) (w : Word) (rest : List HostOp), s.HostsTurn → s.win = true →
    mapTakes a.toNat size → a ≠ 0x00000 → a ≠ 0x00008 →
    s.hostOps = .read a size :: rest ∨ s.hostOps = .write a size w :: rest →
    step s = .next { s with
      hostOps := rest, coreDelay := s.coreDelay - 1, reply := .unspecified, faults := [.hazard a] }

/-- 70_reset R286, 10_state R45: in the BUSY window the host may read STATUS, write STATUS and read or write CTRL; a
STATUS read closes the window exactly when it returns BUSY = 0. That a STATUS write of the window's tail can clear DONE is
the model's reading of R286 beside 40_control R117 (log 25). -/
def Obligations.WindowAllowsStatusAndCtrl : Prop :=
  ∀ (s : State) (w : Word),
    hostRead 0x00008 .word s =
      .next { s with win := s.win && s.status.busy, reply := .data s.status.word } ∧
    hostWrite 0x00008 .word w s =
      .next { s with status := { s.status with done := s.status.done && !w.getLsbD 1 }, reply := .ack } ∧
    hostRead 0x00000 .word s = .next { s with reply := .data s.ctrl.word } ∧
    hostWrite 0x00000 .word w s = .next { s with ctrl := ⟨w.getLsbD 0⟩, reply := .ack }

/-- 40_control R111: a CMD write outside the window, with BUSY = 0, is accepted whatever the word: STATUS, the snapshot
and the window are as R111 says, and no other register and no byte changes. -/
def Obligations.CmdWriteStartsTheCommand : Prop :=
  ∀ (s : State) (w : Word), s.win = false → s.status.busy = false →
    ∃ t, hostWrite 0x00004 .word w s = .next t ∧
      t.status = { s.status with done := false, errCode := .none, busy := true } ∧
      t.snap = ⟨w, s.geom, s.fg, s.pixLen, s.colLen, s.dictCnt, s.dict⟩ ∧ t.win = true ∧
      t = { s with
        status := t.status, snap := t.snap, win := true, reply := .ack, coreDelay := t.coreDelay
        accepted := t.accepted }

/-- 60_exceptions R264: IRQ is the level `CTRL.IRQ_EN and STATUS.DONE`; clearing DONE, accepting a command or masking
takes it to 0, masking keeps DONE, and every completion makes it pending. -/
def Obligations.InterruptIsALevel : Prop :=
  ∀ (s : State) (w : Word),
    s.irq = (s.ctrl.irqEn && s.status.done) ∧
    (w.getLsbD 1 = true → (s.writeReg .status w).irq = false) ∧
    (s.writeReg .cmd w).irq = false ∧
    (w.getLsbD 0 = false → (s.writeReg .ctrl w).irq = false ∧ (s.writeReg .ctrl w).status.done = s.status.done) ∧
    ∀ c : ErrCode, (s.complete c).status.done = true ∧ (s.complete c).irq = s.ctrl.irqEn

/-- 10_state R24, 60_exceptions R250: the bits of STATUS as the host reads it. -/
def Obligations.StatusWordLayout : Prop :=
  ∀ s : State,
    (s.readReg .status).getLsbD 0 = s.status.busy ∧ (s.readReg .status).getLsbD 1 = s.status.done ∧
    (s.readReg .status).getLsbD 2 = s.status.compress ∧ (s.readReg .status).getLsbD 3 = false ∧
    (s.readReg .status).extractLsb' 8 24 = 0 ∧
    (s.readReg .status).extractLsb' 4 4 =
      (match s.status.errCode with | .none => 0 | .illegalCmd => 1 | .shape => 2 | .len => 3 | .dict => 4)

/-! ### The invariant -/

/-- The invariant holds after reset. -/
def Obligations.InvariantHoldsAtReset : Prop := State.reset.Inv

/-- Every step keeps the invariant: the memory's canonical form (10_state R38, 20_memory R53), BUSY inside the window
with DONE and ERR_CODE cleared (40_control R111, 10_state R45), OUT_LEN as `ceil(NIB_COUNT / 2)` (10_state R29). -/
def Obligations.EveryStepKeepsTheInvariant : Prop :=
  ∀ s t : State, s.Inv → step s = .next t → t.Inv

/-! ### The host-side functions -/

/-- 48_host_side R223, R224: the dictionary has the first `min(12, distinct)` observed values by descending count, ties
by first encounter; its entries are distinct and observed, and none outside has a higher count than one inside. -/
def Obligations.DictionaryIsByFrequency : Prop :=
  ∀ xs : List Byte,
    (buildDictionary xs).length = min 12 xs.dedup.length ∧
    (buildDictionary xs).Nodup ∧ (∀ v ∈ buildDictionary xs, v ∈ xs) ∧
    (buildDictionary xs).Pairwise (fun v w =>
      xs.count w < xs.count v ∨ (xs.count w = xs.count v ∧ xs.idxOf v < xs.idxOf w)) ∧
    ∀ v ∈ buildDictionary xs, ∀ w ∈ xs, w ∉ buildDictionary xs →
      xs.count w < xs.count v ∨ (xs.count w = xs.count v ∧ xs.idxOf v < xs.idxOf w)

/-- 48_host_side R233: offsets never decrease, and the last offset plus the last payload's length is the blob's length,
from 0 with origin BLOB and from 2 + 2F with origin RECORD. -/
def Obligations.OffsetsCoverTheBlob : Prop :=
  ∀ (dir : Config.Directory) (ps : List (Bool × List Byte)) (p : Bool × List Byte),
    let offsets := offsetsFrom (offsetBase dir (ps ++ [p]).length) (ps ++ [p])
    let blob := ((ps ++ [p]).map fun q => q.2.length).sum
    offsets.Pairwise (· ≤ ·) ∧
    (dir.origin = .blob → offsets.getLast? = some (blob - p.2.length)) ∧
    (dir.origin = .record → offsets.getLast? = some (2 + 2 * (ps.length + 1) + blob - p.2.length))

/-- 48_host_side R230: for every DIR_FLAG_BIT, a directory entry gives back its flag at that bit and its 15-bit offset
from the other bits in order. -/
def Obligations.DirectoryEntryRoundTrip : Prop :=
  ∀ (dir : Config.Directory) (flag : Bool) (offset : Nat), offset < 2 ^ 15 →
    (directoryEntry dir flag offset).getLsbD dir.flagBit.val = flag ∧
    (directoryEntry dir flag offset).toNat % 2 ^ dir.flagBit.val +
      (directoryEntry dir flag offset).toNat / 2 ^ (dir.flagBit.val + 1) * 2 ^ dir.flagBit.val = offset

/-- 48_host_side R229, R230, R231: a record is the two header bytes, two directory bytes a frame, and the payloads.
With `before` the length of the payloads before frame `k`'s, its payload stands at `2 + 2F + before`, and bytes `2 + 2k`
and `3 + 2k` are the entry of its flag and its offset in DIR_BYTE_ORDER: `before` with origin BLOB, `2 + 2F + before` with
origin RECORD. -/
def Obligations.RecordPlacesPayloads : Prop :=
  ∀ (dir : Config.Directory) (p : Sprite) (ps : List (Bool × List Byte)) (r : List Byte),
    spriteRecord dir p ps = .ok r →
    r[0]? = some p.width ∧ r[1]? = some p.height ∧
    r.length = 2 + 2 * ps.length + (ps.map fun q => q.2.length).sum ∧
    ∀ (k : Nat) (q : Bool × List Byte), ps[k]? = some q →
      let before := ((ps.take k).map fun q => q.2.length).sum
      let off := match dir.origin with
        | .blob => before
        | .record => 2 + 2 * ps.length + before
      off < 2 ^ 15 ∧
      (dir.byteOrder = .little →
        r[2 + 2 * k]? = some ((directoryEntry dir q.1 off).extractLsb' 0 8) ∧
        r[3 + 2 * k]? = some ((directoryEntry dir q.1 off).extractLsb' 8 8)) ∧
      (dir.byteOrder = .big →
        r[2 + 2 * k]? = some ((directoryEntry dir q.1 off).extractLsb' 8 8) ∧
        r[3 + 2 * k]? = some ((directoryEntry dir q.1 off).extractLsb' 0 8)) ∧
      (r.drop (2 + 2 * ps.length + before)).take q.2.length = q.2

/-! ### The host's turn and the host's run -/

/-- 20_memory R66: at the host's turn a step makes the first access of the host's list on the state with the rest of the
list and one less of the core's free delay (the model's schedule, log 1 and 2): its next state is the step's; its fault is
recorded, with the bus's answer (60_exceptions R258, 20_memory R54, log 6 and 19). A POLL is a STATUS read that stays
first while BUSY is 1, and a wait stays first while IRQ is 0 (log 18). -/
def Obligations.StepMakesTheHostsAccess : Prop :=
  ∀ (s : State) (a : Addr) (size : Size) (w : Word) (rest : List HostOp), s.HostsTurn →
    (s.hostOps = .read a size :: rest →
      (∀ t, hostRead a size (s.hostTurn rest) = .next t → step s = .next t) ∧
      (∀ f, hostRead a size (s.hostTurn rest) = .fault f → step s = .next { s with
        hostOps := rest, coreDelay := s.coreDelay - 1, reply := replyOnFault f, faults := [f] })) ∧
    (s.hostOps = .write a size w :: rest →
      (∀ t, hostWrite a size w (s.hostTurn rest) = .next t → step s = .next t) ∧
      (∀ f, hostWrite a size w (s.hostTurn rest) = .fault f → step s = .next { s with
        hostOps := rest, coreDelay := s.coreDelay - 1, reply := replyOnFault f, faults := [f] })) ∧
    (s.hostOps = .poll :: rest → step s = .next { s with
      hostOps := if s.status.busy then .poll :: rest else rest
      coreDelay := s.coreDelay - 1, win := s.win && s.status.busy, reply := .data s.status.word }) ∧
    (s.hostOps = .waitIrq :: rest → step s = .next { s with
      hostOps := if s.irq then rest else .waitIrq :: rest, coreDelay := s.coreDelay - 1 })

/-- 48_host_side R222, R225, R227, R228, R235: the host's run on the NSE, from an IDLE state outside the window, answers
the dictionary and the records of the wire format, or its fatal error, whether phase 2 packs again or writes back. The
order of its accesses where R284 leaves it open, and the sprites' order in phase 2 and in the output, are the model's choice
(log 26), and so is the order of sprites of one name (log 23). -/
def Obligations.HostRunGivesTheWireOutput : Prop :=
  ∀ (dir : Config.Directory) (fgNormal fgMask : Byte) (again : Bool) (sprites : List Sprite) (s : State), s.Quiet →
    (hostRun dir fgNormal fgMask again sprites s).map Prod.fst = wireOutput dir fgNormal fgMask sprites
end

