-- ==== Sys2Proof/Laws/Memory.lean ====
section
/-! SUPPORT. The laws of buffer bytes: read after write, what a write leaves alone, the canonical form, and that
memories of that form with the same bytes are equal. -/

namespace Sys2Proof.Machine

@[simp] theorem memory_read_nil (a : Nat) : Memory.read [] a = none := rfl

@[simp] theorem memory_writeBytes_nil (m : Memory) (a : Nat) : m.writeBytes a [] = m := rfl

@[simp] theorem memory_writeBytes_cons (m : Memory) (a : Nat) (b : Byte) (bs : List Byte) :
    m.writeBytes a (b :: bs) = (m.write a b).writeBytes (a + 1) bs := rfl

@[simp] theorem memory_readBytes_zero (m : Memory) (a : Nat) : m.readBytes a 0 = .ok [] := rfl

/-- The byte just written is read back. -/
@[simp] theorem memory_read_write_same (m : Memory) (a : Nat) (b : Byte) : (m.write a b).read a = some b := by
  induction m with
  | nil => simp [Memory.write, Memory.read]
  | cons c m ih =>
    obtain ⟨k, v⟩ := c
    unfold Memory.write
    split
    · simp [Memory.read]
    · split
      · simp [Memory.read]
      · rename_i h
        simp [Memory.read, Ne.symm h, ih]

/-- A write leaves every other address alone. -/
theorem memory_read_write_other (m : Memory) {a c : Nat} (b : Byte) (h : c ≠ a) : (m.write a b).read c = m.read c := by
  induction m with
  | nil => simp [Memory.write, Memory.read, Ne.symm h]
  | cons e m ih =>
    obtain ⟨k, v⟩ := e
    unfold Memory.write
    split
    · simp [Memory.read, Ne.symm h]
    · split
      · rename_i hk
        subst hk
        simp [Memory.read, Ne.symm h]
      · simp [Memory.read, ih]

theorem memory_read_write (m : Memory) (a c : Nat) (b : Byte) :
    (m.write a b).read c = if c = a then some b else m.read c := by
  split
  · rename_i h; subst h; simp
  · rename_i h; exact memory_read_write_other m b h

/-- Consecutive writes: byte `k` lies at `a + k`, every other address reads as before. -/
theorem memory_read_writeBytes (m : Memory) (a c : Nat) (bs : List Byte) :
    (m.writeBytes a bs).read c = if a ≤ c ∧ c < a + bs.length then bs[c - a]? else m.read c := by
  induction bs generalizing m a with
  | nil => simp
  | cons b bs ih =>
    rw [memory_writeBytes_cons, ih, memory_read_write]
    by_cases hc : c = a
    · subst hc; simp
    · by_cases hr : a + 1 ≤ c ∧ c < a + 1 + bs.length
      · have h2 : a ≤ c ∧ c < a + (b :: bs).length := by simp; omega
        rw [if_pos hr, if_pos h2, show c - a = (c - (a + 1)) + 1 by omega, List.getElem?_cons_succ]
      · have h2 : ¬(a ≤ c ∧ c < a + (b :: bs).length) := by simp; omega
        rw [if_neg hr, if_neg h2, if_neg hc]

theorem memory_read_writeBytes_other (m : Memory) {a c : Nat} (bs : List Byte)
    (h : c < a ∨ a + bs.length ≤ c) : (m.writeBytes a bs).read c = m.read c := by
  rw [memory_read_writeBytes, if_neg (by omega)]

/-- A read of `n` bytes succeeds with `bs` exactly when each of them is the byte at its address. -/
theorem memory_readBytes_ok_iff (m : Memory) (a n : Nat) (bs : List Byte) :
    m.readBytes a n = .ok bs ↔ bs.length = n ∧ ∀ k, k < n → m.read (a + k) = bs[k]? := by
  induction n generalizing a bs with
  | zero => cases bs <;> simp
  | succ n ih =>
    simp only [Memory.readBytes]
    cases hr : m.read a with
    | none =>
      simp only [reduceCtorEq, false_iff, not_and]
      intro hl h
      have := h 0 (by omega)
      rw [Nat.add_zero, hr] at this
      cases bs with
      | nil => simp at hl
      | cons b bs => simp at this
    | some b =>
      cases hb : m.readBytes (a + 1) n with
      | ok cs =>
        have hcs := (ih (a + 1) cs).mp hb
        simp only [Except.ok.injEq]
        constructor
        · rintro rfl
          refine ⟨by simp [hcs.1], fun k hk => ?_⟩
          cases k with
          | zero => simpa using hr
          | succ k =>
            rw [List.getElem?_cons_succ, ← hcs.2 k (by omega), show a + 1 + k = a + (k + 1) by omega]
        · rintro ⟨hl, h⟩
          cases bs with
          | nil => simp at hl
          | cons c bs =>
            have h0 := h 0 (by omega)
            simp only [Nat.add_zero, hr, List.getElem?_cons_zero, Option.some.injEq] at h0
            subst h0
            have hb' : m.readBytes (a + 1) n = .ok bs := by
              rw [ih]
              refine ⟨by simpa using hl, fun k hk => ?_⟩
              have := h (k + 1) (by omega)
              rwa [List.getElem?_cons_succ, show a + (k + 1) = a + 1 + k by omega] at this
            rw [hb] at hb'
            simp only [Except.ok.injEq] at hb'
            rw [hb']
      | error f =>
        simp only [reduceCtorEq, false_iff, not_and]
        intro hl h
        cases bs with
        | nil => simp at hl
        | cons c bs =>
          have : m.readBytes (a + 1) n = .ok bs := by
            rw [ih]
            refine ⟨by simpa using hl, fun k hk => ?_⟩
            have := h (k + 1) (by omega)
            rwa [List.getElem?_cons_succ, show a + (k + 1) = a + 1 + k by omega] at this
          rw [hb] at this
          cases this

/-- A read that stops names the first byte of the range that nothing has written. -/
theorem memory_readBytes_error (m : Memory) {a n : Nat} {f : Fault} (h : m.readBytes a n = .error f) :
    ∃ k, k < n ∧ f = .unwrittenRead (a + k) ∧ m.read (a + k) = none := by
  induction n generalizing a with
  | zero => simp at h
  | succ n ih =>
    simp only [Memory.readBytes] at h
    cases hr : m.read a with
    | none =>
      rw [hr] at h
      simp only [Except.error.injEq] at h
      exact ⟨0, by omega, h.symm, hr⟩
    | some b =>
      rw [hr] at h
      cases hb : m.readBytes (a + 1) n with
      | ok cs => rw [hb] at h; simp at h
      | error g =>
        rw [hb] at h
        simp only [Except.error.injEq] at h
        subst h
        obtain ⟨k, hk, hf, hn⟩ := ih hb
        exact ⟨k + 1, by omega, by rw [hf]; congr 1; omega, by rw [← hn]; congr 1; omega⟩

/-- Bytes just written are read back. -/
theorem memory_readBytes_writeBytes (m : Memory) (a : Nat) (bs : List Byte) :
    (m.writeBytes a bs).readBytes a bs.length = .ok bs := by
  rw [memory_readBytes_ok_iff]
  refine ⟨rfl, fun k hk => ?_⟩
  rw [memory_read_writeBytes, if_pos (by omega), Nat.add_sub_cancel_left]

/-- Reads see only the addresses they name. -/
theorem memory_readBytes_congr {m m' : Memory} {a n : Nat} (h : ∀ k, k < n → m.read (a + k) = m'.read (a + k)) :
    m.readBytes a n = m'.readBytes a n := by
  induction n generalizing a with
  | zero => rfl
  | succ n ih =>
    have h0 := h 0 (by omega)
    have ih' := ih (a := a + 1) fun k hk => by
      have := h (k + 1) (by omega)
      rwa [show a + (k + 1) = a + 1 + k by omega] at this
    simp only [Nat.add_zero] at h0
    simp only [Memory.readBytes, h0, ih']

/-- Every cell of a write is the written byte or was there before. -/
theorem memory_mem_write {m : Memory} {a : Nat} {b : Byte} {c : Host.Cell} (h : c ∈ m.write a b) :
    c = (a, b) ∨ c ∈ m := by
  induction m with
  | nil => simpa [Memory.write] using h
  | cons e m ih =>
    obtain ⟨k, v⟩ := e
    unfold Memory.write at h
    split at h
    · simpa using h
    · split at h
      · rcases List.mem_cons.mp h with h | h
        · exact .inl h
        · exact .inr (List.mem_cons_of_mem _ h)
      · rcases List.mem_cons.mp h with h | h
        · exact .inr (by simp [h])
        · rcases ih h with h | h
          · exact .inl h
          · exact .inr (List.mem_cons_of_mem _ h)

/-- A write of a buffer byte keeps the canonical form. -/
theorem memory_write_wf {m : Memory} {a : Nat} (b : Byte) (h : m.wf) (ha : inBuffer a = true) :
    (m.write a b).wf := by
  refine ⟨?_, fun c hc => ?_⟩
  · have h1 := h.1
    clear h
    induction m with
    | nil => simp [Memory.write]
    | cons e m ih =>
      obtain ⟨k, v⟩ := e
      rw [List.pairwise_cons] at h1
      unfold Memory.write
      split
      · rename_i hk
        rw [List.pairwise_cons]
        refine ⟨fun c hc => ?_, List.pairwise_cons.mpr h1⟩
        rcases List.mem_cons.mp hc with hc | hc
        · subst hc; exact hk
        · exact Nat.lt_trans hk (h1.1 c hc)
      · split
        · rename_i hk
          subst hk
          exact List.pairwise_cons.mpr h1
        · rename_i h2 h3
          rw [List.pairwise_cons]
          refine ⟨fun c hc => ?_, ih h1.2⟩
          rcases memory_mem_write hc with hc | hc
          · subst hc; simp only; omega
          · exact h1.1 c hc
  · rcases memory_mem_write hc with hc | hc
    · subst hc; exact ha
    · exact h.2 c hc

/-- Writes of buffer bytes keep the canonical form. -/
theorem memory_writeBytes_wf {m : Memory} {a : Nat} {bs : List Byte} (h : m.wf)
    (ha : ∀ k, k < bs.length → inBuffer (a + k) = true) : (m.writeBytes a bs).wf := by
  induction bs generalizing m a with
  | nil => exact h
  | cons b bs ih =>
    refine ih (memory_write_wf b h (by simpa using ha 0 (by simp))) fun k hk => ?_
    have := ha (k + 1) (by simpa using hk)
    rwa [show a + (k + 1) = a + 1 + k by omega] at this

/-- A listed cell is what its address reads as. -/
theorem memory_read_of_mem {m : Memory} (h : m.Pairwise fun p q => p.1 < q.1) {a : Nat} {b : Byte}
    (hm : (a, b) ∈ m) : m.read a = some b := by
  induction m with
  | nil => simp at hm
  | cons e m ih =>
    obtain ⟨k, v⟩ := e
    rw [List.pairwise_cons] at h
    unfold Memory.read
    rcases List.mem_cons.mp hm with hm | hm
    · cases hm; simp
    · have := h.1 _ hm
      rw [if_neg (by simp only at this; omega)]
      exact ih h.2 hm

theorem memory_mem_of_read {m : Memory} {a : Nat} {b : Byte} (h : m.read a = some b) : (a, b) ∈ m := by
  induction m with
  | nil => simp at h
  | cons e m ih =>
    obtain ⟨k, v⟩ := e
    unfold Memory.read at h
    split at h
    · rename_i hk; subst hk; simp_all
    · exact List.mem_cons_of_mem _ (ih h)

/-- Below the first address of a rising memory nothing is written. -/
theorem memory_read_lt {m : Memory} {a : Nat} (h : ∀ c ∈ m, a < c.1) : m.read a = none := by
  cases hr : m.read a with
  | none => rfl
  | some b => exact absurd (h _ (memory_mem_of_read hr)) (by simp)

/-- Canonical memories that read alike are the same data. -/
theorem memory_ext {m m' : Memory} (h : m.wf) (h' : m'.wf) (hr : ∀ a, m.read a = m'.read a) : m = m' := by
  have key : ∀ (m m' : Memory), m.Pairwise (fun p q => p.1 < q.1) → m'.Pairwise (fun p q => p.1 < q.1) →
      (∀ a, m.read a = m'.read a) → m = m' := by
    intro m
    induction m with
    | nil =>
      intro m' _ h' hr
      cases m' with
      | nil => rfl
      | cons e m' =>
        have := hr e.1
        simp [Memory.read] at this
    | cons e m ih =>
      intro m' h h' hr
      cases m' with
      | nil =>
        have := hr e.1
        simp [Memory.read] at this
      | cons e' m' =>
        have hm := List.pairwise_cons.mp h
        have hm' := List.pairwise_cons.mp h'
        have hee : e = e' := by
          have h1 : (e.1, e.2) ∈ e' :: m' :=
            memory_mem_of_read (by rw [← hr]; exact memory_read_of_mem h (by simp))
          have h2 : (e'.1, e'.2) ∈ e :: m :=
            memory_mem_of_read (by rw [hr]; exact memory_read_of_mem h' (by simp))
          rcases List.mem_cons.mp h1 with h1 | h1
          · exact h1
          · rcases List.mem_cons.mp h2 with h2 | h2
            · exact h2.symm
            · have a1 := hm'.1 _ h1
              have a2 := hm.1 _ h2
              simp only at a1 a2
              omega
        subst hee
        congr 1
        refine ih m' hm.2 hm'.2 fun a => ?_
        by_cases ha : a = e.1
        · subst ha
          rw [memory_read_lt hm.1, memory_read_lt hm'.1]
        · have := hr a
          obtain ⟨k, v⟩ := e
          simpa [Memory.read, Ne.symm ha] using this
  exact key m m' h.1 h'.1 hr

end Sys2Proof.Machine
end

