-- ==== Sys2Proof/Laws/State.lean ====
section
/-! SUPPORT. What each update of the state does to each field: one lemma per field per update. -/

namespace Sys2Proof.Machine

/-! ### complete -/

@[simp] theorem complete_ctrl (s : State) (c : ErrCode) : (s.complete c).ctrl = s.ctrl := rfl
@[simp] theorem complete_status (s : State) (c : ErrCode) : (s.complete c).status = s.status.completed c := rfl
@[simp] theorem complete_geom (s : State) (c : ErrCode) : (s.complete c).geom = s.geom := rfl
@[simp] theorem complete_fg (s : State) (c : ErrCode) : (s.complete c).fg = s.fg := rfl
@[simp] theorem complete_pixLen (s : State) (c : ErrCode) : (s.complete c).pixLen = s.pixLen := rfl
@[simp] theorem complete_colLen (s : State) (c : ErrCode) : (s.complete c).colLen = s.colLen := rfl
@[simp] theorem complete_outLen (s : State) (c : ErrCode) : (s.complete c).outLen = s.outLen := rfl
@[simp] theorem complete_nibCount (s : State) (c : ErrCode) : (s.complete c).nibCount = s.nibCount := rfl
@[simp] theorem complete_dictCnt (s : State) (c : ErrCode) : (s.complete c).dictCnt = s.dictCnt := rfl
@[simp] theorem complete_dict (s : State) (c : ErrCode) : (s.complete c).dict = s.dict := rfl
@[simp] theorem complete_mem (s : State) (c : ErrCode) : (s.complete c).mem = s.mem := rfl
@[simp] theorem complete_snap (s : State) (c : ErrCode) : (s.complete c).snap = s.snap := rfl
@[simp] theorem complete_enc (s : State) (c : ErrCode) : (s.complete c).enc = s.enc := rfl
@[simp] theorem complete_win (s : State) (c : ErrCode) : (s.complete c).win = s.win := rfl
@[simp] theorem complete_faults (s : State) (c : ErrCode) : (s.complete c).faults = s.faults := rfl
@[simp] theorem complete_port (s : State) (c : ErrCode) : (s.complete c).port = s.port := rfl
@[simp] theorem complete_hostOps (s : State) (c : ErrCode) : (s.complete c).hostOps = s.hostOps := rfl
@[simp] theorem complete_reply (s : State) (c : ErrCode) : (s.complete c).reply = s.reply := rfl
@[simp] theorem complete_coreDelay (s : State) (c : ErrCode) : (s.complete c).coreDelay = s.coreDelay := rfl
@[simp] theorem complete_accepted (s : State) (c : ErrCode) : (s.complete c).accepted = s.accepted := rfl

/-! ### accept -/

@[simp] theorem accept_ctrl (s : State) (w : Word) : (s.accept w).ctrl = s.ctrl := rfl
@[simp] theorem accept_status (s : State) (w : Word) : (s.accept w).status = s.status.started := rfl
@[simp] theorem accept_geom (s : State) (w : Word) : (s.accept w).geom = s.geom := rfl
@[simp] theorem accept_fg (s : State) (w : Word) : (s.accept w).fg = s.fg := rfl
@[simp] theorem accept_pixLen (s : State) (w : Word) : (s.accept w).pixLen = s.pixLen := rfl
@[simp] theorem accept_colLen (s : State) (w : Word) : (s.accept w).colLen = s.colLen := rfl
@[simp] theorem accept_outLen (s : State) (w : Word) : (s.accept w).outLen = s.outLen := rfl
@[simp] theorem accept_nibCount (s : State) (w : Word) : (s.accept w).nibCount = s.nibCount := rfl
@[simp] theorem accept_dictCnt (s : State) (w : Word) : (s.accept w).dictCnt = s.dictCnt := rfl
@[simp] theorem accept_dict (s : State) (w : Word) : (s.accept w).dict = s.dict := rfl
@[simp] theorem accept_mem (s : State) (w : Word) : (s.accept w).mem = s.mem := rfl
@[simp] theorem accept_snap (s : State) (w : Word) : (s.accept w).snap = s.capture w := rfl
@[simp] theorem accept_enc (s : State) (w : Word) : (s.accept w).enc = s.enc := rfl
@[simp] theorem accept_win (s : State) (w : Word) : (s.accept w).win = true := rfl
@[simp] theorem accept_faults (s : State) (w : Word) : (s.accept w).faults = s.faults := rfl
@[simp] theorem accept_port (s : State) (w : Word) : (s.accept w).port = s.port := rfl
@[simp] theorem accept_hostOps (s : State) (w : Word) : (s.accept w).hostOps = s.hostOps := rfl
@[simp] theorem accept_reply (s : State) (w : Word) : (s.accept w).reply = s.reply := rfl
@[simp] theorem accept_coreDelay (s : State) (w : Word) : (s.accept w).coreDelay = Config.commandDelay s.accepted := rfl
@[simp] theorem accept_accepted (s : State) (w : Word) : (s.accept w).accepted = s.accepted + 1 := rfl

/-! ### recordFault -/

@[simp] theorem recordFault_ctrl (s : State) (f : Fault) : (s.recordFault f).ctrl = s.ctrl := rfl
@[simp] theorem recordFault_status (s : State) (f : Fault) : (s.recordFault f).status = s.status := rfl
@[simp] theorem recordFault_geom (s : State) (f : Fault) : (s.recordFault f).geom = s.geom := rfl
@[simp] theorem recordFault_fg (s : State) (f : Fault) : (s.recordFault f).fg = s.fg := rfl
@[simp] theorem recordFault_pixLen (s : State) (f : Fault) : (s.recordFault f).pixLen = s.pixLen := rfl
@[simp] theorem recordFault_colLen (s : State) (f : Fault) : (s.recordFault f).colLen = s.colLen := rfl
@[simp] theorem recordFault_outLen (s : State) (f : Fault) : (s.recordFault f).outLen = s.outLen := rfl
@[simp] theorem recordFault_nibCount (s : State) (f : Fault) : (s.recordFault f).nibCount = s.nibCount := rfl
@[simp] theorem recordFault_dictCnt (s : State) (f : Fault) : (s.recordFault f).dictCnt = s.dictCnt := rfl
@[simp] theorem recordFault_dict (s : State) (f : Fault) : (s.recordFault f).dict = s.dict := rfl
@[simp] theorem recordFault_mem (s : State) (f : Fault) : (s.recordFault f).mem = s.mem := rfl
@[simp] theorem recordFault_snap (s : State) (f : Fault) : (s.recordFault f).snap = s.snap := rfl
@[simp] theorem recordFault_enc (s : State) (f : Fault) : (s.recordFault f).enc = s.enc := rfl
@[simp] theorem recordFault_win (s : State) (f : Fault) : (s.recordFault f).win = s.win := rfl
@[simp] theorem recordFault_faults (s : State) (f : Fault) : (s.recordFault f).faults = s.faults ++ [f] := rfl
@[simp] theorem recordFault_port (s : State) (f : Fault) : (s.recordFault f).port = s.port := rfl
@[simp] theorem recordFault_hostOps (s : State) (f : Fault) : (s.recordFault f).hostOps = s.hostOps := rfl
@[simp] theorem recordFault_reply (s : State) (f : Fault) : (s.recordFault f).reply = s.reply := rfl
@[simp] theorem recordFault_coreDelay (s : State) (f : Fault) : (s.recordFault f).coreDelay = s.coreDelay := rfl
@[simp] theorem recordFault_accepted (s : State) (f : Fault) : (s.recordFault f).accepted = s.accepted := rfl

/-! ### advance -/

@[simp] theorem advance_ctrl (s : State) (m : Nat) : (s.advance m).ctrl = s.ctrl := rfl
@[simp] theorem advance_status (s : State) (m : Nat) : (s.advance m).status = s.status := rfl
@[simp] theorem advance_geom (s : State) (m : Nat) : (s.advance m).geom = s.geom := rfl
@[simp] theorem advance_fg (s : State) (m : Nat) : (s.advance m).fg = s.fg := rfl
@[simp] theorem advance_pixLen (s : State) (m : Nat) : (s.advance m).pixLen = s.pixLen := rfl
@[simp] theorem advance_colLen (s : State) (m : Nat) : (s.advance m).colLen = s.colLen := rfl
@[simp] theorem advance_outLen (s : State) (m : Nat) : (s.advance m).outLen = s.outLen := rfl
@[simp] theorem advance_nibCount (s : State) (m : Nat) : (s.advance m).nibCount = s.nibCount := rfl
@[simp] theorem advance_dictCnt (s : State) (m : Nat) : (s.advance m).dictCnt = s.dictCnt := rfl
@[simp] theorem advance_dict (s : State) (m : Nat) : (s.advance m).dict = s.dict := rfl
@[simp] theorem advance_mem (s : State) (m : Nat) : (s.advance m).mem = s.mem := rfl
@[simp] theorem advance_snap (s : State) (m : Nat) : (s.advance m).snap = s.snap := rfl
@[simp] theorem advance_enc (s : State) (m : Nat) : (s.advance m).enc = { s.enc with pos := s.enc.pos + m } := rfl
@[simp] theorem advance_win (s : State) (m : Nat) : (s.advance m).win = s.win := rfl
@[simp] theorem advance_faults (s : State) (m : Nat) : (s.advance m).faults = s.faults := rfl
@[simp] theorem advance_port (s : State) (m : Nat) : (s.advance m).port = s.port := rfl
@[simp] theorem advance_hostOps (s : State) (m : Nat) : (s.advance m).hostOps = s.hostOps := rfl
@[simp] theorem advance_reply (s : State) (m : Nat) : (s.advance m).reply = s.reply := rfl
@[simp] theorem advance_coreDelay (s : State) (m : Nat) : (s.advance m).coreDelay = s.coreDelay := rfl
@[simp] theorem advance_accepted (s : State) (m : Nat) : (s.advance m).accepted = s.accepted := rfl

/-! ### hostTurn -/

@[simp] theorem hostTurn_ctrl (s : State) (l : List HostOp) : (s.hostTurn l).ctrl = s.ctrl := rfl
@[simp] theorem hostTurn_status (s : State) (l : List HostOp) : (s.hostTurn l).status = s.status := rfl
@[simp] theorem hostTurn_geom (s : State) (l : List HostOp) : (s.hostTurn l).geom = s.geom := rfl
@[simp] theorem hostTurn_fg (s : State) (l : List HostOp) : (s.hostTurn l).fg = s.fg := rfl
@[simp] theorem hostTurn_pixLen (s : State) (l : List HostOp) : (s.hostTurn l).pixLen = s.pixLen := rfl
@[simp] theorem hostTurn_colLen (s : State) (l : List HostOp) : (s.hostTurn l).colLen = s.colLen := rfl
@[simp] theorem hostTurn_outLen (s : State) (l : List HostOp) : (s.hostTurn l).outLen = s.outLen := rfl
@[simp] theorem hostTurn_nibCount (s : State) (l : List HostOp) : (s.hostTurn l).nibCount = s.nibCount := rfl
@[simp] theorem hostTurn_dictCnt (s : State) (l : List HostOp) : (s.hostTurn l).dictCnt = s.dictCnt := rfl
@[simp] theorem hostTurn_dict (s : State) (l : List HostOp) : (s.hostTurn l).dict = s.dict := rfl
@[simp] theorem hostTurn_mem (s : State) (l : List HostOp) : (s.hostTurn l).mem = s.mem := rfl
@[simp] theorem hostTurn_snap (s : State) (l : List HostOp) : (s.hostTurn l).snap = s.snap := rfl
@[simp] theorem hostTurn_enc (s : State) (l : List HostOp) : (s.hostTurn l).enc = s.enc := rfl
@[simp] theorem hostTurn_win (s : State) (l : List HostOp) : (s.hostTurn l).win = s.win := rfl
@[simp] theorem hostTurn_faults (s : State) (l : List HostOp) : (s.hostTurn l).faults = s.faults := rfl
@[simp] theorem hostTurn_port (s : State) (l : List HostOp) : (s.hostTurn l).port = s.port := rfl
@[simp] theorem hostTurn_hostOps (s : State) (l : List HostOp) : (s.hostTurn l).hostOps = l := rfl
@[simp] theorem hostTurn_reply (s : State) (l : List HostOp) : (s.hostTurn l).reply = s.reply := rfl
@[simp] theorem hostTurn_coreDelay (s : State) (l : List HostOp) : (s.hostTurn l).coreDelay = s.coreDelay - 1 := rfl
@[simp] theorem hostTurn_accepted (s : State) (l : List HostOp) : (s.hostTurn l).accepted = s.accepted := rfl

/-! ### statusSeen -/

@[simp] theorem statusSeen_ctrl (s : State) : (s.statusSeen).ctrl = s.ctrl := rfl
@[simp] theorem statusSeen_status (s : State) : (s.statusSeen).status = s.status := rfl
@[simp] theorem statusSeen_geom (s : State) : (s.statusSeen).geom = s.geom := rfl
@[simp] theorem statusSeen_fg (s : State) : (s.statusSeen).fg = s.fg := rfl
@[simp] theorem statusSeen_pixLen (s : State) : (s.statusSeen).pixLen = s.pixLen := rfl
@[simp] theorem statusSeen_colLen (s : State) : (s.statusSeen).colLen = s.colLen := rfl
@[simp] theorem statusSeen_outLen (s : State) : (s.statusSeen).outLen = s.outLen := rfl
@[simp] theorem statusSeen_nibCount (s : State) : (s.statusSeen).nibCount = s.nibCount := rfl
@[simp] theorem statusSeen_dictCnt (s : State) : (s.statusSeen).dictCnt = s.dictCnt := rfl
@[simp] theorem statusSeen_dict (s : State) : (s.statusSeen).dict = s.dict := rfl
@[simp] theorem statusSeen_mem (s : State) : (s.statusSeen).mem = s.mem := rfl
@[simp] theorem statusSeen_snap (s : State) : (s.statusSeen).snap = s.snap := rfl
@[simp] theorem statusSeen_enc (s : State) : (s.statusSeen).enc = s.enc := rfl
@[simp] theorem statusSeen_win (s : State) : (s.statusSeen).win = (s.win && s.status.busy) := rfl
@[simp] theorem statusSeen_faults (s : State) : (s.statusSeen).faults = s.faults := rfl
@[simp] theorem statusSeen_port (s : State) : (s.statusSeen).port = s.port := rfl
@[simp] theorem statusSeen_hostOps (s : State) : (s.statusSeen).hostOps = s.hostOps := rfl
@[simp] theorem statusSeen_reply (s : State) : (s.statusSeen).reply = s.reply := rfl
@[simp] theorem statusSeen_coreDelay (s : State) : (s.statusSeen).coreDelay = s.coreDelay := rfl
@[simp] theorem statusSeen_accepted (s : State) : (s.statusSeen).accepted = s.accepted := rfl

/-! ### portTaken -/

@[simp] theorem portTaken_ctrl (s : State) : (s.portTaken).ctrl = s.ctrl := rfl
@[simp] theorem portTaken_status (s : State) : (s.portTaken).status = s.status := rfl
@[simp] theorem portTaken_geom (s : State) : (s.portTaken).geom = s.geom := rfl
@[simp] theorem portTaken_fg (s : State) : (s.portTaken).fg = s.fg := rfl
@[simp] theorem portTaken_pixLen (s : State) : (s.portTaken).pixLen = s.pixLen := rfl
@[simp] theorem portTaken_colLen (s : State) : (s.portTaken).colLen = s.colLen := rfl
@[simp] theorem portTaken_outLen (s : State) : (s.portTaken).outLen = s.outLen := rfl
@[simp] theorem portTaken_nibCount (s : State) : (s.portTaken).nibCount = s.nibCount := rfl
@[simp] theorem portTaken_dictCnt (s : State) : (s.portTaken).dictCnt = s.dictCnt := rfl
@[simp] theorem portTaken_dict (s : State) : (s.portTaken).dict = s.dict := rfl
@[simp] theorem portTaken_mem (s : State) : (s.portTaken).mem = s.mem := rfl
@[simp] theorem portTaken_snap (s : State) : (s.portTaken).snap = s.snap := rfl
@[simp] theorem portTaken_enc (s : State) : (s.portTaken).enc = s.enc := rfl
@[simp] theorem portTaken_win (s : State) : (s.portTaken).win = s.win := rfl
@[simp] theorem portTaken_faults (s : State) : (s.portTaken).faults = s.faults := rfl
@[simp] theorem portTaken_port (s : State) : (s.portTaken).port = [] := rfl
@[simp] theorem portTaken_hostOps (s : State) : (s.portTaken).hostOps = s.hostOps := rfl
@[simp] theorem portTaken_reply (s : State) : (s.portTaken).reply = s.reply := rfl
@[simp] theorem portTaken_coreDelay (s : State) : (s.portTaken).coreDelay = s.coreDelay := rfl
@[simp] theorem portTaken_accepted (s : State) : (s.portTaken).accepted = s.accepted := rfl

/-! ### applyReset -/

@[simp] theorem applyReset_ctrl (s : State) : (s.applyReset).ctrl = State.reset.ctrl := rfl
@[simp] theorem applyReset_status (s : State) : (s.applyReset).status = State.reset.status := rfl
@[simp] theorem applyReset_geom (s : State) : (s.applyReset).geom = State.reset.geom := rfl
@[simp] theorem applyReset_fg (s : State) : (s.applyReset).fg = State.reset.fg := rfl
@[simp] theorem applyReset_pixLen (s : State) : (s.applyReset).pixLen = State.reset.pixLen := rfl
@[simp] theorem applyReset_colLen (s : State) : (s.applyReset).colLen = State.reset.colLen := rfl
@[simp] theorem applyReset_outLen (s : State) : (s.applyReset).outLen = State.reset.outLen := rfl
@[simp] theorem applyReset_nibCount (s : State) : (s.applyReset).nibCount = State.reset.nibCount := rfl
@[simp] theorem applyReset_dictCnt (s : State) : (s.applyReset).dictCnt = State.reset.dictCnt := rfl
@[simp] theorem applyReset_dict (s : State) : (s.applyReset).dict = State.reset.dict := rfl
@[simp] theorem applyReset_mem (s : State) : (s.applyReset).mem = State.reset.mem := rfl
@[simp] theorem applyReset_snap (s : State) : (s.applyReset).snap = State.reset.snap := rfl
@[simp] theorem applyReset_enc (s : State) : (s.applyReset).enc = State.reset.enc := rfl
@[simp] theorem applyReset_win (s : State) : (s.applyReset).win = State.reset.win := rfl
@[simp] theorem applyReset_faults (s : State) : (s.applyReset).faults = State.reset.faults := rfl
@[simp] theorem applyReset_port (s : State) : (s.applyReset).port = State.reset.port := rfl
@[simp] theorem applyReset_hostOps (s : State) : (s.applyReset).hostOps = s.hostOps := rfl
@[simp] theorem applyReset_reply (s : State) : (s.applyReset).reply = State.reset.reply := rfl
@[simp] theorem applyReset_coreDelay (s : State) : (s.applyReset).coreDelay = State.reset.coreDelay := rfl
@[simp] theorem applyReset_accepted (s : State) : (s.applyReset).accepted = s.accepted := rfl

/-! ### loadCommand -/

@[simp] theorem loadCommand_ctrl (s : State) (w : Word) : (s.loadCommand w).ctrl = s.ctrl := rfl
@[simp] theorem loadCommand_status (s : State) (w : Word) : (s.loadCommand w).status = s.status.started := rfl
@[simp] theorem loadCommand_geom (s : State) (w : Word) : (s.loadCommand w).geom = s.geom := rfl
@[simp] theorem loadCommand_fg (s : State) (w : Word) : (s.loadCommand w).fg = s.fg := rfl
@[simp] theorem loadCommand_pixLen (s : State) (w : Word) : (s.loadCommand w).pixLen = s.pixLen := rfl
@[simp] theorem loadCommand_colLen (s : State) (w : Word) : (s.loadCommand w).colLen = s.colLen := rfl
@[simp] theorem loadCommand_outLen (s : State) (w : Word) : (s.loadCommand w).outLen = s.outLen := rfl
@[simp] theorem loadCommand_nibCount (s : State) (w : Word) : (s.loadCommand w).nibCount = s.nibCount := rfl
@[simp] theorem loadCommand_dictCnt (s : State) (w : Word) : (s.loadCommand w).dictCnt = s.dictCnt := rfl
@[simp] theorem loadCommand_dict (s : State) (w : Word) : (s.loadCommand w).dict = s.dict := rfl
@[simp] theorem loadCommand_mem (s : State) (w : Word) : (s.loadCommand w).mem = s.mem := rfl
@[simp] theorem loadCommand_snap (s : State) (w : Word) : (s.loadCommand w).snap = s.capture w := rfl
@[simp] theorem loadCommand_enc (s : State) (w : Word) : (s.loadCommand w).enc = s.enc := rfl
@[simp] theorem loadCommand_win (s : State) (w : Word) : (s.loadCommand w).win = true := rfl
@[simp] theorem loadCommand_faults (s : State) (w : Word) : (s.loadCommand w).faults = [] := rfl
@[simp] theorem loadCommand_port (s : State) (w : Word) : (s.loadCommand w).port = [] := rfl
@[simp] theorem loadCommand_hostOps (s : State) (w : Word) : (s.loadCommand w).hostOps = s.hostOps := rfl
@[simp] theorem loadCommand_reply (s : State) (w : Word) : (s.loadCommand w).reply = s.reply := rfl
@[simp] theorem loadCommand_coreDelay (s : State) (w : Word) : (s.loadCommand w).coreDelay = 0 := rfl
@[simp] theorem loadCommand_accepted (s : State) (w : Word) : (s.loadCommand w).accepted = s.accepted + 1 := rfl

/-! ### loadToken -/

@[simp] theorem loadToken_ctrl (s : State) (ns : List Nibble) : (s.loadToken ns).ctrl = s.ctrl := rfl
@[simp] theorem loadToken_status (s : State) (ns : List Nibble) : (s.loadToken ns).status = s.status := rfl
@[simp] theorem loadToken_geom (s : State) (ns : List Nibble) : (s.loadToken ns).geom = s.geom := rfl
@[simp] theorem loadToken_fg (s : State) (ns : List Nibble) : (s.loadToken ns).fg = s.fg := rfl
@[simp] theorem loadToken_pixLen (s : State) (ns : List Nibble) : (s.loadToken ns).pixLen = s.pixLen := rfl
@[simp] theorem loadToken_colLen (s : State) (ns : List Nibble) : (s.loadToken ns).colLen = s.colLen := rfl
@[simp] theorem loadToken_outLen (s : State) (ns : List Nibble) : (s.loadToken ns).outLen = s.outLen := rfl
@[simp] theorem loadToken_nibCount (s : State) (ns : List Nibble) : (s.loadToken ns).nibCount = s.nibCount := rfl
@[simp] theorem loadToken_dictCnt (s : State) (ns : List Nibble) : (s.loadToken ns).dictCnt = s.dictCnt := rfl
@[simp] theorem loadToken_dict (s : State) (ns : List Nibble) : (s.loadToken ns).dict = s.dict := rfl
@[simp] theorem loadToken_mem (s : State) (ns : List Nibble) : (s.loadToken ns).mem = s.mem := rfl
@[simp] theorem loadToken_snap (s : State) (ns : List Nibble) : (s.loadToken ns).snap = s.snap := rfl
@[simp] theorem loadToken_enc (s : State) (ns : List Nibble) : (s.loadToken ns).enc = s.enc := rfl
@[simp] theorem loadToken_win (s : State) (ns : List Nibble) : (s.loadToken ns).win = s.win := rfl
@[simp] theorem loadToken_faults (s : State) (ns : List Nibble) : (s.loadToken ns).faults = [] := rfl
@[simp] theorem loadToken_port (s : State) (ns : List Nibble) : (s.loadToken ns).port = ns := rfl
@[simp] theorem loadToken_hostOps (s : State) (ns : List Nibble) : (s.loadToken ns).hostOps = s.hostOps := rfl
@[simp] theorem loadToken_reply (s : State) (ns : List Nibble) : (s.loadToken ns).reply = s.reply := rfl
@[simp] theorem loadToken_coreDelay (s : State) (ns : List Nibble) : (s.loadToken ns).coreDelay = s.coreDelay := rfl
@[simp] theorem loadToken_accepted (s : State) (ns : List Nibble) : (s.loadToken ns).accepted = s.accepted := rfl

/-! ### finishEncode -/

@[simp] theorem finishEncode_ctrl (n : Nat) (s : State) : (finishEncode n s).ctrl = s.ctrl := rfl
@[simp] theorem finishEncode_status (n : Nat) (s : State) : (finishEncode n s).status = Status.completed { s.status with compress := compressFlag s.enc.ob n } .none := rfl
@[simp] theorem finishEncode_geom (n : Nat) (s : State) : (finishEncode n s).geom = s.geom := rfl
@[simp] theorem finishEncode_fg (n : Nat) (s : State) : (finishEncode n s).fg = s.fg := rfl
@[simp] theorem finishEncode_pixLen (n : Nat) (s : State) : (finishEncode n s).pixLen = s.pixLen := rfl
@[simp] theorem finishEncode_colLen (n : Nat) (s : State) : (finishEncode n s).colLen = s.colLen := rfl
@[simp] theorem finishEncode_outLen (n : Nat) (s : State) : (finishEncode n s).outLen = BitVec.ofNat 32 s.enc.ob := rfl
@[simp] theorem finishEncode_nibCount (n : Nat) (s : State) : (finishEncode n s).nibCount = BitVec.ofNat 32 s.enc.nib := rfl
@[simp] theorem finishEncode_dictCnt (n : Nat) (s : State) : (finishEncode n s).dictCnt = s.dictCnt := rfl
@[simp] theorem finishEncode_dict (n : Nat) (s : State) : (finishEncode n s).dict = s.dict := rfl
@[simp] theorem finishEncode_mem (n : Nat) (s : State) : (finishEncode n s).mem = s.mem := rfl
@[simp] theorem finishEncode_snap (n : Nat) (s : State) : (finishEncode n s).snap = s.snap := rfl
@[simp] theorem finishEncode_enc (n : Nat) (s : State) : (finishEncode n s).enc = Encoder.initial := rfl
@[simp] theorem finishEncode_win (n : Nat) (s : State) : (finishEncode n s).win = s.win := rfl
@[simp] theorem finishEncode_faults (n : Nat) (s : State) : (finishEncode n s).faults = s.faults := rfl
@[simp] theorem finishEncode_port (n : Nat) (s : State) : (finishEncode n s).port = s.port := rfl
@[simp] theorem finishEncode_hostOps (n : Nat) (s : State) : (finishEncode n s).hostOps = s.hostOps := rfl
@[simp] theorem finishEncode_reply (n : Nat) (s : State) : (finishEncode n s).reply = s.reply := rfl
@[simp] theorem finishEncode_coreDelay (n : Nat) (s : State) : (finishEncode n s).coreDelay = s.coreDelay := rfl
@[simp] theorem finishEncode_accepted (n : Nat) (s : State) : (finishEncode n s).accepted = s.accepted := rfl

/-! ### Status updates -/

@[simp] theorem status_started_busy (t : Status) : (t.started).busy = true := rfl
@[simp] theorem status_started_done (t : Status) : (t.started).done = false := rfl
@[simp] theorem status_started_compress (t : Status) : (t.started).compress = t.compress := rfl
@[simp] theorem status_started_errCode (t : Status) : (t.started).errCode = .none := rfl
@[simp] theorem status_completed_busy (t : Status) (c : ErrCode) : (t.completed c).busy = false := rfl
@[simp] theorem status_completed_done (t : Status) (c : ErrCode) : (t.completed c).done = true := rfl
@[simp] theorem status_completed_compress (t : Status) (c : ErrCode) : (t.completed c).compress = t.compress := rfl
@[simp] theorem status_completed_errCode (t : Status) (c : ErrCode) : (t.completed c).errCode = c := rfl
@[simp] theorem status_hostWrite_busy (t : Status) (w : Word) : (t.hostWrite w).busy = t.busy := rfl
@[simp] theorem status_hostWrite_done (t : Status) (w : Word) : (t.hostWrite w).done = (t.done && !w.getLsbD 1) := rfl
@[simp] theorem status_hostWrite_compress (t : Status) (w : Word) : (t.hostWrite w).compress = t.compress := rfl
@[simp] theorem status_hostWrite_errCode (t : Status) (w : Word) : (t.hostWrite w).errCode = t.errCode := rfl

/-! ### Operand capture -/

@[simp] theorem capture_geom (s : State) (w : Word) : (s.capture w).geom = s.geom := rfl
@[simp] theorem capture_fg (s : State) (w : Word) : (s.capture w).fg = s.fg := rfl
@[simp] theorem capture_pixLen (s : State) (w : Word) : (s.capture w).pixLen = s.pixLen := rfl
@[simp] theorem capture_colLen (s : State) (w : Word) : (s.capture w).colLen = s.colLen := rfl
@[simp] theorem capture_dictCnt (s : State) (w : Word) : (s.capture w).dictCnt = s.dictCnt := rfl
@[simp] theorem capture_dict (s : State) (w : Word) : (s.capture w).dict = s.dict := rfl
@[simp] theorem capture_cmd (s : State) (w : Word) : (s.capture w).cmd = w := rfl

end Sys2Proof.Machine
end

