-- ==== Sys2Proof/Laws/Packer.lean ====
section
/-! SUPPORT. What the token packer can do, said once: pairs and padding, `emit`, `emitAll`, `flush`, `emitToken`. -/

namespace Sys2Proof.Machine

@[simp] theorem andThen_next (s : State) (f : State → Result) : andThen (.next s) f = f s := rfl

/-- A sequence answers a next state only through a next state of its first part. -/
theorem andThen_eq_next {o : Result} {f : State → Result} {u : State} (h : andThen o f = .next u) :
    ∃ t, o = .next t ∧ f t = .next u := by
  cases o with
  | next t => exact ⟨t, rfl, h⟩
  | fault r => cases h
  | refused r => cases h

/-! ### Pairs -/

@[simp] theorem fullBytes_nil : fullBytes [] = [] := rfl
@[simp] theorem fullBytes_one (h : Nibble) : fullBytes [h] = [] := rfl
@[simp] theorem fullBytes_pair (h l : Nibble) (ns : List Nibble) :
    fullBytes (h :: l :: ns) = joinNibbles h l :: fullBytes ns := rfl
@[simp] theorem leftover_nil : leftover [] = [] := rfl
@[simp] theorem leftover_one (h : Nibble) : leftover [h] = [h] := rfl
@[simp] theorem leftover_pair (h l : Nibble) (ns : List Nibble) : leftover (h :: l :: ns) = leftover ns := rfl

theorem fullBytes_append (a b : List Nibble) : fullBytes (a ++ b) = fullBytes a ++ fullBytes (leftover a ++ b) := by
  induction a using fullBytes.induct with
  | case1 => simp
  | case2 h => simp
  | case3 h l ns ih => simp [ih]

theorem leftover_append (a b : List Nibble) : leftover (a ++ b) = leftover (leftover a ++ b) := by
  induction a using fullBytes.induct with
  | case1 => simp
  | case2 h => simp
  | case3 h l ns ih => simp [ih]

theorem length_fullBytes (a : List Nibble) : (fullBytes a).length = a.length / 2 := by
  induction a using fullBytes.induct with
  | case1 => simp
  | case2 h => simp
  | case3 h l ns ih => simp [ih]; omega

theorem length_leftover (a : List Nibble) : (leftover a).length = a.length % 2 := by
  induction a using fullBytes.induct with
  | case1 => simp
  | case2 h => simp
  | case3 h l ns ih => simp [ih]; omega

/-- The packed bytes are the complete pairs and, for an odd count, the padded last nibble. -/
theorem packNibbles_eq (a : List Nibble) : packNibbles a = fullBytes a ++ (leftover a).map (joinNibbles · 0) := by
  induction a using fullBytes.induct with
  | case1 => simp [packNibbles]
  | case2 h => simp [packNibbles]
  | case3 h l ns ih => simp [packNibbles, ih]

theorem length_packNibbles (a : List Nibble) : (packNibbles a).length = (a.length + 1) / 2 := by
  rw [packNibbles_eq, List.length_append, length_fullBytes, List.length_map, length_leftover]
  omega

theorem memory_writeBytes_append (m : Memory) (a : Nat) (bs cs : List Byte) :
    m.writeBytes a (bs ++ cs) = (m.writeBytes a bs).writeBytes (a + bs.length) cs := by
  induction bs generalizing m a with
  | nil => simp
  | cons b bs ih => simp [ih, Nat.add_assoc, Nat.add_comm 1]

/-! ### Emission -/

theorem length_pending (e : Encoder) : e.pending.length = e.half.toNat := by
  unfold Encoder.pending
  cases e.half <;> simp

theorem Emits.refl (s : State) : Emits [] 0 s s where
  rest := by
    have : fullBytes (s.enc.pending ++ []) = [] := by unfold Encoder.pending; split <;> simp
    rw [this]; rfl
  seg := rfl
  pos := rfl
  nib := by simp
  ob := by unfold Encoder.pending; split <;> simp
  pending := by unfold Encoder.pending; split <;> simp

/-- One emission after another is the emission of both. -/
theorem Emits.trans {ns ns' : List Nibble} {m m' : Nat} {s t u : State} (h : Emits ns m s t) (h' : Emits ns' m' t u) :
    Emits (ns ++ ns') (m + m') s u where
  rest := by
    have e1 := h'.rest
    rw [h.rest] at e1
    simp only at e1
    rw [e1, ← List.append_assoc, fullBytes_append (s.enc.pending ++ ns), memory_writeBytes_append, h.ob, h.pending,
      Nat.add_assoc]
  seg := h'.seg.trans h.seg
  pos := by rw [h'.pos, h.pos, Nat.add_assoc]
  nib := by rw [h'.nib, h.nib, List.length_append, Nat.add_assoc]
  ob := by
    rw [h'.ob, h.ob, ← List.append_assoc, fullBytes_append (s.enc.pending ++ ns), List.length_append, h.pending,
      Nat.add_assoc]
  pending := by rw [h'.pending, ← List.append_assoc, leftover_append (s.enc.pending ++ ns), h.pending]

/-- What `emit` can do: it emits, or it stops past the end of OUT. -/
theorem emit_cases (n : Nibble) (s : State) :
    (∃ u, emit n s = .next u ∧ Emits [n] 0 s u ∧ u.enc.half = !s.enc.half) ∨
    (s.enc.half = true ∧ Config.outSize ≤ s.enc.ob ∧ emit n s = .fault (.outOverrun s.enc.ob)) := by
  unfold emit
  cases hh : s.enc.half with
  | false =>
    refine .inl ⟨_, rfl, ?_, rfl⟩
    constructor <;> simp [Encoder.pending, hh]
  | true =>
    by_cases ho : s.enc.ob < Config.outSize
    · refine .inl ⟨_, by simp only [if_true, putOut, if_pos ho]; rfl, ?_, by simp⟩
      constructor <;> simp [Encoder.pending, hh, Memory.writeBytes]
    · refine .inr ⟨rfl, by omega, ?_⟩
      simp only [if_true, putOut, if_neg ho]

/-- If `emitAll` answers a next state, it has emitted its nibbles and done nothing else. -/
theorem emitAll_next {ns : List Nibble} {s u : State} (h : emitAll ns s = .next u) : Emits ns 0 s u := by
  induction ns generalizing s with
  | nil => cases h; exact Emits.refl _
  | cons n ns ih =>
    obtain ⟨t, ht, hu⟩ := andThen_eq_next h
    rcases emit_cases n s with ⟨t', ht', he, -⟩ | ⟨-, -, hf⟩
    · rw [ht'] at ht
      cases ht
      exact he.trans (ih hu)
    · rw [hf] at ht; cases ht

/-- `emitAll` answers a next state whenever the bytes it completes fit OUT. -/
theorem emitAll_fits {ns : List Nibble} {s : State}
    (h : s.enc.ob + (s.enc.half.toNat + ns.length) / 2 ≤ Config.outSize) : ∃ u, emitAll ns s = .next u := by
  induction ns generalizing s with
  | nil => exact ⟨s, rfl⟩
  | cons n ns ih =>
    simp only [List.length_cons] at h
    rcases emit_cases n s with ⟨t, ht, he, hh⟩ | ⟨hh, ho, -⟩
    · have hob := he.ob
      rw [length_fullBytes, List.length_append, length_pending] at hob
      have : ∃ u, emitAll ns t = .next u := by
        apply ih
        rw [hob, hh]
        cases hs : s.enc.half <;> simp only [hs] at h ⊢ <;> simp at h ⊢ <;> omega
      obtain ⟨u, hu⟩ := this
      exact ⟨u, by unfold emitAll; rw [ht]; exact hu⟩
    · rw [hh] at h
      simp at h
      omega

/-- If a token runs, it has emitted its nibbles and advanced `pos`. -/
theorem emitToken_next {ns : List Nibble} {m : Nat} {s u : State} (h : emitToken ns m s = .next u) :
    Emits ns m s u := by
  obtain ⟨t, ht, hu⟩ := andThen_eq_next h
  cases hu
  have he := emitAll_next ht
  exact ⟨by rw [he.rest]; rfl, he.seg, by simp [State.advance, he.pos], he.nib, he.ob, he.pending⟩

/-- A token runs whenever the bytes it completes fit OUT. -/
theorem emitToken_fits {ns : List Nibble} {m : Nat} {s : State}
    (h : s.enc.ob + (s.enc.half.toNat + ns.length) / 2 ≤ Config.outSize) : ∃ u, emitToken ns m s = .next u := by
  obtain ⟨t, ht⟩ := emitAll_fits h
  exact ⟨_, by unfold emitToken; rw [ht]; rfl⟩

/-- What the flush does: nothing, or one padded byte. -/
theorem flush_next {s u : State} (h : flush s = .next u) :
    u = { s with
      mem := s.mem.writeBytes (Config.outBase + s.enc.ob) (s.enc.pending.map (joinNibbles · 0))
      enc := { s.enc with ob := s.enc.ob + s.enc.pending.length, half := false } } := by
  unfold flush at h
  cases hh : s.enc.half with
  | false =>
    rw [hh] at h
    cases h
    obtain ⟨c, st, g, f, pl, cl, ol, nc, dc, d, m, sn, e, w, fa, po, ho, re, cd, ac⟩ := s
    obtain ⟨sg, ps, hd, hf, nb, o⟩ := e
    simp only at hh
    subst hh
    simp [Encoder.pending]
  | true =>
    rw [hh] at h
    simp only [if_true, putOut] at h
    split at h
    · cases h; simp [Encoder.pending, hh, Memory.writeBytes]
    · cases h

/-- The flush answers a next state whenever its byte fits OUT. -/
theorem flush_fits {s : State} (h : s.enc.ob + s.enc.half.toNat ≤ Config.outSize) : ∃ u, flush s = .next u := by
  unfold flush
  cases hh : s.enc.half with
  | false => exact ⟨s, rfl⟩
  | true =>
    rw [hh] at h
    simp only [if_true, putOut, Bool.toNat_true] at h ⊢
    rw [if_pos (by omega)]
    exact ⟨_, rfl⟩

end Sys2Proof.Machine
end

