-- ==== Sys2Proof/Laws/Encoder.lean ====
section
/-! SUPPORT. What the encoder's parts can do: the segment table lies inside the input, the chosen token is of one of
five shapes, and the main loop emits the chosen tokens. -/

namespace Sys2Proof.Machine

/-! ### The dictionary lookup (42 R147) -/

theorem dictIndex_some {d : List Byte} {v : Byte} {k : Nat} (h : dictIndex d v = some k) : d[k]? = some v := by
  induction d generalizing k with
  | nil => cases h
  | cons e ds ih =>
    unfold dictIndex at h
    split at h
    · cases h; simp_all
    · cases hd : dictIndex ds v with
      | none => rw [hd] at h; cases h
      | some j =>
        rw [hd] at h
        cases h
        simpa using ih hd

theorem dictIndex_none {d : List Byte} {v : Byte} : dictIndex d v = none ↔ v ∉ d := by
  induction d with
  | nil => simp [dictIndex]
  | cons e ds ih =>
    unfold dictIndex
    split
    · simp_all
    · rename_i h
      simp only [Option.map_eq_none_iff, ih, List.mem_cons, not_or]
      exact ⟨fun h' => ⟨fun e => h e.symm, h'⟩, fun h' => h'.2⟩

theorem inDict_iff {d : List Byte} {v : Byte} : inDict d v = true ↔ v ∈ d := by
  unfold inDict
  rw [Option.isSome_iff_ne_none, ne_eq, dictIndex_none, not_not]

theorem inDict_eq_false {d : List Byte} {v : Byte} : inDict d v = false ↔ v ∉ d := by
  rw [← Bool.not_eq_true, inDict_iff]

/-! ### Runs and segments (43 R161, R162) -/

/-- Every stretch the scan finds lies inside the input and is of one value. -/
theorem runsFrom_inside {start len : Nat} {v : Byte} {pre ys : List Byte} {r : Segment}
    (h : start + len = pre.length) (hl : 1 ≤ len) (hv : ∀ j, j < len → pre[start + j]? = some v)
    (hr : r ∈ runsFrom start v len ys) :
    1 ≤ r.len ∧ r.start + r.len ≤ (pre ++ ys).length ∧
      ∀ j, j < r.len → (pre ++ ys)[r.start + j]? = some r.value := by
  induction ys generalizing start len v pre with
  | nil =>
    simp only [runsFrom, List.mem_singleton] at hr
    subst hr
    simp only [List.append_nil]
    exact ⟨hl, by omega, hv⟩
  | cons y ys ih =>
    have hx : pre ++ y :: ys = (pre ++ [y]) ++ ys := by simp
    unfold runsFrom at hr
    split at hr
    · rename_i hy
      subst hy
      rw [hx]
      refine ih (by simp; omega) (by omega) (fun j hj => ?_) hr
      by_cases hj' : j < len
      · rw [List.getElem?_append_left (by omega)]; exact hv j hj'
      · rw [show start + j = pre.length by omega]; simp
    · rcases List.mem_cons.mp hr with hr | hr
      · subst hr
        refine ⟨hl, by simp; omega, fun j hj => ?_⟩
        simp only at hj ⊢
        rw [List.getElem?_append_left (by omega)]
        exact hv j hj
      · rw [hx]
        refine ih (by simp; omega) (by omega) (fun j hj => ?_) hr
        rw [show start + len + j = pre.length by omega]; simp

theorem runs_inside {x : List Byte} {r : Segment} (hr : r ∈ runs x) :
    1 ≤ r.len ∧ r.start + r.len ≤ x.length ∧ ∀ j, j < r.len → x[r.start + j]? = some r.value := by
  cases x with
  | nil => cases hr
  | cons y ys =>
    have := runsFrom_inside (pre := [y]) (ys := ys) (start := 0) (len := 1) (v := y) (r := r) rfl (by omega)
      (fun j hj => by rw [show j = 0 by omega]; rfl) hr
    simpa using this

/-- A piece of a run: where it starts and how long it is. -/
theorem mem_cutRun {r g : Segment} : g ∈ cutRun r ↔
    ∃ k, 255 * k < r.len ∧ g = ⟨r.start + 255 * k, r.value, min 255 (r.len - 255 * k)⟩ ∧ 2 ≤ g.len := by
  unfold cutRun
  simp only [List.mem_filterMap, List.mem_range, Option.ite_none_right_eq_some, Option.some.injEq, Config.countMax]
  constructor
  · rintro ⟨k, hk, hm, rfl⟩
    exact ⟨k, by omega, rfl, hm⟩
  · rintro ⟨k, hk, rfl, hm⟩
    simp only at hm
    exact ⟨k, by omega, hm, rfl⟩

/-- Every segment has 2 to 255 bytes, lies inside the input and is of one value. -/
theorem segments_inside {x : List Byte} {g : Segment} (hg : g ∈ segments x) :
    2 ≤ g.len ∧ g.len ≤ 255 ∧ g.start + g.len ≤ x.length ∧ ∀ j, j < g.len → x[g.start + j]? = some g.value := by
  obtain ⟨r, hr, hg⟩ := List.mem_flatMap.mp hg
  obtain ⟨-, hr2, hr3⟩ := runs_inside hr
  obtain ⟨k, hk, hge, hlen⟩ := mem_cutRun.mp hg
  subst hge
  simp only at hlen ⊢
  refine ⟨hlen, by omega, by omega, fun j hj => ?_⟩
  rw [show r.start + 255 * k + j = r.start + (255 * k + j) by omega]
  exact hr3 _ (by omega)

theorem segAt_mem {seg : List Segment} {j : Nat} {g : Segment} (h : segAt seg j = some g) :
    g ∈ seg ∧ g.start = j := by
  unfold segAt at h
  exact ⟨List.mem_of_find?_eq_some h, by simpa using List.find?_some h⟩

theorem qualA_some {d : List Byte} {seg : List Segment} {j : Nat} {g : Segment} (h : qualA d seg j = some g) :
    segAt seg j = some g ∧ g.value ∉ d ∧ 3 ≤ g.len := by
  unfold qualA at h
  rw [Option.filter_eq_some_iff] at h
  obtain ⟨h1, h2⟩ := h
  simp only [Bool.and_eq_true, Bool.not_eq_true', decide_eq_true_eq, inDict_eq_false] at h2
  exact ⟨h1, h2.1, h2.2⟩

theorem qualB_some {d : List Byte} {seg : List Segment} {j : Nat} {g : Segment} (h : qualB d seg j = some g) :
    segAt seg j = some g ∧ g.value ∈ d ∧ 4 ≤ g.len := by
  unfold qualB at h
  rw [Option.filter_eq_some_iff] at h
  obtain ⟨h1, h2⟩ := h
  simp only [Bool.and_eq_true, decide_eq_true_eq, inDict_iff] at h2
  exact ⟨h1, h2.1, h2.2⟩

/-! ### The scan of rule c (43 R168) -/

/-- The scanned span stays in its cap and in the input, holds no dictionary byte and meets no start of a qualifying
rule-a segment. -/
theorem spanFrom_spec (d : List Byte) (seg : List Segment) (cap p : Nat) (ys : List Byte) :
    spanFrom d seg cap p ys ≤ cap ∧ spanFrom d seg cap p ys ≤ ys.length ∧
      ∀ k, k < spanFrom d seg cap p ys → (∃ v, ys[k]? = some v ∧ v ∉ d) ∧ qualA d seg (p + k) = none := by
  induction ys generalizing cap p with
  | nil => cases cap <;> simp [spanFrom]
  | cons y ys ih =>
    cases cap with
    | zero => simp [spanFrom]
    | succ cap =>
      unfold spanFrom
      split
      · simp
      · rename_i hq
        simp only [Bool.or_eq_true, not_or, Bool.not_eq_true, inDict_eq_false, Option.isSome_eq_false_iff,
          Option.isNone_iff_eq_none] at hq
        obtain ⟨h1, h2, h3⟩ := ih cap (p + 1)
        refine ⟨by omega, by simp; omega, fun k hk => ?_⟩
        cases k with
        | zero => exact ⟨⟨y, by simp, hq.1⟩, hq.2⟩
        | succ k =>
          have := h3 k (by omega)
          rwa [show p + 1 + k = p + (k + 1) by omega] at this

/-- A scan that reaches neither its cap nor the end of the input stops at a dictionary byte or at the start of a
qualifying rule-a segment. -/
theorem spanFrom_stop (d : List Byte) (seg : List Segment) (cap p : Nat) (ys : List Byte)
    (h : spanFrom d seg cap p ys < cap) {v : Byte} (hv : ys[spanFrom d seg cap p ys]? = some v) :
    v ∈ d ∨ (qualA d seg (p + spanFrom d seg cap p ys)).isSome = true := by
  induction ys generalizing cap p with
  | nil => simp at hv
  | cons y ys ih =>
    cases cap with
    | zero => omega
    | succ cap =>
      unfold spanFrom at h hv ⊢
      split
      · rename_i hq
        rw [if_pos hq] at hv
        simp only [List.getElem?_cons_zero, Option.some.injEq] at hv
        subst hv
        simpa [inDict_iff] using hq
      · rename_i hq
        rw [if_neg hq] at h hv
        rw [List.getElem?_cons_succ] at hv
        have := ih cap (p + 1) (by omega) hv
        rwa [show p + 1 + spanFrom d seg cap (p + 1) ys = p + (spanFrom d seg cap (p + 1) ys + 1) by omega] at this

/-! ### The chosen token (43 R165) -/

theorem countField_toNat {n : Nat} (h : n ≤ 255) : (countField n).toNat = n := by
  unfold countField
  rw [BitVec.toNat_ofNat, Nat.mod_eq_of_lt (by omega)]

theorem indexNibble_toNat {k : Nat} (h : k < 16) : (indexNibble k).toNat = k := by
  unfold indexNibble
  rw [BitVec.toNat_ofNat, Nat.mod_eq_of_lt (by omega)]

/-- What the priority rules can choose at `pos`: each rule's token, under that rule's condition and the failure of the
rules before it. -/
theorem chooseToken_cases {d x : List Byte} {seg : List Segment} {pos : Nat} {t : Instr}
    (h : chooseToken d x seg pos = some t) :
    ∃ v, x[pos]? = some v ∧
      ((∃ g, qualA d seg pos = some g ∧ t = .runRepeat (countField g.len) g.value) ∨
       (qualA d seg pos = none ∧ ∃ g k, qualB d seg pos = some g ∧ dictIndex d g.value = some k ∧
          t = .shortRunRepeat (countField g.len) (indexNibble k)) ∨
       (qualA d seg pos = none ∧ qualB d seg pos = none ∧
         ((2 < span d x seg pos ∧
            t = .rawRun (countField (span d x seg pos)) ((x.drop pos).take (span d x seg pos))) ∨
          (¬2 < span d x seg pos ∧ ∃ k, dictIndex d v = some k ∧ t = .dictRef (indexNibble k)) ∨
          (¬2 < span d x seg pos ∧ dictIndex d v = none ∧ t = .rawByte v)))) := by
  unfold chooseToken at h
  obtain ⟨v, hv, ht⟩ := Option.map_eq_some_iff.mp h
  refine ⟨v, hv, ?_⟩
  subst ht
  unfold tokenRuleA
  cases ha : qualA d seg pos with
  | some g => exact .inl ⟨g, rfl, rfl⟩
  | none =>
    refine .inr ?_
    simp only [true_and]
    unfold tokenRuleB
    cases hb : qualB d seg pos with
    | some g =>
      refine .inl ?_
      obtain ⟨-, hgd, -⟩ := qualB_some hb
      cases hk : dictIndex d g.value with
      | none => exact absurd hgd (dictIndex_none.mp hk)
      | some k => exact ⟨g, k, rfl, hk, by simp [hk]⟩
    | none =>
      refine .inr ?_
      simp only [true_and]
      unfold tokenRuleC
      by_cases hs : 2 < span d x seg pos
      · exact .inl ⟨hs, by simp [hs]⟩
      · refine .inr ?_
        simp only [hs, if_false, not_false_iff, true_and]
        unfold tokenRuleD
        cases hk : dictIndex d v with
        | some k => exact .inl ⟨k, rfl, rfl⟩
        | none => exact .inr ⟨rfl, rfl⟩

/-- A chosen token runs by the shared emission of its nibbles. -/
theorem runToken_eq {t : Instr} (h : t.isToken = true) (s : State) :
    runToken t s = emitToken (tokenNibbles t) t.count s := by
  cases t <;> first | rfl | cases h

/-! ### The main loop (43 R179) -/

/-- The bytes a list of tokens stands for, in number. -/
def tokenTotal (ts : List Instr) : Nat := (ts.map Instr.count).sum

theorem chooseToken_isToken {d x : List Byte} {seg : List Segment} {pos : Nat} {t : Instr}
    (h : chooseToken d x seg pos = some t) : t.isToken = true := by
  obtain ⟨v, -, ⟨g, -, rfl⟩ | ⟨-, g, k, -, -, rfl⟩ | ⟨-, -, ⟨-, rfl⟩ | ⟨-, k, -, rfl⟩ | ⟨-, -, rfl⟩⟩⟩ :=
    chooseToken_cases h <;> rfl

/-- If the loop answers a next state, it has emitted the chosen tokens and done nothing else. -/
theorem encodeLoop_next {d x : List Byte} {fuel : Nat} {s u : State} (h : encodeLoop d x fuel s = .next u) :
    Emits (streamNibbles (tokensFrom d x s.enc.seg fuel s.enc.pos)) (tokenTotal (tokensFrom d x s.enc.seg fuel s.enc.pos))
      s u := by
  induction fuel generalizing s with
  | zero => cases h; exact Emits.refl _
  | succ fuel ih =>
    unfold encodeLoop at h
    unfold tokensFrom
    cases hc : chooseToken d x s.enc.seg s.enc.pos with
    | none => rw [hc] at h; cases h; exact Emits.refl _
    | some t =>
      rw [hc] at h
      obtain ⟨w, hw, hu⟩ := andThen_eq_next h
      rw [runToken_eq (chooseToken_isToken hc)] at hw
      have he := emitToken_next hw
      have hr := ih hu
      rw [he.seg, he.pos] at hr
      exact he.trans hr

/-- The loop answers a next state whenever the bytes of the chosen tokens fit OUT. -/
theorem encodeLoop_fits {d x : List Byte} {fuel : Nat} {s : State}
    (h : s.enc.ob + (s.enc.half.toNat + (streamNibbles (tokensFrom d x s.enc.seg fuel s.enc.pos)).length) / 2
      ≤ Config.outSize) : ∃ u, encodeLoop d x fuel s = .next u := by
  induction fuel generalizing s with
  | zero => exact ⟨s, rfl⟩
  | succ fuel ih =>
    unfold tokensFrom at h
    unfold encodeLoop
    cases hc : chooseToken d x s.enc.seg s.enc.pos with
    | none => exact ⟨s, rfl⟩
    | some t =>
      simp only [hc] at h
      simp only [streamNibbles, List.flatMap_cons, List.length_append] at h
      obtain ⟨w, hw⟩ := emitToken_fits (ns := tokenNibbles t) (m := t.count) (s := s) (by omega)
      have he := emitToken_next hw
      have hp : w.enc.half.toNat = (s.enc.half.toNat + (tokenNibbles t).length) % 2 := by
        rw [← length_pending, he.pending, length_leftover, List.length_append, length_pending]
      have ho : w.enc.ob = s.enc.ob + (s.enc.half.toNat + (tokenNibbles t).length) / 2 := by
        rw [he.ob, length_fullBytes, List.length_append, length_pending]
      obtain ⟨u, hu⟩ := ih (s := w) (by
        rw [he.seg, he.pos, hp, ho]
        simp only [streamNibbles]
        omega)
      exact ⟨u, by simp only [runToken_eq (chooseToken_isToken hc), hw, andThen_next]; exact hu⟩

end Sys2Proof.Machine
end

