-- ==== Sys2Proof/Laws/Step.lean ====
section
/-! SUPPORT. What the host's accesses, the commands and one step can do, each said once. -/

namespace Sys2Proof.Machine

/-! ### Words on the bus -/

theorem geomWord_width (g : Geom) : g.word.extractLsb' 0 8 = g.width := by
  apply BitVec.eq_of_getLsbD_eq
  intro i hi
  have h := BitVec.getLsbD_append (x := (0 : BitVec 16) ++ g.height) (y := g.width) (i := i)
  rw [if_pos hi] at h
  rw [BitVec.getLsbD_extractLsb', Nat.zero_add, decide_eq_true hi, Bool.true_and]
  exact h

theorem geomWord_height (g : Geom) : g.word.extractLsb' 8 8 = g.height := by
  apply BitVec.eq_of_getLsbD_eq
  intro i hi
  have h := BitVec.getLsbD_append (x := (0 : BitVec 16) ++ g.height) (y := g.width) (i := 8 + i)
  have h' := BitVec.getLsbD_append (x := (0 : BitVec 16)) (y := g.height) (i := i)
  rw [if_pos hi] at h'
  rw [if_neg (show ¬8 + i < 8 by omega), Nat.add_sub_cancel_left, h'] at h
  rw [BitVec.getLsbD_extractLsb', decide_eq_true hi, Bool.true_and]
  exact h

/-- ERR_CODE in the STATUS word that the host reads. -/
theorem statusWord_errCode (t : Status) : t.word.extractLsb' 4 4 = t.errCode.bits := by
  obtain ⟨b, d, c, e⟩ := t
  cases b <;> cases d <;> cases c <;> cases e <;> rfl

theorem statusWord_compress (t : Status) : t.word.getLsbD 2 = t.compress := by
  obtain ⟨b, d, c, e⟩ := t
  cases b <;> cases d <;> cases c <;> cases e <;> rfl

/-- The byte that a byte write carries. -/
theorem setWidth_low (b : Byte) : (b.setWidth 32).extractLsb' 0 8 = b := by
  apply BitVec.eq_of_getLsbD_eq
  intro i hi
  simp [BitVec.getLsbD_setWidth, hi]
  intro _; omega

/-! ### Bus accesses -/

/-- An access the bus takes outside the register window has every byte in a buffer. -/
theorem busAccepts_inBuffer {a : Nat} {size : Size} (h : busAccepts a size = true) (hw : windowOf a ≠ some .regs) :
    ∀ k, k < size.bytes → inBuffer (a + k) = true := by
  intro k hk
  unfold busAccepts at h
  simp only [Bool.and_eq_true] at h
  have hi := h.1.1
  unfold insideWindow at hi
  simp only [Bool.and_eq_true, List.all_eq_true, List.mem_range, decide_eq_true_eq] at hi
  have h1 := hi.2 k hk
  have h2 := hi.1
  rw [← h1] at h2 hw
  unfold windowOf at h2 hw
  unfold inBuffer
  by_cases c1 : a + k < Config.regSize
  · simp [c1] at hw
  · by_cases c2 : Config.pixBase ≤ a + k ∧ a + k < Config.pixBase + Config.pixSize
    · simp [c2]
    · by_cases c3 : Config.colBase ≤ a + k ∧ a + k < Config.colBase + Config.colSize
      · simp [c3]
      · by_cases c4 : Config.outBase ≤ a + k ∧ a + k < Config.outBase + Config.outSize
        · simp [c4]
        · rw [if_neg c1, if_neg c2, if_neg c3, if_neg c4] at h2
          simp at h2

/-- A read the bus answers changes the reply and, as a STATUS read that returns BUSY = 0, closes the window. -/
theorem hostRead_next {a : Addr} {size : Size} {s u : State} (h : hostRead a size s = .next u) :
    ∃ w, (u = { s with reply := .data w } ∨ u = { s.statusSeen with reply := .data w }) := by
  unfold hostRead at h
  split at h
  · split at h
    · unfold readRegister at h
      split at h
      · cases h
      · cases h
        by_cases hr : regAt a.toNat = .status
        · exact ⟨s.readReg (regAt a.toNat), .inr (by simp only [if_pos hr])⟩
        · exact ⟨s.readReg (regAt a.toNat), .inl (by simp only [if_neg hr])⟩
    · unfold readBuffer at h
      split at h
      · cases h
      · split at h
        · cases h
        · cases h; exact ⟨_, .inl rfl⟩
  · cases h

/-- A write the bus takes is a register write, a CMD write only outside the window and not BUSY, or a write of buffer
bytes outside the window. -/
theorem hostWrite_next {a : Addr} {size : Size} {w : Word} {s u : State} (h : hostWrite a size w s = .next u) :
    (∃ r, u = { s.writeReg r w with reply := .ack } ∧ (r = .cmd → s.win = false ∧ s.status.busy = false)) ∨
    (s.win = false ∧ u = { s with mem := s.mem.writeBytes a.toNat (wordBytes w size.bytes), reply := .ack } ∧
      ∀ k, k < size.bytes → inBuffer (a.toNat + k) = true) := by
  unfold hostWrite at h
  split at h
  · rename_i hb
    split at h
    · unfold writeRegister at h
      split at h
      · cases h
      · rename_i hz
        cases h
        refine .inl ⟨_, rfl, fun hr => ?_⟩
        rw [hr] at hz
        simpa [State.windowBars, barredInWindow] using hz
    · rename_i hw
      unfold writeBuffer at h
      split at h
      · cases h
      · rename_i hwin
        cases h
        exact .inr ⟨by simpa using hwin, rfl, busAccepts_inBuffer hb hw⟩
  · cases h

/-- A read of a register outside the window. -/
theorem hostRead_register {a : Addr} {r : Reg} {s : State} (hb : busAccepts a.toNat .word = true)
    (hw : windowOf a.toNat = some .regs) (hr : regAt a.toNat = r) (hwin : s.win = false) :
    hostRead a .word s = .next { s with reply := .data (s.readReg r) } := by
  unfold hostRead readRegister
  rw [if_pos hb, if_pos hw, hr, if_neg (by simp [hwin])]
  by_cases hs : r = .status
  · have : s.statusSeen = s := by
      unfold State.statusSeen
      rw [hwin, Bool.false_and, ← hwin]
    simp only [if_pos hs, this]
  · simp only [if_neg hs]

/-- A write of a register that the window does not bar. -/
theorem hostWrite_register {a : Addr} {r : Reg} {w : Word} {s : State} (hb : busAccepts a.toNat .word = true)
    (hw : windowOf a.toNat = some .regs) (hr : regAt a.toNat = r) (hwin : (s.windowBars r && barredInWindow r) = false) :
    hostWrite a .word w s = .next { s.writeReg r w with reply := .ack } := by
  unfold hostWrite writeRegister
  rw [if_pos hb, if_pos hw, hr, if_neg (by simp [hwin])]

/-- A read of written buffer bytes outside the window. -/
theorem hostRead_buffer {a : Addr} {size : Size} {bs : List Byte} {s : State} (hb : busAccepts a.toNat size = true)
    (hw : windowOf a.toNat ≠ some .regs) (hwin : s.win = false) (hr : s.mem.readBytes a.toNat size.bytes = .ok bs) :
    hostRead a size s = .next { s with reply := .data (BitVec.ofNat 32 (littleEndian bs)) } := by
  unfold hostRead readBuffer
  rw [if_pos hb, if_neg hw, if_neg (by simp [hwin]), hr]

/-- A write of buffer bytes outside the window. -/
theorem hostWrite_buffer {a : Addr} {size : Size} {w : Word} {s : State} (hb : busAccepts a.toNat size = true)
    (hw : windowOf a.toNat ≠ some .regs) (hwin : s.win = false) :
    hostWrite a size w s =
      .next { s with mem := s.mem.writeBytes a.toNat (wordBytes w size.bytes), reply := .ack } := by
  unfold hostWrite writeBuffer
  rw [if_pos hb, if_neg hw, if_neg (by simp [hwin])]

/-- In the window an access of a register or buffer byte that the window bars is a hazard. -/
theorem hostAccess_hazard {a : Addr} {size : Size} {s : State} (hb : busAccepts a.toNat size = true) (hwin : s.win = true)
    (hr : windowOf a.toNat = some .regs → barredInWindow (regAt a.toNat) = true) :
    hostRead a size s = .fault (.hazard a) ∧ ∀ w, hostWrite a size w s = .fault (.hazard a) := by
  unfold hostRead hostWrite readRegister writeRegister readBuffer writeBuffer State.windowBars
  simp only [hb, if_true, hwin, Bool.true_and, Bool.true_or]
  by_cases h : windowOf a.toNat = some .regs
  · simp only [if_pos h, hr h, if_true, implies_true, and_self]
  · simp only [if_neg h, implies_true, and_self]

/-! ### The commands -/

/-- PACK answers a next state in two ways: the SHAPE error, or the packed columns of the pixels it read. -/
theorem execPack_next {s u : State} (h : execPack s = .next u) :
    (s.snap.pixLen.toNat ≠ s.snap.width * s.snap.height ∧ u = s.complete .shape) ∨
    (s.snap.pixLen.toNat = s.snap.width * s.snap.height ∧
      ∃ pix, s.mem.readBytes Config.pixBase (s.snap.width * s.snap.height) = .ok pix ∧
        u = { s with
          mem := s.mem.writeBytes Config.colBase (packColumns s.snap.width s.snap.height s.snap.fg pix)
          colLen := BitVec.ofNat 32 (s.snap.width * bandCount s.snap.height)
          status := s.status.completed .none }) := by
  simp only [execPack] at h
  split at h
  · rename_i hn
    cases h
    exact .inl ⟨hn, rfl⟩
  · rename_i hn
    refine .inr ⟨by simpa using hn, ?_⟩
    split at h
    · cases h
    · rename_i pix hp
      cases h
      exact ⟨pix, hp, rfl⟩

/-- ENCODE answers a next state in three ways: LEN, DICT, or the emission of the chosen tokens, the flush and the
results. -/
theorem execEncode_next {s u : State} (h : execEncode s = .next u) :
    (Config.colSize < s.snap.inputLen ∧ u = s.complete .len) ∨
    (¬Config.colSize < s.snap.inputLen ∧ s.snap.dictValid = false ∧ u = s.complete .dict) ∨
    (¬Config.colSize < s.snap.inputLen ∧ s.snap.dictValid = true ∧
      ∃ x, s.mem.readBytes Config.colBase s.snap.inputLen = .ok x ∧
        ∃ t v, Emits (streamNibbles (tokenize s.snap.dictionary x)) (tokenTotal (tokenize s.snap.dictionary x))
            { s with enc := { Encoder.initial with seg := segments x } } t ∧
          flush t = .next v ∧ u = finishEncode x.length v) := by
  simp only [execEncode] at h
  split at h
  · rename_i hl
    cases h
    exact .inl ⟨hl, rfl⟩
  · rename_i hl
    split at h
    · rename_i hd
      cases h
      exact .inr (.inl ⟨hl, hd, rfl⟩)
    · rename_i hd
      split at h
      · cases h
      · rename_i x hx
        obtain ⟨t, ht, h⟩ := andThen_eq_next h
        obtain ⟨v, hv, h⟩ := andThen_eq_next h
        cases h
        exact .inr (.inr ⟨hl, by simpa using hd, x, hx, t, v, encodeLoop_next ht, hv, rfl⟩)

/-- The columns of a frame: WIDTH bytes for each band. -/
theorem length_packColumns (width height : Nat) (fg : Byte) (pix : List Byte) :
    (packColumns width height fg pix).length = width * bandCount height := by
  unfold packColumns
  rw [List.length_flatMap]
  simp [Nat.mul_comm]

/-- A frame's columns fit the 8160 bytes of 41 R135, and its pixels PIX. -/
theorem frame_bounds (w h : Byte) : w.toNat * bandCount h.toNat ≤ 8160 ∧ w.toNat * h.toNat ≤ 65025 := by
  have hw := w.isLt
  have hh := h.isLt
  unfold bandCount Config.bandHeight
  exact ⟨Nat.mul_le_mul (show w.toNat ≤ 255 by omega) (show (h.toNat + 7) / 8 ≤ 32 by omega),
    Nat.mul_le_mul (show w.toNat ≤ 255 by omega) (show h.toNat ≤ 255 by omega)⟩

/-- PACK of a matching, written frame. -/
theorem execPack_ok {s : State} {pix : List Byte} (h : s.snap.pixLen.toNat = s.snap.width * s.snap.height)
    (hp : s.mem.readBytes Config.pixBase (s.snap.width * s.snap.height) = .ok pix) :
    execPack s = .next { s with
      mem := s.mem.writeBytes Config.colBase (packColumns s.snap.width s.snap.height s.snap.fg pix)
      colLen := BitVec.ofNat 32 (s.snap.width * bandCount s.snap.height)
      status := s.status.completed .none } := by
  unfold execPack
  simp only [h, ne_eq, not_true, if_false, hp]

/-- ENCODE of a written input whose stream fits OUT, under a valid dictionary. -/
theorem execEncode_ok {s : State} {x : List Byte} (hl : s.snap.inputLen ≤ Config.colSize) (hd : s.snap.dictValid = true)
    (hx : s.mem.readBytes Config.colBase s.snap.inputLen = .ok x)
    (hfit : (packedStream s.snap.dictionary x).length ≤ Config.outSize) :
    execEncode s = .next { s with
      mem := s.mem.writeBytes Config.outBase (packedStream s.snap.dictionary x)
      outLen := BitVec.ofNat 32 (packedStream s.snap.dictionary x).length
      nibCount := BitVec.ofNat 32 (streamNibbles (tokenize s.snap.dictionary x)).length
      status := Status.completed
        { s.status with compress := compressFlag (packedStream s.snap.dictionary x).length x.length } .none
      enc := Encoder.initial } := by
  generalize hd' : s.snap.dictionary = d at hfit ⊢
  have hlen : (packedStream d x).length = ((streamNibbles (tokenize d x)).length + 1) / 2 := length_packNibbles _
  obtain ⟨t, ht⟩ :
      ∃ t, encodeLoop d x x.length { s with enc := { Encoder.initial with seg := segments x } } = .next t := by
    apply encodeLoop_fits
    show 0 + (0 + (streamNibbles (tokenize d x)).length) / 2 ≤ Config.outSize
    omega
  have he := encodeLoop_next ht
  have e1 : t.enc.pending = leftover (streamNibbles (tokenize d x)) := he.pending
  have e2 : t.enc.ob = (fullBytes (streamNibbles (tokenize d x))).length := he.ob.trans (Nat.zero_add _)
  have e3 : t.enc.nib = (streamNibbles (tokenize d x)).length := he.nib.trans (Nat.zero_add _)
  have e4 : t.mem = s.mem.writeBytes Config.outBase (fullBytes (streamNibbles (tokenize d x))) := by rw [he.rest]; rfl
  have e5 : packedStream d x =
      fullBytes (streamNibbles (tokenize d x)) ++ t.enc.pending.map (joinNibbles · 0) := by
    rw [e1]; exact packNibbles_eq _
  obtain ⟨v, hv⟩ : ∃ v, flush t = .next v := by
    apply flush_fits
    have h1 := congrArg List.length e5
    rw [List.length_append, List.length_map, length_pending] at h1
    omega
  have hv' := flush_next hv
  have hm : v.mem = s.mem.writeBytes Config.outBase (packedStream d x) := by
    rw [hv', e5, memory_writeBytes_append, ← e4, e2]
  have ho : v.enc.ob = (packedStream d x).length := by
    rw [hv', e5, List.length_append, List.length_map, ← e2]
  have hn : v.enc.nib = (streamNibbles (tokenize d x)).length := by
    rw [hv']; exact e3
  have hs : v = { s with mem := v.mem, enc := v.enc } := by
    rw [hv', he.rest]
  unfold execEncode
  rw [if_neg (by omega), if_neg (by simp [hd])]
  simp only [hx, encodeInput, hd', ht, andThen_next, hv]
  unfold finishEncode
  rw [ho, hn, hs, hm]

/-- A token's next state is its emission. -/
theorem exec_token_next {i : Instr} {s u : State} (hi : i.isToken = true) (h : exec i s = .next u) :
    Emits (tokenNibbles i) i.count s u := by
  cases i with
  | nop => cases hi
  | pack => cases hi
  | encode => cases hi
  | dictRef k => exact emitToken_next h
  | rawRun n values => exact emitToken_next h
  | shortRunRepeat len k => exact emitToken_next h
  | runRepeat len v => exact emitToken_next h
  | rawByte v => exact emitToken_next h

/-! ### One step -/

/-- The core's step runs the instruction its word decodes to (40_control R112). -/
theorem coreStep_of_decode {s : State} {i : Instr} (h : decodeCommand s.snap.cmd = .ok i) : coreStep s = exec i s := by
  unfold coreStep
  rw [h]


/-- A POLL that reads BUSY = 0 is its read. -/
theorem serveOp_poll_idle {s t : State} (h : hostRead 0x00008 .word s = .next t) (hb : s.status.busy = false) :
    serveOp .poll s = .next t := by
  unfold serveOp
  rw [h]
  simp only [andThen_next, hb, Bool.false_eq_true, if_false]

/-- What the host's turn can do: nothing, a fault recorded, or its next operation. -/
theorem hostStep_next {s u : State} (h : hostStep s = .next u) :
    (s.hostOps = [] ∧ u = s) ∨
    ∃ op rest, s.hostOps = op :: rest ∧
      (serveOp op (s.hostTurn rest) = .next u ∨
        ∃ f, serveOp op (s.hostTurn rest) = .fault f ∧
          u = { s.hostTurn rest with reply := replyOnFault f }.recordFault f) := by
  unfold hostStep at h
  split at h
  · rename_i ho
    cases h
    exact .inl ⟨ho, rfl⟩
  · rename_i op rest ho
    refine .inr ⟨op, rest, ho, ?_⟩
    split at h
    · rename_i t ht
      cases h
      exact .inl ht
    · rename_i f hf
      cases h
      exact .inr ⟨f, hf, rfl⟩
    · cases h

theorem settle_next {s u : State} {o : Result} (h : settle s o = .next u) :
    o = .next u ∨ ∃ f, o = .fault f ∧ u = s.recordFault f := by
  cases o with
  | next t => cases h; exact .inl rfl
  | fault f => cases h; exact .inr ⟨f, rfl, rfl⟩
  | refused r => cases h

/-- A step with a fault recorded. -/
theorem step_fault {s : State} {f : Fault} {fs : List Fault} (h : s.faults = f :: fs) : step s = .fault f := by
  unfold step
  rw [h]

/-- A step that runs the token at the port. -/
theorem step_port {s : State} (hf : s.faults = []) (hp : s.port ≠ []) : step s = settle s (portStep s) := by
  unfold step
  rw [hf]
  exact if_pos hp

/-- A step at the core's turn. -/
theorem step_core {s : State} (hf : s.faults = []) (hp : s.port = []) (hc : s.coreReady = true) :
    step s = settle s (coreStep s) := by
  unfold step
  rw [hf, hp, hc]
  rfl

/-- A step at the host's turn. -/
theorem step_host {s : State} (hf : s.faults = []) (hp : s.port = []) (hc : s.coreReady = false) :
    step s = hostStep s := by
  unfold step
  rw [hf, hp, hc]
  rfl

/-- The host's turn with an operation that is served. -/
theorem hostStep_of_next {s t : State} {op : HostOp} {rest : List HostOp} (h : s.hostOps = op :: rest)
    (ht : serveOp op (s.hostTurn rest) = .next t) : hostStep s = .next t := by
  unfold hostStep
  rw [h]
  simp only [ht]

/-- The host's turn with an operation that faults. -/
theorem hostStep_of_fault {s : State} {op : HostOp} {rest : List HostOp} {f : Fault} (h : s.hostOps = op :: rest)
    (hf : serveOp op (s.hostTurn rest) = .fault f) :
    hostStep s = .next ({ s.hostTurn rest with reply := replyOnFault f }.recordFault f) := by
  unfold hostStep
  rw [h]
  simp only [hf]

/-- What one step can do: with no fault recorded, the token at the port, the core's step or the host's turn. -/
theorem step_next {s u : State} (h : step s = .next u) :
    s.faults = [] ∧
      ((s.port ≠ [] ∧ (portStep s = .next u ∨ ∃ f, portStep s = .fault f ∧ u = s.recordFault f)) ∨
       (s.port = [] ∧ s.coreReady = true ∧
          (coreStep s = .next u ∨ ∃ f, coreStep s = .fault f ∧ u = s.recordFault f)) ∨
       (s.port = [] ∧ s.coreReady = false ∧ hostStep s = .next u)) := by
  unfold step at h
  split at h
  · cases h
  · rename_i hf
    refine ⟨hf, ?_⟩
    split at h
    · rename_i hp
      exact .inl ⟨hp, settle_next h⟩
    · rename_i hp
      have hp' : s.port = [] := by simpa using hp
      split at h
      · rename_i hc
        exact .inr (.inl ⟨hp', hc, settle_next h⟩)
      · rename_i hc
        exact .inr (.inr ⟨hp', by simpa using hc, h⟩)

end Sys2Proof.Machine
end

