-- ==== Sys2Proof/Laws/HostRun.lean ====
section
/-! SUPPORT. What the accesses of Machine/HostRun.lean do, each said once, up to the model's own fields of the host (its
list, the reply, the core's delay and the count of commands). -/

namespace Sys2Proof.Machine

/-- `s` with the model's own fields of the host taken from `h`. -/
def State.withHost (s h : State) : State :=
  { s with hostOps := h.hostOps, reply := h.reply, coreDelay := h.coreDelay, accepted := h.accepted }

/-- The accesses bring the NSE from `s` to `u`, whatever the host's fields hold. -/
def Takes (ops : List HostOp) (s u : State) : Prop :=
  ∀ h, ∃ h', accesses ops (s.withHost h) = .ok (u.withHost h')

/-- The host's action reads `v` and brings the NSE from `s` to `u`, whatever the host's fields hold. -/
def Gives {β : Type} (f : State → Except HostError (β × State)) (s : State) (v : β) (u : State) : Prop :=
  ∀ h, ∃ h', f (s.withHost h) = .ok (v, u.withHost h')

@[simp] theorem withHost_ctrl (s h : State) : (s.withHost h).ctrl = s.ctrl := rfl
@[simp] theorem withHost_status (s h : State) : (s.withHost h).status = s.status := rfl
@[simp] theorem withHost_geom (s h : State) : (s.withHost h).geom = s.geom := rfl
@[simp] theorem withHost_fg (s h : State) : (s.withHost h).fg = s.fg := rfl
@[simp] theorem withHost_pixLen (s h : State) : (s.withHost h).pixLen = s.pixLen := rfl
@[simp] theorem withHost_colLen (s h : State) : (s.withHost h).colLen = s.colLen := rfl
@[simp] theorem withHost_outLen (s h : State) : (s.withHost h).outLen = s.outLen := rfl
@[simp] theorem withHost_nibCount (s h : State) : (s.withHost h).nibCount = s.nibCount := rfl
@[simp] theorem withHost_dictCnt (s h : State) : (s.withHost h).dictCnt = s.dictCnt := rfl
@[simp] theorem withHost_dict (s h : State) : (s.withHost h).dict = s.dict := rfl
@[simp] theorem withHost_mem (s h : State) : (s.withHost h).mem = s.mem := rfl
@[simp] theorem withHost_snap (s h : State) : (s.withHost h).snap = s.snap := rfl
@[simp] theorem withHost_enc (s h : State) : (s.withHost h).enc = s.enc := rfl
@[simp] theorem withHost_win (s h : State) : (s.withHost h).win = s.win := rfl
@[simp] theorem withHost_faults (s h : State) : (s.withHost h).faults = s.faults := rfl
@[simp] theorem withHost_port (s h : State) : (s.withHost h).port = s.port := rfl
@[simp] theorem withHost_hostOps (s h : State) : (s.withHost h).hostOps = h.hostOps := rfl
@[simp] theorem withHost_reply (s h : State) : (s.withHost h).reply = h.reply := rfl
@[simp] theorem withHost_coreDelay (s h : State) : (s.withHost h).coreDelay = h.coreDelay := rfl
@[simp] theorem withHost_accepted (s h : State) : (s.withHost h).accepted = h.accepted := rfl

theorem Takes.nil (s : State) : Takes [] s s := fun h => ⟨h, rfl⟩

theorem accesses_append (ops ops' : List HostOp) (s : State) :
    accesses (ops ++ ops') s = (accesses ops s).bind (accesses ops') := by
  induction ops generalizing s with
  | nil => rfl
  | cons op ops ih =>
    simp only [List.cons_append, accesses]
    cases access op s with
    | error e => rfl
    | ok t => exact ih t

theorem Takes.append {ops ops' : List HostOp} {s t u : State} (h : Takes ops s t) (h' : Takes ops' t u) :
    Takes (ops ++ ops') s u := by
  intro k
  obtain ⟨k1, h1⟩ := h k
  obtain ⟨k2, h2⟩ := h' k1
  exact ⟨k2, by rw [accesses_append, h1]; exact h2⟩

theorem Takes.cons {op : HostOp} {ops : List HostOp} {s t u : State} (h : Takes [op] s t) (h' : Takes ops t u) :
    Takes (op :: ops) s u := h.append h'

/-- One access that the host's turn serves, and that leaves the NSE IDLE with an empty record. -/
theorem access_ok {op : HostOp} {s t : State} (hq : s.Quiet)
    (ht : serveOp op (State.hostTurn { s with hostOps := [op] } []) = .next t) (hf : t.faults = [])
    (hb : t.status.busy = false) : access op s = .ok t := by
  have hc : State.coreReady { s with hostOps := [op] } = false := by
    unfold State.coreReady
    rw [hq.busy]
    rfl
  unfold access goOn
  rw [step_host (s := { s with hostOps := [op] }) hq.faults hq.port hc, hostStep_of_next rfl ht]
  simp only [hf, hb, Bool.false_eq_true, if_false]

theorem accesses_one {op : HostOp} {s t : State} (h : access op s = .ok t) : accesses [op] s = .ok t := by
  unfold accesses
  rw [h]
  rfl

theorem quiet_withHost {s : State} (h : State) (hq : s.Quiet) : (s.withHost h).Quiet :=
  ⟨hq.faults, hq.port, hq.busy, hq.window⟩

/-- A host write that the bus takes and that starts no command. -/
theorem takes_write {a : Addr} {size : Size} {w : Word} {s u : State} (hq : s.Quiet) (hf : u.faults = [])
    (hb : u.status.busy = false)
    (hw : ∀ h, hostWrite a size w (s.withHost h) = .next { u.withHost h with reply := .ack }) :
    Takes [.write a size w] s u := by
  intro h
  have h1 := hw { h with hostOps := [], coreDelay := h.coreDelay - 1 }
  refine ⟨{ h with hostOps := [], coreDelay := h.coreDelay - 1, reply := .ack }, ?_⟩
  exact accesses_one (access_ok (op := .write a size w) (quiet_withHost h hq) h1 hf hb)

/-- A host read that the bus answers with data. -/
theorem gives_fetchWord {a : Addr} {size : Size} {v : Word} {s u : State} (hq : s.Quiet) (hf : u.faults = [])
    (hb : u.status.busy = false)
    (hr : ∀ h, hostRead a size (s.withHost h) = .next { u.withHost h with reply := .data v }) :
    Gives (fetchWord a size) s v u := by
  intro h
  have h1 := hr { h with hostOps := [], coreDelay := h.coreDelay - 1 }
  refine ⟨{ h with hostOps := [], coreDelay := h.coreDelay - 1, reply := .data v }, ?_⟩
  unfold fetchWord
  rw [access_ok (op := .read a size) (quiet_withHost h hq) h1 hf hb]
  rfl

/-- A write of a register other than CMD at its address. -/
theorem takes_register {a : Addr} {r : Reg} {w : Word} {s : State} (hq : s.Quiet) (hb : busAccepts a.toNat .word = true)
    (hw : windowOf a.toNat = some .regs) (hr : regAt a.toNat = r) (hc : r ≠ .cmd) (hs : r ≠ .status) :
    Takes [.write a .word w] s (s.writeReg r w) := by
  have hf : (s.writeReg r w).faults = s.faults ∧ (s.writeReg r w).status = s.status := by
    cases r <;> first | exact ⟨rfl, rfl⟩ | exact absurd rfl hc | exact absurd rfl hs
  refine takes_write hq (hf.1.trans hq.faults) (by rw [hf.2, hq.busy]) fun h => ?_
  rw [hostWrite_register hb hw hr (by
    unfold State.windowBars
    rw [withHost_win, hq.window, decide_eq_false hc]
    rfl)]
  cases r <;> first | rfl | exact absurd rfl hc

/-- A read of a register at its address, outside the window. -/
theorem gives_register {a : Addr} {r : Reg} {s : State} (hq : s.Quiet) (hb : busAccepts a.toNat .word = true)
    (hw : windowOf a.toNat = some .regs) (hr : regAt a.toNat = r) : Gives (fetchWord a .word) s (s.readReg r) s := by
  refine gives_fetchWord hq hq.faults hq.busy fun h => ?_
  rw [hostRead_register hb hw hr (by rw [withHost_win, hq.window])]
  cases r <;> rfl

/-- A buffer address is taken as a byte access of a buffer window. -/
theorem busAccepts_byte {a : Nat} (h : inBuffer a = true) :
    (BitVec.ofNat 20 a).toNat = a ∧ busAccepts a .byte = true ∧ windowOf a ≠ some .regs := by
  have hc : ¬a < Config.regSize ∧ a < 2 ^ 20 ∧ (windowOf a).isSome = true ∧ windowOf a ≠ some .regs := by
    unfold inBuffer at h
    simp only [Bool.or_eq_true, decide_eq_true_eq, Config.pixBase, Config.pixSize, Config.colBase, Config.colSize,
      Config.outBase, Config.outSize] at h
    have h0 : ¬a < Config.regSize := by unfold Config.regSize; omega
    refine ⟨h0, by omega, ?_⟩
    simp only [windowOf, if_neg h0, Config.pixBase, Config.pixSize, Config.colBase, Config.colSize, Config.outBase,
      Config.outSize]
    split_ifs <;> first | exact ⟨rfl, by decide⟩ | omega
  refine ⟨by rw [BitVec.toNat_ofNat, Nat.mod_eq_of_lt hc.2.1], ?_, hc.2.2.2⟩
  simp [busAccepts, insideWindow, Size.bytes, hc.2.2.1, hc.2.2.2, Nat.mod_one]

/-- One byte write of a buffer. -/
theorem takes_byte {a : Nat} {b : Byte} {s : State} (hq : s.Quiet) (ha : inBuffer a = true) :
    Takes [.write (BitVec.ofNat 20 a) .byte (b.setWidth 32)] s { s with mem := s.mem.write a b } := by
  obtain ⟨h1, h2, h3⟩ := busAccepts_byte ha
  refine takes_write hq hq.faults hq.busy fun h => ?_
  rw [hostWrite_buffer (by rw [h1]; exact h2) (by rw [h1]; exact h3) (by rw [withHost_win, hq.window]), h1]
  simp only [wordBytes, Size.bytes, List.range_one, List.map_cons, List.map_nil, Nat.mul_zero, setWidth_low, memory_writeBytes_cons,
    memory_writeBytes_nil]
  rfl

/-- Byte writes from an address up. -/
theorem takes_writeAccesses {a : Nat} {bs : List Byte} {s : State} (hq : s.Quiet)
    (ha : ∀ k, k < bs.length → inBuffer (a + k) = true) :
    Takes (writeAccesses a bs) s { s with mem := s.mem.writeBytes a bs } := by
  induction bs generalizing a s with
  | nil => exact Takes.nil s
  | cons b bs ih =>
    refine (takes_byte hq (ha 0 (by simp))).cons ?_
    exact ih (s := { s with mem := s.mem.write a b }) ⟨hq.faults, hq.port, hq.busy, hq.window⟩ fun k hk => by
      rw [Nat.add_assoc, Nat.add_comm 1]; exact ha (k + 1) (by simpa using hk)

/-- Reads of written buffer bytes. -/
theorem gives_fetchBytes {a n : Nat} {bs : List Byte} {s : State} (hq : s.Quiet)
    (ha : ∀ k, k < n → inBuffer (a + k) = true) (hr : s.mem.readBytes a n = .ok bs) :
    Gives (fetchBytes a n) s bs s := by
  induction n generalizing a bs with
  | zero => cases hr; exact fun h => ⟨h, rfl⟩
  | succ n ih =>
    unfold Memory.readBytes at hr
    split at hr
    · cases hr
    · rename_i b hb
      split at hr
      · rename_i cs hcs
        cases hr
        intro h
        obtain ⟨h1, h2, h3⟩ := busAccepts_byte (ha 0 (by omega))
        have hg : Gives (fetchWord (BitVec.ofNat 20 a) .byte) s (BitVec.ofNat 32 b.toNat) s := by
          refine gives_fetchWord hq hq.faults hq.busy fun h => ?_
          rw [Nat.add_zero] at h1 h2 h3
          have h4 : (s.withHost h).mem.readBytes a Size.byte.bytes = .ok [b] := by
            show s.mem.readBytes a 1 = _
            simp [Memory.readBytes, hb]
          rw [hostRead_buffer (by rw [h1]; exact h2) (by rw [h1]; exact h3) (by rw [withHost_win, hq.window])
            (by rw [h1]; exact h4)]
          simp only [littleEndian]
          rfl
        obtain ⟨k1, hk1⟩ := hg h
        obtain ⟨k2, hk2⟩ := ih (a := a + 1) (fun k hk => by
          rw [Nat.add_assoc, Nat.add_comm 1]; exact ha (k + 1) (by omega)) hcs k1
        have hb8 : (BitVec.ofNat 32 b.toNat).extractLsb' 0 8 = b := by
          apply BitVec.eq_of_toNat_eq
          have := b.isLt
          simp [BitVec.extractLsb'_toNat]
          omega
        exact ⟨k2, by unfold fetchBytes; rw [hk1]; simp only [hk2, hb8]⟩
      · cases hr

/-- The state in which the core takes the step of a command accepted in `s`, up to the host's fields. -/
def State.started (s : State) (w : Word) : State :=
  { s with status := s.status.started, snap := s.capture w, win := true }

/-- A command accepted outside the window, up to its core step. -/
theorem access_command {w : Word} {s u : State} (hq : s.Quiet)
    (hx : ∀ h, coreStep ((s.started w).withHost h) = .next (u.withHost h)) (hf : u.faults = []) :
    Takes [.write 0x00004 .word w] s u := by
  intro h
  let k : State :=
    { h with hostOps := [], reply := .ack, coreDelay := Config.commandDelay h.accepted, accepted := h.accepted + 1 }
  have hw : serveOp (.write 0x00004 .word w)
      (State.hostTurn { s.withHost h with hostOps := [.write 0x00004 .word w] } []) =
      .next ((s.started w).withHost k) := by
    have hz : (State.hostTurn { s.withHost h with hostOps := [.write 0x00004 .word w] } []).windowBars .cmd = false := by
      unfold State.windowBars
      simp only [hostTurn_win, hostTurn_status, withHost_win, withHost_status, hq.window, hq.busy]
      rfl
    unfold serveOp
    simp only [hostWrite_register (a := 0x00004) (w := w) (by decide) (by decide) (show regAt _ = .cmd by decide)
      (by rw [hz]; rfl)]
    rfl
  have hc : State.coreReady { s.withHost h with hostOps := [.write 0x00004 .word w] } = false := by
    unfold State.coreReady
    simp only [withHost_status, hq.busy, Bool.false_and]
  have h1 : step { s.withHost h with hostOps := [.write 0x00004 .word w] } = .next ((s.started w).withHost k) := by
    rw [step_host (s := { s.withHost h with hostOps := [.write 0x00004 .word w] }) hq.faults hq.port hc,
      hostStep_of_next rfl hw]
  have h2 : step ((s.started w).withHost k) = .next (u.withHost k) := by
    rw [step_core (s := (s.started w).withHost k) hq.faults hq.port rfl, hx k]
    rfl
  refine ⟨k, accesses_one ?_⟩
  unfold access
  rw [h1, show goOn (.next ((s.started w).withHost k)) = .ok ((s.started w).withHost k) by
    unfold goOn
    simp only [show ((s.started w).withHost k).faults = [] from hq.faults]]
  simp only [show ((s.started w).withHost k).status.busy = true from rfl, if_true, h2]
  unfold goOn
  simp only [show (u.withHost k).faults = [] from hf]

/-- A POLL of an NSE that is not BUSY closes the window. -/
theorem takes_poll {u : State} (hp : u.port = []) (hf : u.faults = []) (hb : u.status.busy = false) :
    Takes [.poll] u { u with win := false } := by
  intro k
  let k' : State := { k with hostOps := [], coreDelay := k.coreDelay - 1, reply := .data u.status.word }
  have hs : serveOp .poll (State.hostTurn { u.withHost k with hostOps := [.poll] } []) =
      .next (State.withHost { u with win := false } k') := by
    have hr : hostRead 0x00008 .word (State.hostTurn { u.withHost k with hostOps := [.poll] } []) =
        .next (State.withHost { u with win := false } k') := by
      unfold hostRead readRegister
      simp only [show busAccepts (0x00008 : Addr).toNat .word = true by decide,
        show windowOf (0x00008 : Addr).toNat = some .regs by decide, show regAt (0x00008 : Addr).toNat = .status by decide,
        barredInWindow, Bool.and_false, Bool.false_eq_true, if_false, if_true, State.statusSeen, hostTurn_status,
        withHost_status, hb]
      rfl
    exact serveOp_poll_idle hr hb
  have hc : State.coreReady { u.withHost k with hostOps := [.poll] } = false := by
    unfold State.coreReady
    simp only [withHost_status, hb, Bool.false_and]
  refine ⟨k', accesses_one ?_⟩
  unfold access goOn
  rw [step_host (s := { u.withHost k with hostOps := [.poll] }) hf hp hc, hostStep_of_next rfl hs]
  simp only [withHost_faults, withHost_status, hf, hb, Bool.false_eq_true, if_false]

/-- A command accepted outside the window and polled: its core step, then the window closed. -/
theorem takes_command {w : Word} {s u : State} (hq : s.Quiet)
    (hx : ∀ h, coreStep ((s.started w).withHost h) = .next (u.withHost h)) (hp : u.port = []) (hf : u.faults = [])
    (hb : u.status.busy = false) : Takes [.write 0x00004 .word w, .poll] s { u with win := false } :=
  (access_command hq hx hf).cons (takes_poll hp hf hb)

/-! ### The host's phases -/

/-- The dictionary registers are the same: phase 2 does not change them (48_host_side R225). -/
def SameDictionary (s t : State) : Prop := t.dict = s.dict ∧ t.dictCnt = s.dictCnt

theorem bind_ok {α β : Type} {x : Except HostError α} {f : α → Except HostError β} {a : α} (h : x = .ok a) :
    (x >>= f) = f a := by
  rw [h]
  rfl

theorem checkStatus_none {name : List Char} {s : State} (h : s.status.errCode = .none) :
    checkStatus name (s.readReg .status) = .ok () := by
  unfold checkStatus State.readReg
  rw [statusWord_errCode, h]
  rfl

theorem checkStatus_shape {name : List Char} {s : State} (h : s.status.errCode = .shape) :
    checkStatus name (s.readReg .status) = .error (.shape name) := by
  unfold checkStatus State.readReg
  rw [statusWord_errCode, h]
  rfl

theorem inBuffer_pix {k : Nat} (h : k < Config.pixSize) : inBuffer (Config.pixBase + k) = true := by
  unfold inBuffer
  simp [h]

theorem inBuffer_col {k : Nat} (h : k < Config.colSize) : inBuffer (Config.colBase + k) = true := by
  unfold inBuffer
  simp [h]

theorem inBuffer_out {k : Nat} (h : k < Config.outSize) : inBuffer (Config.outBase + k) = true := by
  unfold inBuffer
  simp [h]

/-- The writes before a PACK. -/
theorem takes_packOperands (fg : Byte) (p : Sprite) (pixels : List Byte) {s : State} (hq : s.Quiet) :
    ∃ u : State, u.Quiet ∧ SameDictionary s u ∧ u.geom = ⟨p.width, p.height⟩ ∧ u.fg = fg ∧
      u.pixLen = BitVec.ofNat 32 (storedPixels pixels).length ∧
      u.mem = s.mem.writeBytes Config.pixBase (storedPixels pixels) ∧
      ∀ v, Takes [.write 0x00004 .word 0x00000001, .poll] u v → Takes (packAccesses fg p pixels) s v := by
  have hl : (storedPixels pixels).length ≤ Config.pixSize := by
    unfold storedPixels
    rw [List.length_take]
    omega
  let s1 : State := s.writeReg .geom (Geom.word ⟨p.width, p.height⟩)
  let s2 : State := s1.writeReg .fg (fg.setWidth 32)
  let s3 : State := { s2 with mem := s.mem.writeBytes Config.pixBase (storedPixels pixels) }
  let s4 : State := s3.writeReg .pixLen (BitVec.ofNat 32 (storedPixels pixels).length)
  have quiet : ∀ t : State, t.faults = s.faults → t.port = s.port → t.status = s.status → t.win = s.win → t.Quiet :=
    fun t hf hp hs hw => ⟨hf.trans hq.faults, hp.trans hq.port, by rw [hs, hq.busy], hw.trans hq.window⟩
  have h1 : Takes [.write 0x0000C .word (Geom.word ⟨p.width, p.height⟩)] s s1 :=
    takes_register hq (by decide) (by decide) (by decide) (by decide) (by decide)
  have h2 : Takes [.write 0x00010 .word (fg.setWidth 32)] s1 s2 :=
    takes_register (quiet s1 rfl rfl rfl rfl) (by decide) (by decide) (by decide) (by decide) (by decide)
  have h3 : Takes (writeAccesses Config.pixBase (storedPixels pixels)) s2 s3 :=
    takes_writeAccesses (quiet s2 rfl rfl rfl rfl) fun k hk => inBuffer_pix (by omega)
  have h4 : Takes [.write 0x00014 .word (BitVec.ofNat 32 (storedPixels pixels).length)] s3 s4 :=
    takes_register (quiet s3 rfl rfl rfl rfl) (by decide) (by decide) (by decide) (by decide) (by decide)
  exact ⟨s4, quiet s4 rfl rfl rfl rfl, ⟨rfl, rfl⟩, congrArg₂ Geom.mk (geomWord_width _) (geomWord_height _),
    setWidth_low fg, rfl, rfl, fun v hv => h1.cons (h2.cons (h3.append (h4.cons hv)))⟩

/-- Phase 1 of one frame: its PackedColumn array is read back, or the run ends with SHAPE. -/
theorem packOnNse_cases (fg : Byte) (p : Sprite) (pixels : List Byte) {s : State} (hq : s.Quiet) :
    (pixels.length = p.width.toNat * p.height.toNat ∧ ∃ u : State, u.Quiet ∧ SameDictionary s u ∧
      u.colLen = BitVec.ofNat 32 (packColumns p.width.toNat p.height.toNat fg pixels).length ∧
      u.mem.readBytes Config.colBase (packColumns p.width.toNat p.height.toNat fg pixels).length =
        .ok (packColumns p.width.toNat p.height.toNat fg pixels) ∧
      Gives (packOnNse fg p pixels) s (packColumns p.width.toNat p.height.toNat fg pixels) u) ∨
    (pixels.length ≠ p.width.toNat * p.height.toNat ∧
      ∀ h, packOnNse fg p pixels (s.withHost h) = .error (.shape p.name)) := by
  obtain ⟨u, qu, du, hg, hf, hn, hm, htake⟩ := takes_packOperands fg p pixels hq
  have hb := frame_bounds p.width p.height
  have hst : (storedPixels pixels).length = p.width.toNat * p.height.toNat ↔
      pixels.length = p.width.toNat * p.height.toNat := by
    unfold storedPixels
    rw [List.length_take]
    unfold Config.pixSize
    omega
  have hle : (storedPixels pixels).length ≤ 65536 := by
    unfold storedPixels Config.pixSize
    rw [List.length_take]
    omega
  have hpl : (BitVec.ofNat 32 (storedPixels pixels).length).toNat = (storedPixels pixels).length := by
    rw [BitVec.toNat_ofNat, Nat.mod_eq_of_lt (by omega)]
  by_cases hs : pixels.length = p.width.toNat * p.height.toNat
  · refine .inl ⟨hs, ?_⟩
    have hsp : storedPixels pixels = pixels := by
      unfold storedPixels Config.pixSize
      exact List.take_of_length_le (by omega)
    rw [hsp] at hm hn hpl
    have hcl : (packColumns p.width.toNat p.height.toNat fg pixels).length =
        p.width.toNat * bandCount p.height.toNat := length_packColumns _ _ _ _
    let v : State := { u.started 1 with
      mem := u.mem.writeBytes Config.colBase (packColumns p.width.toNat p.height.toNat fg pixels)
      colLen := BitVec.ofNat 32 (packColumns p.width.toNat p.height.toNat fg pixels).length
      status := u.status.started.completed .none }
    have hx : ∀ h, coreStep ((u.started 1).withHost h) = .next (v.withHost h) := by
      intro h
      rw [coreStep_of_decode (i := .pack) (by show decodeCommand 1 = _; decide)]
      show execPack ((u.started 1).withHost h) = _
      have hw : ((u.started 1).withHost h).snap.width = p.width.toNat := by
        show u.geom.width.toNat = _
        rw [hg]
      have hh : ((u.started 1).withHost h).snap.height = p.height.toNat := by
        show u.geom.height.toNat = _
        rw [hg]
      have hfg : ((u.started 1).withHost h).snap.fg = fg := hf
      have hok := execPack_ok (s := (u.started 1).withHost h) (pix := pixels)
        (by
          rw [hw, hh]
          show u.pixLen.toNat = _
          rw [hn, hpl, hs])
        (by
          rw [hw, hh, ← hs]
          show u.mem.readBytes _ _ = _
          rw [hm]
          exact memory_readBytes_writeBytes _ _ _)
      rw [hw, hh, hfg] at hok
      rw [hok, ← hcl]
      rfl
    have hc := htake _ (takes_command qu hx qu.port qu.faults rfl)
    have qv : State.Quiet { v with win := false } := ⟨qu.faults, qu.port, rfl, rfl⟩
    have hrd : v.mem.readBytes Config.colBase (packColumns p.width.toNat p.height.toNat fg pixels).length =
        .ok (packColumns p.width.toNat p.height.toNat fg pixels) := memory_readBytes_writeBytes _ _ _
    refine ⟨{ v with win := false }, qv, du, rfl, hrd, ?_⟩
    intro h
    obtain ⟨k1, e1⟩ := hc h
    obtain ⟨k2, e2⟩ := gives_register (a := 0x00008) (r := .status) qv (by decide) (by decide) (by decide) k1
    obtain ⟨k3, e3⟩ := gives_register (a := 0x00018) (r := .colLen) qv (by decide) (by decide) (by decide) k2
    have hbytes : Gives (fetchBytes Config.colBase (packColumns p.width.toNat p.height.toNat fg pixels).length)
        { v with win := false } (packColumns p.width.toNat p.height.toNat fg pixels) { v with win := false } :=
      gives_fetchBytes qv (fun k hk => inBuffer_col (by unfold Config.colSize; omega)) hrd
    obtain ⟨k4, e4⟩ := hbytes k3
    refine ⟨k4, ?_⟩
    unfold packOnNse
    rw [bind_ok e1, bind_ok e2]
    simp only
    rw [bind_ok (checkStatus_none (s := { v with win := false }) rfl), bind_ok e3]
    simp only
    rw [show (State.readReg { v with win := false } .colLen).toNat =
        (packColumns p.width.toNat p.height.toNat fg pixels).length by
      show (BitVec.ofNat 32 _).toNat = _
      rw [BitVec.toNat_ofNat, Nat.mod_eq_of_lt (by omega)]]
    exact e4
  · refine .inr ⟨hs, fun h => ?_⟩
    let v : State := { u.started 1 with status := u.status.started.completed .shape }
    have hx : ∀ h, coreStep ((u.started 1).withHost h) = .next (v.withHost h) := by
      intro h
      rw [coreStep_of_decode (i := .pack) (by show decodeCommand 1 = _; decide)]
      show execPack ((u.started 1).withHost h) = _
      unfold execPack
      simp only
      rw [if_pos (by
        show u.pixLen.toNat ≠ u.geom.width.toNat * u.geom.height.toNat
        rw [hn, hpl, hg]
        exact fun e => hs (hst.mp e))]
      rfl
    have hc := htake _ (takes_command qu hx qu.port qu.faults rfl)
    have qv : State.Quiet { v with win := false } := ⟨qu.faults, qu.port, rfl, rfl⟩
    obtain ⟨k1, e1⟩ := hc h
    obtain ⟨k2, e2⟩ := gives_register (a := 0x00008) (r := .status) qv (by decide) (by decide) (by decide) k1
    unfold packOnNse
    rw [bind_ok e1, bind_ok e2]
    simp only
    rw [checkStatus_shape (s := { v with win := false }) rfl]
    rfl

/-- Phase 2 of one frame, its array in COL: the payload and flag of R228. -/
theorem gives_encodeOnNse (p : Sprite) {s : State} {d x : List Byte} (hq : s.Quiet)
    (hd : (s.capture 2).dictionary = d) (hv : (s.capture 2).dictValid = true) (hn : s.colLen = BitVec.ofNat 32 x.length)
    (hl : x.length ≤ Config.colSize) (hx : s.mem.readBytes Config.colBase x.length = .ok x)
    (hfit : (packedStream d x).length ≤ Config.outSize) :
    ∃ u : State, u.Quiet ∧ SameDictionary s u ∧ Gives (encodeOnNse p) s (choosePayload d x) u := by
  have hnl : (BitVec.ofNat 32 x.length).toNat = x.length := by
    rw [BitVec.toNat_ofNat, Nat.mod_eq_of_lt (by unfold Config.colSize at hl; omega)]
  have hol : (BitVec.ofNat 32 (packedStream d x).length).toNat = (packedStream d x).length := by
    rw [BitVec.toNat_ofNat, Nat.mod_eq_of_lt (by unfold Config.outSize at hfit; omega)]
  let v : State := { s.started 2 with
    mem := s.mem.writeBytes Config.outBase (packedStream d x)
    outLen := BitVec.ofNat 32 (packedStream d x).length
    nibCount := BitVec.ofNat 32 (streamNibbles (tokenize d x)).length
    status := Status.completed
      { s.status.started with compress := compressFlag (packedStream d x).length x.length } .none
    enc := Encoder.initial }
  have hc : ∀ h, coreStep ((s.started 2).withHost h) = .next (v.withHost h) := by
    intro h
    rw [coreStep_of_decode (i := .encode) (by show decodeCommand 2 = _; decide)]
    show execEncode ((s.started 2).withHost h) = _
    have hil : ((s.started 2).withHost h).snap.inputLen = x.length := by
      show s.colLen.toNat = _
      rw [hn, hnl]
    have hok := execEncode_ok (s := (s.started 2).withHost h) (x := x) (by rw [hil]; exact hl) hv (by rw [hil]; exact hx)
      (by
        show (packedStream (s.capture 2).dictionary x).length ≤ _
        rw [hd]; exact hfit)
    rw [show ((s.started 2).withHost h).snap.dictionary = d from hd] at hok
    rw [hok]
    rfl
  have ht := takes_command hq hc hq.port hq.faults rfl
  have qv : State.Quiet { v with win := false } := ⟨hq.faults, hq.port, rfl, rfl⟩
  refine ⟨{ v with win := false }, qv, ⟨rfl, rfl⟩, fun h => ?_⟩
  obtain ⟨k1, e1⟩ := ht h
  obtain ⟨k2, e2⟩ := gives_register (a := 0x00008) (r := .status) qv (by decide) (by decide) (by decide) k1
  unfold encodeOnNse
  rw [bind_ok e1, bind_ok e2]
  simp only
  rw [bind_ok (checkStatus_none (s := { v with win := false }) rfl)]
  rw [show (State.readReg { v with win := false } .status).getLsbD 2 = compressFlag (packedStream d x).length x.length from
    statusWord_compress _]
  cases hcmp : compressFlag (packedStream d x).length x.length with
  | true =>
    obtain ⟨k3, e3⟩ := gives_register (a := 0x0001C) (r := .outLen) qv (by decide) (by decide) (by decide) k2
    have hb : Gives (fetchBytes Config.outBase (packedStream d x).length) { v with win := false } (packedStream d x)
        { v with win := false } :=
      gives_fetchBytes qv (fun k hk => inBuffer_out (by omega)) (memory_readBytes_writeBytes _ _ _)
    obtain ⟨k4, e4⟩ := hb k3
    refine ⟨k4, ?_⟩
    rw [if_pos rfl, bind_ok e3]
    simp only
    rw [show (State.readReg { v with win := false } .outLen).toNat = (packedStream d x).length from hol, bind_ok e4]
    simp only [choosePayload, hcmp, if_true]
  | false =>
    obtain ⟨k3, e3⟩ := gives_register (a := 0x00018) (r := .colLen) qv (by decide) (by decide) (by decide) k2
    have hcol : v.mem.readBytes Config.colBase x.length = .ok x := by
      rw [← hx]
      refine memory_readBytes_congr fun k hk => ?_
      refine memory_read_writeBytes_other _ _ (.inl ?_)
      unfold Config.colBase Config.outBase
      unfold Config.colSize at hl
      omega
    have hb : Gives (fetchBytes Config.colBase x.length) { v with win := false } x { v with win := false } :=
      gives_fetchBytes qv (fun k hk => inBuffer_col (by omega)) hcol
    obtain ⟨k4, e4⟩ := hb k3
    refine ⟨k4, ?_⟩
    rw [if_neg (by simp), bind_ok e3]
    simp only
    rw [show (State.readReg { v with win := false } .colLen).toNat = x.length by
      show s.colLen.toNat = _
      rw [hn, hnl], bind_ok e4]
    simp only [choosePayload, hcmp, Bool.false_eq_true, if_false]

/-- The writes that put a saved array back into COL. -/
theorem takes_columnAccesses {x : List Byte} {s : State} (hq : s.Quiet) (hl : x.length ≤ Config.colSize) :
    ∃ u : State, u.Quiet ∧ SameDictionary s u ∧ u.colLen = BitVec.ofNat 32 x.length ∧
      u.mem.readBytes Config.colBase x.length = .ok x ∧ Takes (columnAccesses x) s u := by
  let s1 : State := { s with mem := s.mem.writeBytes Config.colBase x }
  let s2 : State := s1.writeReg .colLen (BitVec.ofNat 32 x.length)
  have h1 : Takes (writeAccesses Config.colBase x) s s1 :=
    takes_writeAccesses hq fun k hk => inBuffer_col (by omega)
  have h2 : Takes [.write 0x00018 .word (BitVec.ofNat 32 x.length)] s1 s2 :=
    takes_register ⟨hq.faults, hq.port, hq.busy, hq.window⟩ (by decide) (by decide) (by decide) (by decide) (by decide)
  exact ⟨s2, ⟨hq.faults, hq.port, hq.busy, hq.window⟩, ⟨rfl, rfl⟩, rfl, memory_readBytes_writeBytes _ _ _,
    h1.append h2⟩
/-! ### The dictionary load and lists of items -/

/-- The writes of dictionary entries from `k` on (48_host_side R225). -/
theorem takes_loadEntries (k : Nat) (l : List Byte) {s : State} (hq : s.Quiet) (hk : k + l.length ≤ 12) :
    ∃ u : State, u.Quiet ∧ u.dictCnt = s.dictCnt ∧
      (∀ j, u.dict.toList[j]? = if k ≤ j ∧ j < k + l.length then l[j - k]? else s.dict.toList[j]?) ∧
      Takes (loadEntries k l) s u := by
  induction l generalizing k s with
  | nil => exact ⟨s, hq, rfl, fun j => by rw [if_neg (by simp)], Takes.nil s⟩
  | cons v l ih =>
    rw [List.length_cons] at hk
    have hk' : k < 12 := by omega
    let s1 : State := s.writeReg (.dict ⟨k, hk'⟩) (BitVec.ofNat 32 v.toNat)
    have e : ∀ k : Fin 12, busAccepts (BitVec.ofNat 20 (0x40 + 4 * k.val)).toNat .word = true ∧
        windowOf (BitVec.ofNat 20 (0x40 + 4 * k.val)).toNat = some .regs ∧
        regAt (BitVec.ofNat 20 (0x40 + 4 * k.val)).toNat = .dict k := by decide
    have h1 : Takes [.write (BitVec.ofNat 20 (0x40 + 4 * k)) .word (BitVec.ofNat 32 v.toNat)] s s1 :=
      takes_register hq (e ⟨k, hk'⟩).1 (e ⟨k, hk'⟩).2.1 (e ⟨k, hk'⟩).2.2 (by simp) (by simp)
    obtain ⟨u, qu, hc, hu, ht⟩ := ih (k + 1) (s := s1) ⟨hq.faults, hq.port, hq.busy, hq.window⟩ (by omega)
    refine ⟨u, qu, hc, fun j => ?_, h1.cons ht⟩
    have hv : (BitVec.ofNat 32 v.toNat).extractLsb' 0 8 = v := by
      apply BitVec.eq_of_toNat_eq
      have := v.isLt
      simp [BitVec.extractLsb'_toNat]
      omega
    have hd : s1.dict.toList = s.dict.toList.set k v := by
      show (s.dict.set k ((BitVec.ofNat 32 v.toNat).extractLsb' 0 8)).toList = _
      rw [hv, Vector.toList_set]
    have hlen : s.dict.toList.length = 12 := Vector.length_toList
    rw [hu, hd, List.length_cons]
    by_cases c : k = j
    · subst c
      rw [if_neg (by omega), if_pos (by omega), List.getElem?_set_self (by omega), Nat.sub_self]
      rfl
    · rw [List.getElem?_set_ne c]
      by_cases c2 : k + 1 ≤ j ∧ j < k + 1 + l.length
      · rw [if_pos c2, if_pos (by omega), show j - k = j - (k + 1) + 1 by omega]
        rfl
      · rw [if_neg c2, if_neg (by omega)]

/-- A loaded dictionary is the dictionary a command then captures. -/
theorem takes_loadDictionary (d : List Byte) {s : State} (hq : s.Quiet) (hk : d.length ≤ 12) :
    ∃ u : State, u.Quiet ∧ (∀ w, (u.capture w).dictionary = d ∧ (u.capture w).dictCnt.toNat = d.length) ∧
      Takes (loadDictionary d) s u := by
  obtain ⟨u, qu, -, hu, ht⟩ := takes_loadEntries 0 d hq (by omega)
  let v : State := u.writeReg .dictCnt (BitVec.ofNat 32 d.length)
  have h2 : Takes [.write 0x00024 .word (BitVec.ofNat 32 d.length)] u v :=
    takes_register qu (by decide) (by decide) (by decide) (by decide) (by decide)
  have hc : ((BitVec.ofNat 32 d.length).extractLsb' 0 4).toNat = d.length := by
    simp [BitVec.extractLsb'_toNat]
    omega
  refine ⟨v, ⟨qu.faults, qu.port, qu.busy, qu.window⟩, fun w => ⟨?_, hc⟩, ht.append h2⟩
  show u.dict.toList.take ((BitVec.ofNat 32 d.length).extractLsb' 0 4).toNat = d
  rw [hc]
  apply List.ext_getElem?
  intro j
  rw [List.getElem?_take, hu]
  split
  · rw [if_pos (by omega)]
    rfl
  · rw [List.getElem?_eq_none (by omega)]

/-- An action on each item that answers as the pure `g` does and keeps `P` answers on a list as `g` does on it. -/
theorem eachInTurn_cases {α β : Type} {f : α → State → Except HostError (β × State)} {g : α → Except HostError β}
    {P : State → Prop} {Q : α → Prop}
    (step : ∀ a s, P s → Q a → (∃ b u, g a = .ok b ∧ P u ∧ Gives (f a) s b u) ∨
      ∃ e, g a = .error e ∧ ∀ h, f a (s.withHost h) = .error e)
    (l : List α) {s : State} (hs : P s) (hl : ∀ a ∈ l, Q a) :
    (∃ bs u, l.mapM g = .ok bs ∧ P u ∧ Gives (eachInTurn f l) s bs u) ∨
      ∃ e, l.mapM g = .error e ∧ ∀ h, eachInTurn f l (s.withHost h) = .error e := by
  induction l generalizing s with
  | nil => exact .inl ⟨[], s, rfl, hs, fun h => ⟨h, rfl⟩⟩
  | cons a l ih =>
    rw [List.mapM_cons]
    rcases step a s hs (hl a List.mem_cons_self) with ⟨b, u, hg, hu, hf⟩ | ⟨e, hg, hf⟩
    · rw [bind_ok hg]
      rcases ih hu fun a ha => hl a (List.mem_cons_of_mem _ ha) with ⟨bs, v, hgs, hv, hfs⟩ | ⟨e, hgs, hfs⟩
      · refine .inl ⟨b :: bs, v, by rw [bind_ok hgs]; rfl, hv, fun k => ?_⟩
        obtain ⟨k1, e1⟩ := hf k
        obtain ⟨k2, e2⟩ := hfs k1
        exact ⟨k2, by simp only [eachInTurn, e1, e2]⟩
      · refine .inr ⟨e, by rw [hgs]; rfl, fun k => ?_⟩
        obtain ⟨k1, e1⟩ := hf k
        simp only [eachInTurn, e1, hfs]
    · exact .inr ⟨e, by rw [hg]; rfl, fun k => by simp only [eachInTurn, hf]⟩

end Sys2Proof.Machine
end

