-- ==== Sys2Proof/Laws/PerInstr.lean ====
section
/-! SUPPORT. A statement about every instruction as syntax: how long its encoding is (30_encoding R81, R87). -/

namespace Sys2Proof.Laws

/-- The size of a code: 32 bits, or its nibbles. -/
def codeBits : Code → Nat
  | .command _ => 32
  | .token ns => 4 * ns.length

/-- The bits of an instruction's encoding by the table of R87, a RawRun's by its values. -/
def tableBits : Instr → Nat
  | .nop => 32
  | .pack => 32
  | .encode => 32
  | .dictRef _ => 4
  | .rawRun _ values => 12 + 8 * values.length
  | .shortRunRepeat _ _ => 16
  | .runRepeat _ _ => 20
  | .rawByte _ => 12

/-- The encoding has the table's length. -/
def EncodedLength.Statement (i : Instr) : Prop := codeBits (encode i) = tableBits i

theorem length_valueNibbles (vs : List Byte) : (valueNibbles vs).length = 2 * vs.length := by
  induction vs with
  | nil => rfl
  | cons v vs ih => simp [valueNibbles, fieldNibbles, ih]; omega

theorem EncodedLength.nop : EncodedLength.Statement .nop := rfl
theorem EncodedLength.pack : EncodedLength.Statement .pack := rfl
theorem EncodedLength.encode : EncodedLength.Statement .encode := rfl
theorem EncodedLength.dictRef (i : Nibble) : EncodedLength.Statement (.dictRef i) := rfl
theorem EncodedLength.rawRun (n : Byte) (values : List Byte) : EncodedLength.Statement (.rawRun n values) := by
  show 4 * (tokenNibbles (.rawRun n values)).length = 12 + 8 * values.length
  simp only [tokenNibbles, fieldNibbles, List.length_cons, List.length_append, length_valueNibbles]
  simp only [List.length_nil]
  omega
theorem EncodedLength.shortRunRepeat (len : Byte) (i : Nibble) : EncodedLength.Statement (.shortRunRepeat len i) := rfl
theorem EncodedLength.runRepeat (len v : Byte) : EncodedLength.Statement (.runRepeat len v) := rfl
theorem EncodedLength.rawByte (v : Byte) : EncodedLength.Statement (.rawByte v) := rfl

end Sys2Proof.Laws
end

