-- ==== Sys2Proof/Tests/Slice0.lean ====
section
/-! SUPPORT. The model's own tests. Expected values are those of spec/95_test_vectors.md (the vector is named) or are
written out by hand from the rule named; the `witness` theorems show states and operands that meet a statement's
hypotheses. -/

namespace Sys2Proof.Machine

/-! ### Helpers -/

/-- The next state of an outcome, the reset state where there is none. -/
def nextOr : Result → State
  | .next t => t
  | .fault _ => State.reset
  | .refused _ => State.reset

/-- Did the outcome answer a next state? -/
def isNext : Result → Bool
  | .next _ => true
  | .fault _ => false
  | .refused _ => false

/-- The fault of an outcome. -/
def faultOf : Result → Option Fault
  | .next _ => none
  | .fault f => some f
  | .refused _ => none

/-- A snapshot of the given operands, with the first dictionary entries `d`. -/
def snapOf (geom : Geom) (fg : Byte) (pixLen colLen : Word) (d : List Byte) : Snapshot :=
  ⟨0, geom, fg, pixLen, colLen, BitVec.ofNat 4 d.length, Vector.ofFn fun k => (d[k.val]?).getD 0⟩

/-- A state with a PACK's operands and its pixels written. -/
def packState (w h fg : Byte) (pixLen : Word) (pix : List Byte) : State :=
  { State.reset with
    snap := snapOf ⟨w, h⟩ fg pixLen 0 []
    mem := Memory.writeBytes [] Config.pixBase pix }

/-- A state with an ENCODE's operands and its input written. -/
def encodeState (d x : List Byte) : State :=
  { State.reset with
    snap := snapOf ⟨0, 0⟩ 0 0 (BitVec.ofNat 32 x.length) d
    mem := Memory.writeBytes [] Config.colBase x }

/-- What a test reads of a finished PACK: ERR_CODE, COL_LEN and `n` bytes of COL. -/
def packResult (s : State) (n : Nat) : Nat × Nat × List (Option Byte) :=
  let t := nextOr (exec .pack s)
  (t.status.errCode.bits.toNat, t.colLen.toNat, (List.range n).map fun k => t.mem.read (Config.colBase + k))

/-- What a test reads of a finished ENCODE: NIB_COUNT, OUT_LEN, COMPRESS and OUT_LEN + 1 bytes of OUT. -/
def encodeResult (s : State) : Nat × Nat × Bool × List (Option Byte) :=
  let t := nextOr (exec .encode s)
  (t.nibCount.toNat, t.outLen.toNat, t.status.compress,
    (List.range (t.outLen.toNat + 1)).map fun k => t.mem.read (Config.outBase + k))

/-- The OUT bytes 0 to 3, the held nibble, and the position after a token run on the reset state. -/
def tokenResult (i : Instr) : List (Option Byte) × List Nibble × Nat :=
  let t := nextOr (exec i State.reset)
  ((List.range 4).map fun k => t.mem.read (Config.outBase + k), t.enc.pending, t.enc.pos)

/-- A state whose host has the given accesses to make. -/
def hostState (ops : List HostOp) : State := { State.reset with hostOps := ops }

/-- A BUSY state in its window, `n` accesses before the core's step. -/
def busyState (n : Nat) (ops : List HostOp) : State :=
  { State.reset with status := ⟨true, false, false, .none⟩, win := true, coreDelay := n, hostOps := ops }

/-! ### WellFormed smoke: an ill-formed term for each check -/

theorem test_smoke_dictRef_index : (Instr.dictRef 12).wellFormed = false := by decide
theorem test_smoke_shortRun_index : (Instr.shortRunRepeat 4 12).wellFormed = false := by decide
theorem test_smoke_rawRun_count : (Instr.rawRun 3 [1, 2]).wellFormed = false := by decide
theorem test_smoke_wellFormed : (Instr.rawRun 2 [1, 2]).wellFormed = true ∧ (Instr.dictRef 11).wellFormed = true ∧
    (Instr.shortRunRepeat 0 11).wellFormed = true := by decide

/-! ### Decoding: a word of each constructor, from 30_encoding R83 and the fields of R88 to R93 -/

theorem test_decode_nop : decodeCommand 0b00000000000000000000000000000000 = .ok .nop := by decide
theorem test_decode_pack : decodeCommand 0b00000000000000000000000000000001 = .ok .pack := by decide
theorem test_decode_encode : decodeCommand 0b00000000000000000000000000000010 = .ok .encode := by decide
theorem test_decode_illegal_op : decodeCommand 0x0000000F = .error (.illegalOp 0xF) := by decide
theorem test_decode_reserved_bits : decodeCommand 0x00000011 = .error (.reservedBits 0x11) := by decide
theorem test_decode_dictRef : decode (.token [0b1011]) = .ok (.dictRef 11) := by decide
/-- R92, the header of three values, then AB, 01, F0, each high nibble first. -/
theorem test_decode_rawRun : decode (.token [0b1100, 0b0000, 0b0011, 0xA, 0xB, 0x0, 0x1, 0xF, 0x0]) =
    .ok (.rawRun 3 [0xAB, 0x01, 0xF0]) := by decide
theorem test_decode_shortRun : decode (.token [0b1101, 0b0010, 0b0001, 0b1011]) = .ok (.shortRunRepeat 33 11) := by
  decide
theorem test_decode_runRepeat : decode (.token [0b1110, 0b0001, 0b0101, 0b0000, 0b0010]) = .ok (.runRepeat 21 2) := by
  decide
theorem test_decode_rawByte : decode (.token [0b1111, 0b0101, 0b1010]) = .ok (.rawByte 0x5A) := by decide
/-- R91: an index nibble above 0xB is no ShortRunRepeat. -/
theorem test_decode_bad_index : decode (.token [0xD, 0, 4, 0xC]) = .error (.badIndex 0xC) := by decide
theorem test_decode_truncated : decode (.token [0xE, 1, 5]) = .error .truncatedToken := by decide
theorem test_decode_trailing : decode (.token [0x3, 0x4]) = .error .trailingNibbles := by decide

/-! ### The table's words -/

theorem test_table_commands : decodeTableWord 32 0 = some .nop ∧ decodeTableWord 32 1 = some .pack ∧
    decodeTableWord 32 2 = some .encode ∧ decodeTableWord 32 3 = none := by decide
theorem test_table_tokens : decodeTableWord 8 0x7 = some (.dictRef 7) ∧
    decodeTableWord 16 0xD04B = some (.shortRunRepeat 4 11) ∧ decodeTableWord 24 0xE1502 = some (.runRepeat 21 2) ∧
    decodeTableWord 16 0xF5A = some (.rawByte 0x5A) ∧ decodeTableWord 16 0x000C = some (.rawRun 0 []) := by decide
theorem test_fetch_command : (nextOr (step (State.reset.withFetchWord 32 3))).status.errCode = .illegalCmd := by decide
theorem test_fetch_pack : (nextOr (step (State.reset.withFetchWord 32 1))).status.done = true := by decide
theorem test_fetch_token : (nextOr (step (State.reset.withFetchWord 16 0xF5A))).mem = [(0x30000, 0xF5)] := by decide

/-! ### PACK and NOP -/

/-- V-P3: nine rows, two bands. -/
theorem test_pack_two_bands :
    packResult (packState 1 9 5 9 [5, 5, 5, 5, 5, 5, 5, 5, 5]) 3 = (0, 2, [some 0xFF, some 0x01, none]) := by decide
/-- V-P4: band-major order. -/
theorem test_pack_band_major :
    packResult (packState 2 16 1 32
      ([1, 0, 1, 0, 1, 0, 1, 0, 1, 0, 1, 0, 1, 0, 1, 0] ++ [0, 1, 0, 1, 0, 1, 0, 1, 0, 1, 0, 1, 0, 1, 0, 1])) 4 =
      (0, 4, [some 0xFF, some 0x00, some 0x00, some 0xFF]) := by decide
/-- V-C1: NOP leaves STATUS = 0x00000002. -/
theorem test_nop_status : (nextOr (exec .nop (State.reset.loadCommand 0))).status.word = 0x00000002 := by decide

/-! ### ENCODE and the tokens -/

/-- S3: two dictionary bytes, indices 3 and 7. -/
theorem test_encode_dictionary :
    encodeResult (encodeState [0x00, 0x01, 0x02, 0xAA, 0x04, 0x05, 0x06, 0xBB] [0xAA, 0xBB]) =
      (2, 1, true, [some 0x37, none]) := by decide
/-- S2: five equal bytes, an odd nibble count padded by zero. -/
theorem test_encode_run : encodeResult (encodeState [] [1, 1, 1, 1, 1]) =
    (5, 3, true, [some 0xE0, some 0x50, some 0x10, none]) := by decide
/-- R88, R169. -/
theorem test_token_dictRef : tokenResult (.dictRef 7) = ([none, none, none, none], [7], 1) := by decide
/-- S4: the RawByte of 0x55 is F, 5, 5. -/
theorem test_token_rawByte : tokenResult (.rawByte 0x5A) = ([some 0xF5, none, none, none], [0xA], 1) := by decide
/-- E7: the RunRepeat of 255 bytes 0x5A is E, F, F, 5, A. -/
theorem test_token_runRepeat :
    tokenResult (.runRepeat 255 0x5A) = ([some 0xEF, some 0xF5, none, none], [0xA], 255) := by decide
/-- R91, R167: D, then the length's nibbles, then the index. -/
theorem test_token_shortRun : tokenResult (.shortRunRepeat 0x21 3) = ([some 0xD2, some 0x13, none, none], [], 33) := by
  decide
/-- R92, R168: C, the count's nibbles, then the values. -/
theorem test_token_rawRun :
    tokenResult (.rawRun 2 [0x12, 0x34]) = ([some 0xC0, some 0x21, some 0x23, none], [4], 2) := by decide

/-! ### The host's side -/

/-- V-C18: the lanes of a 32-bit buffer write are little-endian. -/
theorem test_host_lanes :
    (nextOr (hostRead 0x21FFD .byte (nextOr (hostWrite 0x21FFC .word 0x44332211 State.reset)))).reply = .data 0x22 := by
  decide
/-- V-C14 to V-C17, V-C19. -/
theorem test_host_bus_errors :
    faultOf (hostWrite 0x00000 .byte 1 State.reset) = some (.busError 0x00000) ∧
    faultOf (hostRead 0x00002 .word State.reset) = some (.busError 0x00002) ∧
    faultOf (hostWrite 0x00100 .word 0 State.reset) = some (.busError 0x00100) ∧
    faultOf (hostWrite 0x10001 .half 0 State.reset) = some (.busError 0x10001) ∧
    faultOf (hostWrite 0x32FFE .word 0 State.reset) = some (.busError 0x32FFE) := by decide
/-- V-C21. -/
theorem test_host_unwritten : faultOf (hostRead 0x30000 .byte State.reset) = some (.unwrittenRead 0x30000) := by decide
/-- V-C20: a CMD write in the BUSY window. -/
theorem test_host_hazard : (nextOr (step (busyState 1 [.write 0x00004 .word 0]))).faults = [.hazard 0x00004] := by decide
/-- V-C8, V-C12, V-C13: reserved bits read 0. -/
theorem test_host_reserved_bits :
    (State.reset.writeReg .ctrl 0xFFFFFFFF).readReg .ctrl = 0x00000001 ∧
    (State.reset.writeReg .geom 0xFFFFFFFF).readReg .geom = 0x0000FFFF ∧
    (State.reset.writeReg .dictCnt 0xFFFFFFFF).readReg .dictCnt = 0x0000000F := by decide
/-- V-H1: descending counts, ties by first encounter. -/
theorem test_dictionary_order : buildDictionary [0x00, 0xFF, 0x00, 0x18, 0x18, 0xFF, 0x7E] = [0x00, 0xFF, 0x18, 0x7E] := by
  decide
/-- V-H6 and V-H7: the offsets with both origins. -/
theorem test_directory_offsets :
    offsetsFrom (offsetBase {} 3) [(true, [1, 2, 3]), (false, []), (true, [4, 5, 6, 7, 8])] = [0, 3, 3] ∧
    offsetsFrom (offsetBase { origin := .record } 3) [(true, [1, 2, 3]), (false, []), (true, [4, 5, 6, 7, 8])] =
      [8, 11, 11] ∧
    directoryEntry {} true 0 = 0x8000 ∧ directoryEntry {} false 3 = 0x0003 ∧ directoryEntry {} true 3 = 0x8003 := by
  decide

/-! ### Witnesses: encodings -/

theorem test_witness_DecodeEncodeIsIdentity : (Instr.rawRun 1 [0x5A]).wellFormed = true ∧
    (Instr.shortRunRepeat 255 11).wellFormed = true := by decide
theorem test_witness_TokenDecodeConsumesItsNibbles :
    decodeToken [0xC, 0x0, 0x1, 0x5, 0xA, 0x3] = .ok (.rawRun 1 [0x5A], [0x3]) := by decide
/-- A decoding for each clause: the selectors 0x0 and 0xB, 0xF, 0xD, 0xE, and 0xC with the counts 0 and 1. -/
theorem test_witness_TokenLengthBySelector :
    decodeToken [0x0] = .ok (.dictRef 0, []) ∧ decodeToken [0xB, 0x1] = .ok (.dictRef 11, [0x1]) ∧
    decodeToken [0xF, 0x0, 0x0] = .ok (.rawByte 0, []) ∧
    decodeToken [0xD, 0x0, 0x4, 0xB] = .ok (.shortRunRepeat 4 11, []) ∧
    decodeToken [0xE, 0x0, 0x3, 0x0, 0x0] = .ok (.runRepeat 3 0, []) ∧
    decodeToken [0xC, 0x0, 0x0] = .ok (.rawRun 0 [], []) ∧
    decodeToken [0xC, 0x0, 0x1, 0x5, 0xA] = .ok (.rawRun 1 [0x5A], []) := by decide
/-- The lowest and the highest reserved bit, and a legal word. -/
theorem test_witness_ReservedBitsMakeWordsIllegal :
    (0x00000010 : Word).extractLsb' 4 28 ≠ 0 ∧ (0x80000000 : Word).extractLsb' 4 28 ≠ 0 ∧
    decodeCommand 0x00000002 = .ok .encode := by decide

/-! ### Witnesses: reset and one step -/

theorem test_witness_CommandsRightAfterReset :
    (Instr.pack = .pack ∧ (1 : Word) = 1) ∧ (Instr.encode = .encode ∧ (2 : Word) = 2) := by decide
/-- Not BUSY, and BUSY with the core not due. -/
theorem test_witness_ResetInputClearsTheMachine :
    (hostState [.reset]).HostsTurn ∧ (hostState [.reset]).hostOps = [.reset] ∧
    (busyState 1 [.reset]).HostsTurn ∧ (busyState 1 [.reset]).hostOps = [.reset] :=
  ⟨⟨rfl, rfl, rfl⟩, rfl, ⟨rfl, rfl, rfl⟩, rfl⟩
theorem test_witness_StepRunsAcceptedCommand :
    (State.reset.loadCommand 1).CoresTurn ∧ decodeCommand (State.reset.loadCommand 1).snap.cmd = .ok .pack :=
  ⟨⟨rfl, rfl, rfl⟩, rfl⟩
theorem test_witness_StepRunsPortToken :
    (State.reset.loadToken [0xF, 0x5, 0xA]).faults = [] ∧ (Instr.rawByte 0x5A).isToken = true ∧
    (Instr.rawByte 0x5A).wellFormed = true ∧
    (State.reset.loadToken [0xF, 0x5, 0xA]).port = tokenNibbles (.rawByte 0x5A) := by decide
/-- The word 3 for OP, the words 0x10 and 0x80000000 for the reserved bits. -/
theorem test_witness_IllegalCommandCompletes :
    (State.reset.loadCommand 3).CoresTurn ∧ 3 ≤ ((State.reset.loadCommand 3).snap.cmd.extractLsb' 0 4).toNat ∧
    (State.reset.loadCommand 0x10).CoresTurn ∧ (State.reset.loadCommand 0x10).snap.cmd.extractLsb' 4 28 ≠ 0 :=
  ⟨⟨rfl, rfl, rfl⟩, by decide, ⟨rfl, rfl, rfl⟩, by decide⟩
theorem test_witness_FaultedRunStops :
    (State.reset.recordFault (.busError 0x00100)).faults = .busError 0x00100 :: [] := rfl
/-- A step that records a fault. -/
theorem test_witness_FaultRecordOnlyGrows :
    isNext (step (hostState [.read 0x00002 .word])) = true ∧
    (nextOr (step (hostState [.read 0x00002 .word]))).faults = [.busError 0x00002] := by decide
theorem test_witness_IdleKeepsState : State.reset.HostsTurn ∧ State.reset.hostOps = [] := ⟨⟨rfl, rfl, rfl⟩, rfl⟩
theorem test_witness_PollingReachesTheCoreStep :
    (busyState 2 [.poll]).faults = [] ∧ (busyState 2 [.poll]).port = [] ∧ (busyState 2 [.poll]).status.busy = true ∧
    (busyState 2 [.poll]).hostOps = .poll :: [] := by decide

/-! ### Witnesses: PACK and ENCODE -/

/-- V-P9: PIX_LEN 3 for 2 by 2. -/
theorem test_witness_PackShapeError :
    (packState 2 2 0 3 []).snap.pixLen.toNat ≠
      (packState 2 2 0 3 []).snap.geom.width.toNat * (packState 2 2 0 3 []).snap.geom.height.toNat := by decide
/-- V-P2, a frame of two pixels. -/
theorem test_witness_PackWritesColumns :
    (packState 2 1 3 2 [3, 0]).snap.pixLen.toNat =
      (packState 2 1 3 2 [3, 0]).snap.geom.width.toNat * (packState 2 1 3 2 [3, 0]).snap.geom.height.toNat ∧
    ∀ k, k < (packState 2 1 3 2 [3, 0]).snap.geom.width.toNat * (packState 2 1 3 2 [3, 0]).snap.geom.height.toNat →
      ((packState 2 1 3 2 [3, 0]).mem.read (Config.pixBase + k)).isSome = true := by decide
/-- Two states that differ in IRQ_EN only: both succeed. -/
theorem test_witness_PackDependsOnlyOnItsOperands :
    (let s := packState 2 1 3 2 [3, 0]
     let s' := { s with ctrl := ⟨true⟩ }
     s.snap.geom = s'.snap.geom ∧ s.snap.fg = s'.snap.fg ∧
     (∀ k, k < s.snap.geom.width.toNat * s.snap.geom.height.toNat →
        s.mem.read (Config.pixBase + k) = s'.mem.read (Config.pixBase + k)) ∧
     isNext (exec .pack s) = true ∧ isNext (exec .pack s') = true ∧
     (nextOr (exec .pack s)).status.errCode = .none ∧ (nextOr (exec .pack s')).status.errCode = .none) := by decide
/-- An unwritten pixel, and an unwritten input byte. -/
theorem test_witness_UnwrittenInputFaults :
    (let s := packState 2 1 3 2 [3]
     s.snap.pixLen.toNat = s.snap.geom.width.toNat * s.snap.geom.height.toNat ∧
       1 < s.snap.geom.width.toNat * s.snap.geom.height.toNat ∧ s.mem.read (Config.pixBase + 1) = none) ∧
    (let s := { encodeState [7] [1, 2] with mem := [] }
     s.snap.colLen.toNat ≤ 8192 ∧ s.snap.dictValid = true ∧ 0 < s.snap.colLen.toNat ∧
       s.mem.read (Config.colBase + 0) = none) := by decide
/-- A valid dictionary with a match in its first and in its last entry. -/
theorem test_witness_LookupFindsFirstEntry :
    (let p := snapOf ⟨0, 0⟩ 0 0 0 [3, 7]
     p.dictValid = true ∧ 0 < p.dictCnt.toNat ∧ p.dict[0]? = some 3 ∧ 1 < p.dictCnt.toNat ∧ p.dict[1]? = some 7) := by
  decide
/-- A full dictionary of twelve distinct entries, and the empty one. -/
theorem test_witness_ComparatorsAgreeWithLookup :
    (snapOf ⟨0, 0⟩ 0 0 0 [0, 1, 2, 3, 4, 5, 6, 7, 8, 9, 10, 11]).dictValid = true ∧
    (snapOf ⟨0, 0⟩ 0 0 0 []).dictValid = true := by decide
/-- The first length that is too long; then, at the last one that is not, a count of 13 and two equal entries. -/
theorem test_witness_EncodeChecksInOrder :
    (let s := { State.reset with snap := snapOf ⟨0, 0⟩ 0 0 8193 [] }
     8192 < s.snap.colLen.toNat) ∧
    (let s := { State.reset with snap := snapOf ⟨0, 0⟩ 0 0 8192 [0, 1, 2, 3, 4, 5, 6, 7, 8, 9, 10, 11, 12] }
     s.snap.colLen.toNat ≤ 8192 ∧ 12 < s.snap.dictCnt.toNat) ∧
    (let s := { State.reset with snap := snapOf ⟨0, 0⟩ 0 0 0 [9, 9] }
     s.snap.colLen.toNat ≤ 8192 ∧ 1 < s.snap.dictCnt.toNat ∧ s.snap.dict[0]? = some 9 ∧
       s.snap.dict[1]? = some 9) := by decide
/-- A position for each clause: a run of three, a dictionary run of four, three raw bytes, one dictionary byte, one raw
byte. -/
theorem test_witness_FirstMatchingRuleDecides :
    (([5, 5, 5] : List Byte)[0]? = some 5 ∧ (⟨0, 5, 3⟩ : Segment) ∈ segments [5, 5, 5] ∧ (5 : Byte) ∉ ([] : List Byte)) ∧
    (([5, 5, 5, 5] : List Byte)[0]? = some 5 ∧ (⟨0, 5, 4⟩ : Segment) ∈ segments [5, 5, 5, 5] ∧ (5 : Byte) ∈ [5]) ∧
    (segments [1, 2, 3] = [] ∧ span [] [1, 2, 3] (segments [1, 2, 3]) 0 = 3) ∧
    (segments [1, 2] = [] ∧ span [1] [1, 2] (segments [1, 2]) 0 = 0 ∧ dictIndex [1] 1 = some 0) ∧
    (span [1] [1, 2] (segments [1, 2]) 1 = 1 ∧ (2 : Byte) ∉ [1]) := by decide
/-- One emitted token of each kind, each at the smallest operand of 30_encoding R95. -/
theorem test_witness_EmittedTokensAreInRange :
    ([5] : List Byte).length ≤ 12 ∧ Instr.dictRef 0 ∈ tokenize [5] [5, 6] ∧ Instr.rawByte 6 ∈ tokenize [5] [5, 6] ∧
    Instr.runRepeat 3 6 ∈ tokenize [5] [6, 6, 6] ∧ Instr.shortRunRepeat 4 0 ∈ tokenize [5] [5, 5, 5, 5] ∧
    Instr.rawRun 3 [1, 2, 3] ∈ tokenize [5] [1, 2, 3] := by decide
/-- A segment for each clause, at the smallest qualifying length. -/
theorem test_witness_QualifyingSegmentIsOneToken :
    ((⟨1, 6, 3⟩ : Segment) ∈ segments [5, 6, 6, 6] ∧ (6 : Byte) ∉ [5]) ∧
    ((⟨1, 5, 4⟩ : Segment) ∈ segments [6, 5, 5, 5, 5] ∧ (5 : Byte) ∈ [5]) := by decide
/-- The two length premises at their bounds. -/
theorem test_witness_StreamFitsOut :
    (List.replicate 8160 (0 : Byte)).length ≤ 8160 ∧ (List.replicate 8192 (0 : Byte)).length ≤ 8192 := by
  rw [List.length_replicate, List.length_replicate]; decide
/-- The last byte of OUT: for each token kind, a place from which its bytes just fit. -/
theorem test_witness_TokensEmitTheirNibbles :
    (let at' := fun (ob : Nat) (half : Bool) => { State.reset with enc := ⟨[], 0, 0, half, 0, ob⟩ }
     (at' 12287 true).enc.ob + ((at' 12287 true).enc.half.toNat + 1) / 2 ≤ Config.outSize ∧
     (at' 12286 true).enc.ob + ((at' 12286 true).enc.half.toNat + 3) / 2 ≤ Config.outSize ∧
     (at' 12285 true).enc.ob + ((at' 12285 true).enc.half.toNat + 5) / 2 ≤ Config.outSize ∧
     (at' 12286 false).enc.ob + ((at' 12286 false).enc.half.toNat + 4) / 2 ≤ Config.outSize ∧
     (at' 12285 true).enc.ob + ((at' 12285 true).enc.half.toNat + (3 + 2 * [0x5A].length)) / 2 ≤ Config.outSize) := by
  decide
theorem test_witness_TokensChangeOnlyTheirBytes :
    (Instr.rawByte 0x5A).isToken = true ∧ isNext (exec (.rawByte 0x5A) State.reset) = true := by decide
theorem test_witness_EncodeWritesThePackedStream :
    (let s := encodeState [5] [5, 6]
     s.snap.colLen.toNat ≤ 8192 ∧ s.snap.dictValid = true ∧ ([5, 6] : List Byte).length = s.snap.colLen.toNat ∧
       ∀ k, k < ([5, 6] : List Byte).length → s.mem.read (Config.colBase + k) = ([5, 6] : List Byte)[k]?) := by decide
/-- A successful ENCODE: the premises of EncodeResultRegisters and of EncodeRoundTrip. -/
theorem test_witness_EncodeResultRegisters :
    isNext (exec .encode (encodeState [5] [5, 6])) = true ∧
    (nextOr (exec .encode (encodeState [5] [5, 6]))).status.errCode = .none := by decide
theorem test_witness_EncodeRoundTrip :
    isNext (exec .encode (encodeState [] [1, 2, 3])) = true ∧
    (nextOr (exec .encode (encodeState [] [1, 2, 3]))).status.errCode = .none := by decide
/-- A token, a PACK with an error, and a PACK that succeeds. -/
theorem test_witness_InstructionsReadOnlyTheSnapshot :
    isNext (exec (.rawByte 7) State.reset) = true ∧
    (isNext (exec .pack (packState 2 1 3 1 [3])) = true ∧
      (nextOr (exec .pack (packState 2 1 3 1 [3]))).status.errCode ≠ .none) ∧
    (isNext (exec .pack (packState 2 1 3 2 [3, 0])) = true ∧
      (nextOr (exec .pack (packState 2 1 3 2 [3, 0]))).status.errCode = .none) := by decide
/-- A completion without and one with an error. -/
theorem test_witness_EveryCompletionSetsDone :
    isNext (coreStep (State.reset.loadCommand 1)) = true ∧ isNext (coreStep (State.reset.loadCommand 3)) = true := by
  decide
theorem test_witness_ErrorsArePrecise :
    isNext (coreStep (State.reset.accept 3)) = true ∧
    (nextOr (coreStep (State.reset.accept 3))).status.errCode ≠ .none := by decide

/-! ### Witnesses: the host's side -/

/-- An unmapped address and a misaligned one, a read and a write. -/
theorem test_witness_BusErrorIsAnsweredOnTheBusAlone :
    ((hostState [.read 0x33000 .byte]).HostsTurn ∧ (hostState [.read 0x33000 .byte]).hostOps = .read 0x33000 .byte :: [] ∧
      ¬mapTakes (0x33000 : Addr).toNat .byte) ∧
    ((hostState [.write 0x00002 .word 7]).HostsTurn ∧
      (hostState [.write 0x00002 .word 7]).hostOps = .write 0x00002 .word 7 :: [] ∧
      ¬mapTakes (0x00002 : Addr).toNat .word) :=
  ⟨⟨⟨rfl, rfl, rfl⟩, rfl, by unfold mapTakes Size.bytes; decide⟩,
    ⟨⟨rfl, rfl, rfl⟩, rfl, by unfold mapTakes; decide⟩⟩
theorem test_witness_WritableFieldsReadBack :
    ((Reg.dict 11).mask ≠ 0 ∧ Reg.ctrl.mask ≠ 0) ∧ State.reset.win = false := by decide
/-- R21: the first and the last dictionary entry stand at 0x40 and 0x6C. -/
theorem test_dict_offsets :
    (nextOr (hostWrite 0x00040 .word 0x1AB State.reset)).dict[0] = 0xAB ∧
    (nextOr (hostWrite 0x0006C .word 0x1CD State.reset)).dict[11] = 0xCD := by decide
theorem test_witness_RegisterWriteFrame : (Reg.status ≠ .cmd ∧ Reg.dict 0 ≠ .status) ∧
    (Reg.dict 1 ≠ .cmd ∧ Reg.dict 0 ≠ .dict 1) := by decide
/-- Each clause at the bounds of its range. -/
theorem test_witness_ReadOnlyAndReservedIgnoreWrites :
    State.reset.win = false ∧
    ((0x0001C : Addr).toNat % 4 = 0 ∧ (0x00020 : Addr).toNat % 4 = 0) ∧
    ((0x00028 : Addr).toNat % 4 = 0 ∧ 0x28 ≤ (0x00028 : Addr).toNat ∧ (0x00028 : Addr).toNat ≤ 0x3C) ∧
    ((0x0003C : Addr).toNat % 4 = 0 ∧ 0x28 ≤ (0x0003C : Addr).toNat ∧ (0x0003C : Addr).toNat ≤ 0x3C) ∧
    ((0x00070 : Addr).toNat % 4 = 0 ∧ 0x70 ≤ (0x00070 : Addr).toNat ∧ (0x00070 : Addr).toNat ≤ 0xFC) ∧
    ((0x000FC : Addr).toNat % 4 = 0 ∧ 0x70 ≤ (0x000FC : Addr).toNat ∧ (0x000FC : Addr).toNat ≤ 0xFC) := by decide
/-- The last word of COL and the last byte of OUT. -/
theorem test_witness_BufferWriteIsLittleEndian :
    State.reset.win = false ∧ mapTakes (0x21FFC : Addr).toNat .word ∧ 0x100 ≤ (0x21FFC : Addr).toNat ∧
    mapTakes (0x32FFF : Addr).toNat .byte ∧ 0x100 ≤ (0x32FFF : Addr).toNat := by
  unfold mapTakes Size.bytes; decide
/-- The four bytes of V-C18, read as a word. -/
theorem test_witness_BufferReadIsLittleEndian :
    (let s := { State.reset with mem := Memory.writeBytes [] 0x21FFC [0x11, 0x22, 0x33, 0x44] }
     s.win = false ∧ ((0x20000 ≤ (0x21FFC : Addr).toNat ∧ (0x21FFC : Addr).toNat < 0x22000) ∧
       (0x21FFC : Addr).toNat % Size.word.bytes = 0) ∧ 0x100 ≤ (0x21FFC : Addr).toNat ∧
     ([0x11, 0x22, 0x33, 0x44] : List Byte).length = Size.word.bytes ∧
     ∀ k, k < Size.word.bytes → s.mem.read ((0x21FFC : Addr).toNat + k) = ([0x11, 0x22, 0x33, 0x44] : List Byte)[k]?) := by
  decide
theorem test_witness_BufferReadMapTakes : mapTakes (0x21FFC : Addr).toNat .word := by
  unfold mapTakes Size.bytes; decide
/-- A word of which one byte is written. -/
theorem test_witness_HostReadOfUnwrittenFaults :
    (let s := { State.reset with mem := Memory.writeBytes [] 0x10000 [7] }
     s.win = false ∧ 0x100 ≤ (0x10000 : Addr).toNat ∧ 1 < Size.word.bytes ∧
     s.mem.read ((0x10000 : Addr).toNat + 1) = none) ∧ mapTakes (0x10000 : Addr).toNat .word := by
  refine ⟨by decide, ?_⟩
  unfold mapTakes Size.bytes; decide
/-- In the window: the accesses of CMD, the first and the last barred register offset, a reserved offset, and the first
and the last buffer byte. -/
theorem test_witness_HazardsAreRecorded :
    (∀ op, (busyState 1 [op]).HostsTurn ∧ (busyState 1 [op]).win = true ∧ (busyState 1 [op]).hostOps = op :: []) ∧
    (∀ a ∈ ([0x00004, 0x0000C, 0x0006C, 0x00028, 0x00070, 0x000FC] : List Addr),
      mapTakes a.toNat .word ∧ a ≠ 0x00000 ∧ a ≠ 0x00008) ∧
    (∀ a ∈ ([0x10000, 0x32FFF] : List Addr), mapTakes a.toNat .byte ∧ a ≠ 0x00000 ∧ a ≠ 0x00008) := by
  refine ⟨fun _ => ⟨⟨rfl, rfl, rfl⟩, rfl, rfl⟩, ?_, ?_⟩ <;> simp [mapTakes, Size.bytes]
/-- R286, "Every other access is a hazard": a write of a reserved offset in the window. -/
theorem test_reserved_write_is_hazard :
    (nextOr (step (busyState 1 [.write 0x00028 .word 5]))).faults = [.hazard 0x00028] ∧
    (nextOr (step (hostState [.write 0x00028 .word 5]))).faults = [] := by decide
theorem test_witness_CmdWriteStartsTheCommand : State.reset.win = false ∧ State.reset.status.busy = false := by decide
/-- The data for each clause: a 1 that clears DONE, a 0 that masks. -/
theorem test_witness_InterruptIsALevel : (0x00000002 : Word).getLsbD 1 = true ∧ (0x00000002 : Word).getLsbD 0 = false := by
  decide
theorem test_witness_EveryStepKeepsTheInvariant :
    State.reset.Inv ∧ isNext (step State.reset) = true ∧ isNext (step (hostState [.write 0x10000 .byte 7])) = true :=
  ⟨⟨by decide, by decide, by decide, by decide, by decide, by decide⟩, by decide, by decide⟩

/-! ### Witnesses: the host-side functions -/

/-- The flag clause of the offsets: both origins exist. -/
theorem test_witness_OffsetsCoverTheBlob :
    ({} : Config.Directory).origin = .blob ∧ ({ origin := .record } : Config.Directory).origin = .record := by decide
/-- The largest offset. -/
theorem test_witness_DirectoryEntryRoundTrip : 32767 < 2 ^ 15 := by decide
/-- Two frames, the last with an empty payload: little-endian from 0, and big-endian from `2 + 2F` = 6. -/
theorem test_witness_RecordPlacesPayloads :
    spriteRecord {} ⟨['a'], false, 8, 8, []⟩ [(true, [0xE0, 0x80]), (false, [])] =
      .ok [8, 8, 0x00, 0x80, 0x02, 0x00, 0xE0, 0x80] ∧
    spriteRecord { byteOrder := .big, origin := .record } ⟨['a'], false, 8, 8, []⟩ [(true, [0xE0, 0x80]), (false, [])] =
      .ok [8, 8, 0x80, 0x06, 0x00, 0x08, 0xE0, 0x80] ∧
    ([(true, [0xE0, 0x80]), (false, [])] : List (Bool × List Byte))[1]? = some (false, []) := by decide

/-! ### Witnesses: the host's turn and the host's run -/

/-- A read and a write that are taken, a read and a write that fault, a POLL of a BUSY and of an IDLE NSE, a wait. -/
theorem test_witness_StepMakesTheHostsAccess :
    (∀ op, (hostState [op]).HostsTurn ∧ (hostState [op]).hostOps = op :: []) ∧
    (busyState 1 [.poll]).HostsTurn ∧ (busyState 1 [.poll]).status.busy = true ∧
    isNext (hostRead 0x00008 .word ((hostState [.read 0x00008 .word]).hostTurn [])) = true ∧
    isNext (hostWrite 0x10000 .byte 7 ((hostState [.write 0x10000 .byte 7]).hostTurn [])) = true ∧
    faultOf (hostRead 0x10000 .byte ((hostState [.read 0x10000 .byte]).hostTurn [])) = some (.unwrittenRead 0x10000) ∧
    faultOf (hostWrite 0x00002 .word 7 ((hostState [.write 0x00002 .word 7]).hostTurn [])) = some (.busError 0x00002) :=
  ⟨fun _ => ⟨⟨rfl, rfl, rfl⟩, rfl⟩, ⟨rfl, rfl, rfl⟩, rfl, by decide, by decide, by decide, by decide⟩
theorem test_witness_HostRunGivesTheWireOutput : State.reset.Quiet := ⟨rfl, rfl, rfl, rfl⟩
/-- A sprite of one 1 by 1 frame of the foreground colour: the column byte 0x01 is the dictionary, its stream `00` is no
shorter, and the record holds it raw (R222, R223, R228, R229). -/
theorem test_host_run :
    (hostRun {} 3 4 false [⟨['a'], false, 1, 1, [[3]]⟩] State.reset).map Prod.fst =
      .ok ([0x01], [(['a'], [0x01, 0x01, 0x00, 0x00, 0x01])]) := by decide

end Sys2Proof.Machine
end

section
/-! What every step keeps: the fault record and the invariant. -/

namespace Sys2Proof.Machine

/-! ### What a command or token leaves alone -/

/-- ENCODE on the input bytes it read, once its checks have passed (43 R173, R179). -/
theorem execEncode_checked {s : State} {x : List Byte} (hl : ¬Config.colSize < s.snap.inputLen)
    (hd : s.snap.dictValid = true) (hx : s.mem.readBytes Config.colBase s.snap.inputLen = .ok x) :
    execEncode s = encodeInput x s := by
  unfold execEncode
  rw [if_neg hl, if_neg (by simp [hd]), hx]

/-- An emission changes the buffer bytes and the encoder's internal state alone. -/
theorem Emits.frame {ns : List Nibble} {m : Nat} {s u : State} (h : Emits ns m s u) :
    u = { s with mem := u.mem, enc := u.enc } := by
  rw [h.rest]

/-- The flush changes the buffer bytes and the encoder's internal state alone. -/
theorem flush_frame {s u : State} (h : flush s = .next u) : u = { s with mem := u.mem, enc := u.enc } := by
  rw [flush_next h]

/-- No instruction touches the fault record: a fault is the answer of `exec`, not a change of its state. -/
theorem exec_faults {i : Instr} {s u : State} (h : exec i s = .next u) : u.faults = s.faults := by
  have token (hi : i.isToken = true) : u.faults = s.faults := by rw [(exec_token_next hi h).frame]
  cases i with
  | nop => cases h; rfl
  | pack =>
    rcases execPack_next h with ⟨-, rfl⟩ | ⟨-, pix, -, rfl⟩ <;> rfl
  | encode =>
    rcases execEncode_next h with ⟨-, rfl⟩ | ⟨-, -, rfl⟩ | ⟨-, -, x, -, t, v, he, hv, rfl⟩
    · rfl
    · rfl
    · rw [finishEncode_faults, flush_frame hv, he.frame]
  | dictRef _ | rawRun _ _ | shortRunRepeat _ _ | runRepeat _ _ | rawByte _ => exact token rfl

/-! ### The packer stays inside OUT (44 R205) -/

/-- A byte is put inside OUT only. -/
theorem putOut_next {b : Byte} {s u : State} (h : putOut b s = .next u) :
    s.enc.ob < Config.outSize ∧ u.enc.ob = s.enc.ob + 1 := by
  unfold putOut at h
  split at h
  next hob => cases h; exact ⟨hob, rfl⟩
  next => cases h

/-- One emitted nibble moves `ob` only inside OUT. -/
theorem emit_ob_le {n : Nibble} {s u : State} (h : emit n s = .next u) : u.enc.ob ≤ max s.enc.ob Config.outSize := by
  unfold emit at h
  split at h
  next =>
    obtain ⟨hob, hu⟩ := putOut_next h
    simp only at hob hu
    omega
  next => cases h; exact Nat.le_max_left _ _

theorem emitAll_ob_le {ns : List Nibble} {s u : State} (h : emitAll ns s = .next u) :
    u.enc.ob ≤ max s.enc.ob Config.outSize := by
  induction ns generalizing s with
  | nil => cases h; exact Nat.le_max_left _ _
  | cons n ns ih =>
    obtain ⟨t, ht, hu⟩ := andThen_eq_next h
    have h1 := emit_ob_le ht
    have h2 := ih hu
    omega

theorem emitToken_ob_le {ns : List Nibble} {m : Nat} {s u : State} (h : emitToken ns m s = .next u) :
    u.enc.ob ≤ max s.enc.ob Config.outSize := by
  obtain ⟨t, ht, hu⟩ := andThen_eq_next h
  cases hu
  have hob := emitAll_ob_le ht
  exact hob

theorem encodeLoop_ob_le {d x : List Byte} {fuel : Nat} {s u : State} (h : encodeLoop d x fuel s = .next u) :
    u.enc.ob ≤ max s.enc.ob Config.outSize := by
  induction fuel generalizing s with
  | zero => cases h; exact Nat.le_max_left _ _
  | succ fuel ih =>
    unfold encodeLoop at h
    split at h
    next => cases h; exact Nat.le_max_left _ _
    next t hc =>
      obtain ⟨w, hw, hu⟩ := andThen_eq_next h
      rw [runToken_eq (chooseToken_isToken hc)] at hw
      have h1 := emitToken_ob_le hw
      have h2 := ih hu
      omega

theorem flush_ob_le {s u : State} (h : flush s = .next u) : u.enc.ob ≤ max s.enc.ob Config.outSize := by
  unfold flush at h
  split at h
  next =>
    obtain ⟨hob, hu⟩ := putOut_next h
    omega
  next => cases h; exact Nat.le_max_left _ _

theorem exec_token_ob_le {i : Instr} {s u : State} (hi : i.isToken = true) (h : exec i s = .next u) :
    u.enc.ob ≤ max s.enc.ob Config.outSize := by
  cases i with
  | nop | pack | encode => cases hi
  | dictRef _ | rawRun _ _ | shortRunRepeat _ _ | runRepeat _ _ | rawByte _ => exact emitToken_ob_le h

/-! ### The canonical form of the buffer bytes (10_state R38, 20_memory R53) -/

/-- Bytes written to OUT, counted up from `ob`, keep the canonical form when the count stays inside OUT. -/
theorem memory_writeOut_wf {m : Memory} {ob : Nat} {bs : List Byte} (h : m.wf)
    (hob : ob + bs.length ≤ max ob Config.outSize) : (m.writeBytes (Config.outBase + ob) bs).wf :=
  memory_writeBytes_wf h fun k hk => by
    rw [Nat.add_assoc]
    exact inBuffer_out (by omega)

theorem Emits.mem_wf {ns : List Nibble} {m : Nat} {s u : State} (h : Emits ns m s u) (hm : s.mem.wf)
    (hob : u.enc.ob ≤ max s.enc.ob Config.outSize) : u.mem.wf := by
  rw [h.rest]
  exact memory_writeOut_wf hm (h.ob ▸ hob)

theorem flush_mem_wf {s u : State} (h : flush s = .next u) (hm : s.mem.wf) : u.mem.wf := by
  have hob := flush_ob_le h
  rw [flush_next h] at hob ⊢
  exact memory_writeOut_wf hm (by simpa using hob)

/-- The columns of a frame fit COL (41 R135). -/
theorem packColumns_mem_wf {m : Memory} (p : Snapshot) (pix : List Byte) (h : m.wf) :
    (m.writeBytes Config.colBase (packColumns p.width p.height p.fg pix)).wf :=
  memory_writeBytes_wf h fun k hk => by
    have hcols : p.width * bandCount p.height ≤ 8160 := (frame_bounds p.geom.width p.geom.height).1
    rw [length_packColumns] at hk
    exact inBuffer_col (by unfold Config.colSize; omega)

/-! ### The invariant under the state's updates -/

/-- The invariant speaks of five fields alone. -/
theorem State.Inv.congr {s t : State} (h : s.Inv) (hmem : t.mem = s.mem) (hstatus : t.status = s.status)
    (hwin : t.win = s.win) (houtLen : t.outLen = s.outLen) (hnib : t.nibCount = s.nibCount) : t.Inv where
  mem := hmem ▸ h.mem
  busyWindow := by rw [hstatus, hwin]; exact h.busyWindow
  busyDone := by rw [hstatus]; exact h.busyDone
  busyErr := by rw [hstatus]; exact h.busyErr
  outLen := by rw [houtLen, hnib]; exact h.outLen
  outFits := by rw [houtLen]; exact h.outFits

/-- A change of the buffer bytes that keeps their canonical form keeps the invariant. -/
theorem State.Inv.withMem {s : State} (h : s.Inv) {m : Memory} (hm : m.wf) : State.Inv { s with mem := m } :=
  ⟨hm, h.busyWindow, h.busyDone, h.busyErr, h.outLen, h.outFits⟩

/-- While the NSE is IDLE the invariant asks nothing of the window, DONE and ERR_CODE. -/
theorem State.Inv.of_idle {s : State} (hm : s.mem.wf) (hb : s.status.busy = false)
    (houtLen : s.outLen.toNat = (s.nibCount.toNat + 1) / 2) (hfits : s.outLen.toNat ≤ Config.outSize) : s.Inv where
  mem := hm
  busyWindow := by simp [hb]
  busyDone := by simp [hb]
  busyErr := by simp [hb]
  outLen := houtLen
  outFits := hfits

theorem State.Inv.complete {s : State} (h : s.Inv) (c : ErrCode) : (s.complete c).Inv :=
  .of_idle h.mem rfl h.outLen h.outFits

theorem State.Inv.recordFault {s : State} (h : s.Inv) (f : Fault) : (s.recordFault f).Inv :=
  h.congr rfl rfl rfl rfl rfl

theorem State.Inv.hostTurn {s : State} (h : s.Inv) (rest : List HostOp) : (s.hostTurn rest).Inv :=
  h.congr rfl rfl rfl rfl rfl

/-- Acceptance opens the window and clears DONE and ERR_CODE (40_control R111). -/
theorem State.Inv.accept {s : State} (h : s.Inv) (w : Word) : (s.accept w).Inv :=
  ⟨h.mem, fun _ => rfl, fun _ => rfl, fun _ => rfl, h.outLen, h.outFits⟩

/-- The window is closed by a read of BUSY = 0 only (10_state R45). -/
theorem State.Inv.statusSeen {s : State} (h : s.Inv) : s.statusSeen.Inv :=
  ⟨h.mem, fun hb => by rw [statusSeen_status] at hb; simp [h.busyWindow hb, hb], h.busyDone, h.busyErr, h.outLen,
    h.outFits⟩

/-- A register write keeps the invariant: CMD starts a command, a write of STATUS can only clear DONE, and OUT_LEN and
NIB_COUNT are read-only. -/
theorem State.Inv.writeReg {s : State} (h : s.Inv) (r : Reg) (w : Word) : (s.writeReg r w).Inv := by
  cases r with
  | cmd => exact h.accept w
  | status =>
    exact ⟨h.mem, h.busyWindow, fun hb => by simp [State.writeReg, h.busyDone hb], h.busyErr, h.outLen, h.outFits⟩
  | ctrl | geom | fg | pixLen | colLen | outLen | nibCount | dictCnt | dict _ | reserved =>
    exact h.congr rfl rfl rfl rfl rfl

theorem State.Inv.reset : State.reset.Inv :=
  .of_idle ⟨List.Pairwise.nil, by simp [State.reset]⟩ rfl rfl (Nat.zero_le _)

theorem State.Inv.applyReset (s : State) : s.applyReset.Inv := State.Inv.reset.congr rfl rfl rfl rfl rfl

/-! ### The invariant under the instructions -/

/-- A token's emission keeps the invariant. -/
theorem Emits.inv {ns : List Nibble} {m : Nat} {s u : State} (h : Emits ns m s u) (hs : s.Inv)
    (hob : u.enc.ob ≤ max s.enc.ob Config.outSize) : u.Inv := by
  have hframe := h.frame
  exact (hs.withMem (h.mem_wf hs.mem hob)).congr rfl (by rw [hframe]) (by rw [hframe]) (by rw [hframe])
    (by rw [hframe])

theorem execPack_inv {s u : State} (hs : s.Inv) (h : execPack s = .next u) : u.Inv := by
  rcases execPack_next h with ⟨-, rfl⟩ | ⟨-, pix, -, rfl⟩
  · exact hs.complete .shape
  · exact .of_idle (packColumns_mem_wf s.snap pix hs.mem) rfl hs.outLen hs.outFits

/-- The counts of the packer after the flush: `ob` is `ceil(nib / 2)` (44 R200, R201). -/
theorem Emits.flush_ob {ns : List Nibble} {m : Nat} {s t v : State} (he : Emits ns m s t)
    (h0 : s.enc.ob = 0 ∧ s.enc.nib = 0 ∧ s.enc.half = false) (hv : flush t = .next v) :
    v.enc.ob = (v.enc.nib + 1) / 2 := by
  obtain ⟨hob0, hnib0, hhalf0⟩ := h0
  have hpend : s.enc.pending = [] := by simp [Encoder.pending, hhalf0]
  have hnib : v.enc.nib = ns.length := by rw [flush_next hv]; simp [he.nib, hnib0]
  have hob : v.enc.ob = ns.length / 2 + ns.length % 2 := by
    rw [flush_next hv]
    simp only [he.ob, he.pending, hpend, hob0, List.nil_append, length_fullBytes, length_leftover, Nat.zero_add]
  omega

/-- The results of ENCODE on the input bytes it read: the stream lies in OUT, OUT_LEN and NIB_COUNT count it. -/
theorem encodeInput_inv {x : List Byte} {s u : State} (hs : s.Inv) (h : encodeInput x s = .next u) : u.Inv := by
  obtain ⟨t, ht, h⟩ := andThen_eq_next h
  obtain ⟨v, hv, h⟩ := andThen_eq_next h
  cases h
  have he := encodeLoop_next ht
  have htob : t.enc.ob ≤ Config.outSize := by simpa [Encoder.initial] using encodeLoop_ob_le ht
  have hvob : v.enc.ob ≤ Config.outSize := by
    have := flush_ob_le hv
    omega
  have hcount := he.flush_ob ⟨rfl, rfl, rfl⟩ hv
  have hmem : v.mem.wf := flush_mem_wf hv (he.mem_wf hs.mem (by omega))
  unfold Config.outSize at hvob
  have houtLen : (finishEncode x.length v).outLen.toNat = v.enc.ob := by
    rw [finishEncode_outLen, BitVec.toNat_ofNat, Nat.mod_eq_of_lt (by omega)]
  have hnib : (finishEncode x.length v).nibCount.toNat = v.enc.nib := by
    rw [finishEncode_nibCount, BitVec.toNat_ofNat, Nat.mod_eq_of_lt (by omega)]
  exact .of_idle hmem rfl (by rw [houtLen, hnib, hcount]) (by rw [houtLen]; exact hvob)

theorem execEncode_inv {s u : State} (hs : s.Inv) (h : execEncode s = .next u) : u.Inv := by
  rcases execEncode_next h with ⟨-, rfl⟩ | ⟨-, -, rfl⟩ | ⟨hl, hd, x, hx, -⟩
  · exact hs.complete .len
  · exact hs.complete .dict
  · exact encodeInput_inv hs (execEncode_checked hl hd hx ▸ h)

theorem exec_inv {i : Instr} {s u : State} (hs : s.Inv) (h : exec i s = .next u) : u.Inv := by
  have token (hi : i.isToken = true) : u.Inv := (exec_token_next hi h).inv hs (exec_token_ob_le hi h)
  cases i with
  | nop => cases h; exact hs.complete .none
  | pack => exact execPack_inv hs h
  | encode => exact execEncode_inv hs h
  | dictRef _ | rawRun _ _ | shortRunRepeat _ _ | runRepeat _ _ | rawByte _ => exact token rfl

/-! ### One operation, one step -/

/-- What the core's step can do: complete with ILLEGAL_CMD (40_control R114) or run an instruction. -/
theorem coreStep_next {s u : State} (h : coreStep s = .next u) :
    u = s.complete .illegalCmd ∨ ∃ i, exec i s = .next u := by
  unfold coreStep at h
  split at h
  next => cases h; exact .inl rfl
  next i _ => exact .inr ⟨i, h⟩

/-- What the port's step can do: run an instruction with the port emptied (log 3). -/
theorem portStep_next {s u : State} (h : portStep s = .next u) : ∃ i, exec i s.portTaken = .next u := by
  unfold portStep at h
  split at h
  next => cases h
  next i _ => exact ⟨i, h⟩

/-- What one host operation that is served can do: a read, a POLL's read with the POLL kept or done, a write, a wait,
the reset input. -/
theorem serveOp_next {op : HostOp} {s u : State} (h : serveOp op s = .next u) :
    (∃ a size t ops, hostRead a size s = .next t ∧ u = { t with hostOps := ops }) ∨
    (∃ a size w, hostWrite a size w s = .next u) ∨
    (∃ ops, u = { s with hostOps := ops }) ∨
    u = s.applyReset := by
  cases op with
  | read a size => exact .inl ⟨a, size, u, u.hostOps, h, rfl⟩
  | write a size w => exact .inr (.inl ⟨a, size, w, h⟩)
  | poll =>
    obtain ⟨t, ht, hu⟩ := andThen_eq_next h
    cases hu
    split
    next => exact .inl ⟨_, _, t, _, ht, rfl⟩
    next => exact .inl ⟨_, _, t, t.hostOps, ht, rfl⟩
  | waitIrq =>
    cases h
    split
    next => exact .inr (.inr (.inl ⟨s.hostOps, rfl⟩))
    next => exact .inr (.inr (.inl ⟨_, rfl⟩))
  | reset => cases h; exact .inr (.inr (.inr rfl))

theorem hostRead_inv {a : Addr} {size : Size} {s u : State} (hs : s.Inv) (h : hostRead a size s = .next u) :
    u.Inv := by
  obtain ⟨w, rfl | rfl⟩ := hostRead_next h
  · exact hs.congr rfl rfl rfl rfl rfl
  · exact hs.statusSeen.congr rfl rfl rfl rfl rfl

theorem hostWrite_inv {a : Addr} {size : Size} {w : Word} {s u : State} (hs : s.Inv)
    (h : hostWrite a size w s = .next u) : u.Inv := by
  rcases hostWrite_next h with ⟨r, rfl, -⟩ | ⟨-, rfl, hin⟩
  · exact (hs.writeReg r w).congr rfl rfl rfl rfl rfl
  · have hm : (s.mem.writeBytes a.toNat (wordBytes w size.bytes)).wf :=
      memory_writeBytes_wf hs.mem fun k hk => hin k (by simpa [wordBytes] using hk)
    exact (hs.withMem hm).congr rfl rfl rfl rfl rfl

theorem serveOp_inv {op : HostOp} {s u : State} (hs : s.Inv) (h : serveOp op s = .next u) : u.Inv := by
  rcases serveOp_next h with ⟨a, size, t, ops, ht, rfl⟩ | ⟨a, size, w, hw⟩ | ⟨ops, rfl⟩ | rfl
  · exact (hostRead_inv hs ht).congr rfl rfl rfl rfl rfl
  · exact hostWrite_inv hs hw
  · exact hs.congr rfl rfl rfl rfl rfl
  · exact .applyReset s

theorem hostStep_inv {s u : State} (hs : s.Inv) (h : hostStep s = .next u) : u.Inv := by
  rcases hostStep_next h with ⟨-, rfl⟩ | ⟨op, rest, -, hop | ⟨f, -, rfl⟩⟩
  · exact hs
  · exact serveOp_inv (hs.hostTurn rest) hop
  · exact hs.congr rfl rfl rfl rfl rfl

theorem portStep_inv {s u : State} (hs : s.Inv) (h : portStep s = .next u) : u.Inv := by
  obtain ⟨i, hi⟩ := portStep_next h
  have hs' : s.portTaken.Inv := hs.congr rfl rfl rfl rfl rfl
  exact exec_inv hs' hi

theorem coreStep_inv {s u : State} (hs : s.Inv) (h : coreStep s = .next u) : u.Inv := by
  rcases coreStep_next h with rfl | ⟨i, hi⟩
  · exact hs.complete .illegalCmd
  · exact exec_inv hs hi

/-- Settles O54: each of the three kinds of step keeps the invariant, and so does the record of a fault. -/
theorem everyStepKeepsTheInvariant : Obligations.EveryStepKeepsTheInvariant := by
  intro s t hs h
  obtain ⟨-, ⟨-, hport | ⟨f, -, rfl⟩⟩ | ⟨-, -, hcore | ⟨f, -, rfl⟩⟩ | ⟨-, -, hhost⟩⟩ := step_next h
  · exact portStep_inv hs hport
  · exact hs.recordFault f
  · exact coreStep_inv hs hcore
  · exact hs.recordFault f
  · exact hostStep_inv hs hhost

/-! ### The fault record (10_state R45) -/

theorem portStep_faults {s u : State} (h : portStep s = .next u) : u.faults = s.faults := by
  obtain ⟨i, hi⟩ := portStep_next h
  exact (exec_faults hi).trans (portTaken_faults s)

theorem coreStep_faults {s u : State} (h : coreStep s = .next u) : u.faults = s.faults := by
  rcases coreStep_next h with rfl | ⟨i, hi⟩
  · rfl
  · exact exec_faults hi

theorem writeReg_faults (s : State) (r : Reg) (w : Word) : (s.writeReg r w).faults = s.faults := by
  cases r <;> rfl

theorem hostRead_faults {a : Addr} {size : Size} {s u : State} (h : hostRead a size s = .next u) :
    u.faults = s.faults := by
  obtain ⟨w, rfl | rfl⟩ := hostRead_next h <;> rfl

theorem hostWrite_faults {a : Addr} {size : Size} {w : Word} {s u : State} (h : hostWrite a size w s = .next u) :
    u.faults = s.faults := by
  rcases hostWrite_next h with ⟨r, rfl, -⟩ | ⟨-, rfl, -⟩
  · exact writeReg_faults s r w
  · rfl

/-- An operation that is served adds no fault; the reset input, which clears the record, finds it empty in a step. -/
theorem serveOp_faults {op : HostOp} {s u : State} (hf : s.faults = []) (h : serveOp op s = .next u) :
    u.faults = [] := by
  rcases serveOp_next h with ⟨a, size, t, ops, ht, rfl⟩ | ⟨a, size, w, hw⟩ | ⟨ops, rfl⟩ | rfl
  · exact (hostRead_faults ht).trans hf
  · exact (hostWrite_faults hw).trans hf
  · exact hf
  · rfl

/-- The host's turn adds the fault of its operation, if there is one. -/
theorem hostStep_faults {s u : State} (hf : s.faults = []) (h : hostStep s = .next u) :
    u.faults = [] ∨ ∃ f, u.faults = [f] := by
  rcases hostStep_next h with ⟨-, rfl⟩ | ⟨op, rest, -, hop | ⟨f, -, rfl⟩⟩
  · exact .inl hf
  · have hturn : (s.hostTurn rest).faults = [] := hf
    exact .inl (serveOp_faults hturn hop)
  · exact .inr ⟨f, by simp [hf]⟩

/-- A step starts from an empty record and leaves at most one fault in it. -/
theorem step_faults {s u : State} (h : step s = .next u) :
    s.faults = [] ∧ (u.faults = [] ∨ ∃ f, u.faults = [f]) := by
  obtain ⟨hf, hkind⟩ := step_next h
  refine ⟨hf, ?_⟩
  obtain ⟨-, hport | ⟨f, -, rfl⟩⟩ | ⟨-, -, hcore | ⟨f, -, rfl⟩⟩ | ⟨-, -, hhost⟩ := hkind
  · exact .inl ((portStep_faults hport).trans hf)
  · exact .inr ⟨f, by simp [hf]⟩
  · exact .inl ((coreStep_faults hcore).trans hf)
  · exact .inr ⟨f, by simp [hf]⟩
  · exact hostStep_faults hf hhost

/-- Settles O13: the record of a stepping state is empty, so nothing is cleared, and the step adds at most its one
fault. -/
theorem faultRecordOnlyGrows : Obligations.FaultRecordOnlyGrows := by
  intro s t h
  obtain ⟨hs, ht | ⟨f, ht⟩⟩ := step_faults h
  · exact ⟨[], by rw [ht, hs]; rfl, Nat.zero_le 1⟩
  · exact ⟨[f], by rw [ht, hs]; rfl, Nat.le_refl 1⟩

end Sys2Proof.Machine
end

section
/-! The register window as the host writes and reads it. -/

namespace Sys2Proof.Machine

/-! ### Fields of a data word -/

/-- The low `n` bits of a word, zero-extended, are the word under the mask of those bits. -/
theorem zero_append_low {m n : Nat} (w : BitVec (m + n)) :
    (0 : BitVec m) ++ w.extractLsb' 0 n = w &&& BitVec.ofNat (m + n) (2 ^ n - 1) := by
  apply BitVec.eq_of_toNat_eq
  have hlt : 2 ^ n - 1 < 2 ^ (m + n) :=
    Nat.lt_of_lt_of_le (Nat.sub_lt (Nat.two_pow_pos n) Nat.one_pos) (Nat.pow_le_pow_right (by omega) (by omega))
  simp [BitVec.toNat_append, Nat.mod_eq_of_lt hlt, Nat.and_two_pow_sub_one_eq_mod]

/-- A one-bit field is its bit. -/
theorem ofBool_getLsbD_zero (w : Word) : BitVec.ofBool (w.getLsbD 0) = w.extractLsb' 0 1 := by
  apply BitVec.eq_of_getLsbD_eq
  intro i hi
  obtain rfl : i = 0 := by omega
  simp

/-- A mask of all 32 bits keeps the word. -/
theorem and_fullMask (w : Word) : w &&& 0xFFFFFFFF = w := BitVec.and_allOnes

/-- Two adjacent byte fields are one field of 16 bits. -/
theorem zero_append_halves (w : Word) :
    (0 : BitVec 16) ++ w.extractLsb' 8 8 ++ w.extractLsb' 0 8 = (0 : BitVec 16) ++ w.extractLsb' 0 16 := by
  apply BitVec.eq_of_getLsbD_eq
  intro i hi
  simp only [BitVec.getLsbD_append, BitVec.getLsbD_extractLsb']
  by_cases h8 : i < 8
  · simp [h8, show i < 16 by omega]
  · by_cases h16 : i < 16
    · simp [h8, h16, show i - 8 < 8 by omega, show 8 + (i - 8) = i by omega]
    · simp [h8, h16, show ¬i - 8 < 8 by omega]

/-! ### Register writes (10_state R21 to R33) -/

/-- A writable register reads back the data under its mask. -/
theorem readReg_writeReg_same (s : State) {r : Reg} (w : Word) (hr : r.mask ≠ 0) :
    (s.writeReg r w).readReg r = w &&& r.mask := by
  cases r with
  | ctrl =>
    show (0 : BitVec 31) ++ BitVec.ofBool (w.getLsbD 0) = _
    rw [ofBool_getLsbD_zero]
    exact zero_append_low (m := 31) (n := 1) w
  | geom => exact (zero_append_halves w).trans (zero_append_low (m := 16) (n := 16) w)
  | fg => exact zero_append_low (m := 24) (n := 8) w
  | pixLen | colLen => exact (and_fullMask w).symm
  | dictCnt => exact zero_append_low (m := 28) (n := 4) w
  | dict k =>
    show (0 : BitVec 24) ++ (s.dict.set k (w.extractLsb' 0 8))[k] = _
    rw [Fin.getElem_fin, Vector.getElem_set_self]
    exact zero_append_low (m := 24) (n := 8) w
  | cmd | status | outLen | nibCount | reserved => exact absurd rfl hr

/-- A write of a register other than CMD changes no other register. -/
theorem readReg_writeReg_other (s : State) {r r' : Reg} (w : Word) (hcmd : r ≠ .cmd) (hne : r' ≠ r) :
    (s.writeReg r w).readReg r' = s.readReg r' := by
  cases r with
  | cmd => exact absurd rfl hcmd
  | outLen | nibCount | reserved => rfl
  | ctrl =>
    cases r' with
    | ctrl => exact absurd rfl hne
    | _ => rfl
  | status =>
    cases r' with
    | status => exact absurd rfl hne
    | _ => rfl
  | geom =>
    cases r' with
    | geom => exact absurd rfl hne
    | _ => rfl
  | fg =>
    cases r' with
    | fg => exact absurd rfl hne
    | _ => rfl
  | pixLen =>
    cases r' with
    | pixLen => exact absurd rfl hne
    | _ => rfl
  | colLen =>
    cases r' with
    | colLen => exact absurd rfl hne
    | _ => rfl
  | dictCnt =>
    cases r' with
    | dictCnt => exact absurd rfl hne
    | _ => rfl
  | dict k =>
    cases r' with
    | dict j =>
      have hkj : k.val ≠ j.val := fun h => hne (congrArg Reg.dict (Fin.ext h.symm))
      show (0 : BitVec 24) ++ (s.dict.set k (w.extractLsb' 0 8))[j] = (0 : BitVec 24) ++ s.dict[j]
      rw [Fin.getElem_fin, Vector.getElem_set_ne _ _ hkj]
      rfl
    | _ => rfl

/-- A write of a register other than CMD changes registers alone. -/
theorem writeReg_frame (s : State) {r : Reg} (w : Word) (hcmd : r ≠ .cmd) :
    s.writeReg r w = { s with
      ctrl := (s.writeReg r w).ctrl, status := (s.writeReg r w).status, geom := (s.writeReg r w).geom,
      fg := (s.writeReg r w).fg, pixLen := (s.writeReg r w).pixLen, colLen := (s.writeReg r w).colLen,
      dictCnt := (s.writeReg r w).dictCnt, dict := (s.writeReg r w).dict } := by
  cases r with
  | cmd => exact absurd rfl hcmd
  | ctrl | status | geom | fg | pixLen | colLen | outLen | nibCount | dictCnt | dict _ | reserved => rfl

/-- Settles O43: the other registers by `readReg_writeReg_other`, the rest of the state by `writeReg_frame`. -/
theorem registerWriteFrame : Obligations.RegisterWriteFrame := by
  intro s r r' w hcmd hne
  refine ⟨readReg_writeReg_other s w hcmd hne, ?_⟩
  rw [writeReg_frame s w hcmd]
  exact ⟨rfl, rfl, rfl, rfl, rfl, rfl, rfl, rfl, rfl, rfl⟩

/-! ### Accesses of the register window (20_memory R52, R58) -/

theorem windowOf_register {a : Nat} (ha : a < 0x100) : windowOf a = some .regs := if_pos ha

/-- The bus takes an aligned 32-bit access of the register window. -/
theorem busAccepts_register {a : Nat} (ha : a < 0x100) (h4 : a % 4 = 0) : busAccepts a .word = true := by
  have hinside : insideWindow a 4 = true := by
    unfold insideWindow
    simp only [windowOf_register ha, Option.isSome_some, Bool.true_and, List.all_eq_true, List.mem_range,
      decide_eq_true_eq]
    exact fun k hk => windowOf_register (by omega)
  simp [busAccepts, Size.bytes, hinside, h4]

/-- The reserved offsets of R21. -/
theorem regAt_reserved {o : Nat} (ho : (0x28 ≤ o ∧ o < 0x40) ∨ 0x70 ≤ o) : regAt o = .reserved := by
  unfold regAt
  repeat rw [if_neg (by omega)]
  exact dif_neg (by omega)

/-- The offsets of the dictionary registers. -/
theorem regAt_dict (k : Fin 12) : regAt (0x40 + 4 * k.val) = .dict k := by
  have hk := k.isLt
  unfold regAt
  repeat rw [if_neg (by omega)]
  rw [dif_pos (by omega)]
  congr 2
  omega

section
variable {s : State} {a : Addr} {r : Reg} (hwin : s.win = false) (ha : a.toNat < 0x100) (h4 : a.toNat % 4 = 0)
  (hr : regAt a.toNat = r)
include hwin ha h4 hr

/-- Outside the window a read at a register's offset returns the register and changes nothing. -/
theorem hostRead_offset : hostRead a .word s = .next { s with reply := .data (s.readReg r) } :=
  hostRead_register (busAccepts_register ha h4) (windowOf_register ha) hr hwin

/-- Outside the window a write at the offset of a register other than CMD is that register's write. -/
theorem hostWrite_offset (hcmd : r ≠ .cmd) (w : Word) :
    hostWrite a .word w s = .next { s.writeReg r w with reply := .ack } :=
  hostWrite_register (busAccepts_register ha h4) (windowOf_register ha) hr (by simp [State.windowBars, hwin, hcmd])

/-- Outside the window the write at a writable register's offset is read back under the register's mask. -/
theorem writeThenRead_offset (hmask : r.mask ≠ 0) (w : Word) :
    WriteThenRead s a w (s.writeReg r w) (w &&& r.mask) := by
  have hcmd : r ≠ .cmd := fun h => hmask (h ▸ rfl)
  have hwin' : (s.writeReg r w).win = false := by rw [writeReg_frame s w hcmd]; exact hwin
  refine ⟨hostWrite_offset hwin ha h4 hr hcmd w, ?read⟩
  case read =>
    rw [← readReg_writeReg_same s w hmask]
    exact hostRead_offset (s := { s.writeReg r w with reply := .ack }) hwin' ha h4 hr

end

/-- Settles O42: a writable register reads back under its mask, and R21's offsets reach their registers. -/
theorem writableFieldsReadBack : Obligations.WritableFieldsReadBack := by
  intro s w
  refine ⟨fun r hr => readReg_writeReg_same s w hr, fun hwin => ⟨?ctrl, ?geom, ?fg, ?pixLen, ?colLen, ?dictCnt,
    fun k => ?dict, ?outLen, ?nibCount, ?cmd⟩⟩
  case ctrl => exact writeThenRead_offset (r := .ctrl) hwin (by decide) (by decide) rfl (by decide) w
  case geom => exact writeThenRead_offset (r := .geom) hwin (by decide) (by decide) rfl (by decide) w
  case fg => exact writeThenRead_offset (r := .fg) hwin (by decide) (by decide) rfl (by decide) w
  case pixLen =>
    have h := writeThenRead_offset (a := 0x00014) (r := .pixLen) hwin (by decide) (by decide) rfl (by decide) w
    rwa [show w &&& Reg.mask .pixLen = w from and_fullMask w] at h
  case colLen =>
    have h := writeThenRead_offset (a := 0x00018) (r := .colLen) hwin (by decide) (by decide) rfl (by decide) w
    rwa [show w &&& Reg.mask .colLen = w from and_fullMask w] at h
  case dictCnt => exact writeThenRead_offset (r := .dictCnt) hwin (by decide) (by decide) rfl (by decide) w
  case dict =>
    have ha : (BitVec.ofNat 20 (0x40 + 4 * k.val)).toNat = 0x40 + 4 * k.val := by
      rw [BitVec.toNat_ofNat]
      omega
    refine writeThenRead_offset (r := .dict k) hwin ?_ ?_ ?_ (by simp [Reg.mask]) w
    · omega
    · omega
    · rw [ha, regAt_dict]
  case outLen => exact hostRead_offset (r := .outLen) hwin (by decide) (by decide) rfl
  case nibCount => exact hostRead_offset (r := .nibCount) hwin (by decide) (by decide) rfl
  case cmd => exact hostRead_offset (r := .cmd) hwin (by decide) (by decide) rfl

/-- Settles O44: the offsets of its statement hold OUT_LEN, NIB_COUNT or no register, whose writes change nothing. -/
theorem readOnlyAndReservedIgnoreWrites : Obligations.ReadOnlyAndReservedIgnoreWrites := by
  intro s a w hwin h4 ha
  have reserved (hres : (0x28 ≤ a.toNat ∧ a.toNat ≤ 0x3C) ∨ (0x70 ≤ a.toNat ∧ a.toNat ≤ 0xFC)) :
      a.toNat < 0x100 ∧ regAt a.toNat = .reserved := ⟨by omega, regAt_reserved (by omega)⟩
  refine ⟨?write, fun hres => ?read⟩
  case write =>
    rcases ha with rfl | rfl | hres
    · exact hostWrite_offset (r := .outLen) hwin (by decide) h4 rfl (by decide) w
    · exact hostWrite_offset (r := .nibCount) hwin (by decide) h4 rfl (by decide) w
    · obtain ⟨hlt, hr⟩ := reserved hres
      exact hostWrite_offset hwin hlt h4 hr (by decide) w
  case read =>
    obtain ⟨hlt, hr⟩ := reserved hres
    exact hostRead_offset hwin hlt h4 hr

/-! ### The STATUS word (10_state R24) -/

/-- The lowest bit of a word that ends in a flag is the flag. -/
theorem getLsbD_append_flag_zero {n : Nat} (x : BitVec n) (b : Bool) : (x ++ BitVec.ofBool b).getLsbD 0 = b := by
  rw [BitVec.getLsbD_append]
  simp

/-- The other bits of a word that ends in a flag are those before the flag. -/
theorem getLsbD_append_flag_succ {n : Nat} (x : BitVec n) (b : Bool) (i : Nat) :
    (x ++ BitVec.ofBool b).getLsbD (i + 1) = x.getLsbD i := by
  simp [BitVec.getLsbD_append]

theorem statusWord_busy (t : Status) : t.word.getLsbD 0 = t.busy := getLsbD_append_flag_zero _ _

theorem statusWord_done (t : Status) : t.word.getLsbD 1 = t.done :=
  (getLsbD_append_flag_succ _ _ 0).trans (getLsbD_append_flag_zero _ _)

/-- The bits from 3 up: the zero bit 3, ERR_CODE, zeros. -/
theorem statusWord_from_three (t : Status) (i : Nat) :
    t.word.getLsbD (i + 3) = ((0 : BitVec 24) ++ t.errCode.bits ++ BitVec.ofBool false).getLsbD i :=
  calc t.word.getLsbD (i + 3)
    _ = _ := getLsbD_append_flag_succ _ t.busy (i + 2)
    _ = _ := getLsbD_append_flag_succ _ t.done (i + 1)
    _ = _ := getLsbD_append_flag_succ _ t.compress i

theorem statusWord_three (t : Status) : t.word.getLsbD 3 = false :=
  (statusWord_from_three t 0).trans (getLsbD_append_flag_zero _ false)

/-- The bits of STATUS above ERR_CODE are 0. -/
theorem statusWord_high (t : Status) : t.word.extractLsb' 8 24 = 0 := by
  apply BitVec.eq_of_getLsbD_eq
  intro i hi
  rw [BitVec.getLsbD_extractLsb', show 8 + i = 4 + i + 1 + 3 by omega, statusWord_from_three,
    getLsbD_append_flag_succ, BitVec.getLsbD_append]
  simp

/-- Settles O52: each bit field of the STATUS word is its own, ERR_CODE by its five codes. -/
theorem statusWordLayout : Obligations.StatusWordLayout := by
  intro s
  refine ⟨statusWord_busy s.status, statusWord_done s.status, statusWord_compress s.status, statusWord_three s.status,
    statusWord_high s.status, ?errCode⟩
  case errCode =>
    refine (statusWord_errCode s.status).trans ?_
    cases s.status.errCode <;> rfl

end Sys2Proof.Machine
end

section
/-! The bus as the host uses it: the accesses the map takes (20_memory R51 to R60), buffer bytes read and written, bytes
that nothing has written, and the host's turn (R66). -/

namespace Sys2Proof.Machine

/-! ### The address map (20_memory R51, R54, R60) -/

theorem windowOf_eq_regs_iff {a : Nat} : windowOf a = some .regs ↔ a < 0x100 := by
  refine ⟨fun h => ?_, windowOf_register⟩
  by_contra ha
  rw [windowOf, if_neg ha] at h
  split_ifs at h <;> cases h

/-- A mapped address lies in one of the four windows of R51. -/
theorem windowOf_isSome_iff {a : Nat} : (windowOf a).isSome = true ↔ a < 0x100 ∨
    (0x10000 ≤ a ∧ a < 0x20000) ∨ (0x20000 ≤ a ∧ a < 0x22000) ∨ (0x30000 ≤ a ∧ a < 0x33000) := by
  simp only [windowOf, Config.regSize, Config.pixBase, Config.pixSize, Config.colBase, Config.colSize, Config.outBase,
    Config.outSize]
  split_ifs <;> simp only [Option.isSome_some, Option.isSome_none, Bool.false_eq_true, true_iff, false_iff] <;> omega

/-- The windows begin and end at multiples of 4, so an aligned access lies in the window of its first byte. -/
theorem windowOf_add_of_aligned {a k : Nat} {size : Size} (ha : a % size.bytes = 0) (hk : k < size.bytes) :
    windowOf (a + k) = windowOf a := by
  have below {b : Nat} (hb : b % 4 = 0) : a + k < b ↔ a < b := by
    cases size <;> simp only [Size.bytes] at ha hk <;> omega
  simp (disch := decide) only [windowOf, ← Nat.not_lt, below]

theorem insideWindow_of_aligned {a : Nat} {size : Size} (ha : a % size.bytes = 0) :
    insideWindow a size.bytes = true ↔ (windowOf a).isSome = true := by
  simp only [insideWindow, Bool.and_eq_true, List.all_eq_true, List.mem_range, decide_eq_true_eq, and_iff_left_iff_imp]
  exact fun _ k hk => windowOf_add_of_aligned ha hk

/-- The bus takes exactly the accesses of the map. -/
theorem busAccepts_iff {a : Nat} {size : Size} : busAccepts a size = true ↔ mapTakes a size := by
  by_cases ha : a % size.bytes = 0
  · simp only [busAccepts, mapTakes, insideWindow_of_aligned ha, windowOf_isSome_iff, windowOf_eq_regs_iff, ha, ne_eq,
      Bool.and_eq_true, Bool.or_eq_true, decide_eq_true_eq]
    cases size <;> simp only [Size.bytes, reduceCtorEq, and_true, and_false, false_and, or_false, or_true, true_and,
      false_or] at ha ⊢ <;> omega
  · have hmap : ¬mapTakes a size := by
      rintro (⟨-, rfl, h4⟩ | ⟨-, hn⟩)
      · exact ha h4
      · exact ha hn
    simp [busAccepts, ha, hmap]

section
variable {a : Addr} {size : Size} {s : State}

/-- A malformed access is a bus error (20_memory R54). -/
theorem hostAccess_busError (h : ¬mapTakes a.toNat size) :
    hostRead a size s = .fault (.busError a) ∧ ∀ w, hostWrite a size w s = .fault (.busError a) := by
  have hb : ¬busAccepts a.toNat size = true := fun hb => h (busAccepts_iff.mp hb)
  exact ⟨if_neg hb, fun _ => if_neg hb⟩

/-- A read that the bus takes faults by a hazard or by an unwritten byte. -/
theorem hostRead_fault {f : Fault} (h : mapTakes a.toNat size) (hf : hostRead a size s = .fault f) :
    f = .hazard a ∨ ∃ k, f = .unwrittenRead k := by
  rw [hostRead, if_pos (busAccepts_iff.mpr h)] at hf
  split at hf
  next =>
    unfold readRegister at hf
    split at hf
    next => cases hf; exact .inl rfl
    next => cases hf
  next =>
    unfold readBuffer at hf
    split at hf
    next => cases hf; exact .inl rfl
    next =>
      split at hf
      next g hg =>
        cases hf
        obtain ⟨k, -, hk, -⟩ := memory_readBytes_error _ hg
        exact .inr ⟨_, hk⟩
      next => cases hf

/-- A write that the bus takes faults by a hazard only. -/
theorem hostWrite_fault {f : Fault} {w : Word} (h : mapTakes a.toNat size) (hf : hostWrite a size w s = .fault f) :
    f = .hazard a := by
  rw [hostWrite, if_pos (busAccepts_iff.mpr h)] at hf
  split at hf
  next =>
    unfold writeRegister at hf
    split at hf <;> cases hf
    rfl
  next =>
    unfold writeBuffer at hf
    split at hf <;> cases hf
    rfl

end

/-- Settles O40: no access that the map takes faults by a bus error, and every other one does. -/
theorem busErrorsAreTheMalformedAccesses : Obligations.BusErrorsAreTheMalformedAccesses := by
  intro a size w s
  refine ⟨⟨fun hf htaken => ?read, fun h => (hostAccess_busError h).1⟩,
    ⟨fun hf htaken => ?write, fun h => (hostAccess_busError h).2 w⟩⟩
  case read =>
    rcases hostRead_fault htaken hf with h | ⟨k, h⟩ <;> cases h
  case write => cases hostWrite_fault htaken hf

/-! ### Buffer bytes (20_memory R56, R57, R59, R75) -/

theorem length_wordBytes (w : Word) (n : Nat) : (wordBytes w n).length = n := by simp [wordBytes]

theorem wordBytes_getElem? (w : Word) {n k : Nat} (hk : k < n) :
    (wordBytes w n)[k]? = some (w.extractLsb' (8 * k) 8) := by
  simp [wordBytes, hk]

/-- Digit `k` to the base 256 of the assembled bytes is byte `k`. -/
theorem littleEndian_digit (bs : List Byte) (k : Nat) : littleEndian bs / 256 ^ k % 256 = (bs[k]?.getD 0).toNat := by
  induction bs generalizing k with
  | nil => simp [littleEndian]
  | cons b bs ih =>
    have hb := b.isLt
    cases k with
    | zero =>
      simp only [littleEndian, pow_zero, Nat.div_one, List.getElem?_cons_zero, Option.getD_some]
      omega
    | succ k =>
      have hdiv : (b.toNat + 256 * littleEndian bs) / 256 = littleEndian bs := by omega
      rw [littleEndian, pow_succ', ← Nat.div_div_eq_div_mul, hdiv, ih, List.getElem?_cons_succ]

/-- Byte lane `k` of the word a read returns (20_memory R59). -/
theorem littleEndian_lane (bs : List Byte) {k : Nat} (hk : k < 4) :
    (BitVec.ofNat 32 (littleEndian bs)).extractLsb' (8 * k) 8 = bs[k]?.getD 0 := by
  apply BitVec.eq_of_toNat_eq
  rw [← littleEndian_digit, BitVec.extractLsb'_toNat, BitVec.toNat_ofNat, Nat.shiftRight_eq_div_pow]
  interval_cases k <;> omega

/-- A read of a range that holds an unwritten byte stops and names one. -/
theorem memory_readBytes_unwritten (m : Memory) {a n : Nat} (h : ∃ k, k < n ∧ m.read (a + k) = none) :
    ∃ k, k < n ∧ m.read (a + k) = none ∧ m.readBytes a n = .error (.unwrittenRead (a + k)) := by
  cases hr : m.readBytes a n with
  | error f =>
    obtain ⟨k, hk, rfl, hnone⟩ := memory_readBytes_error m hr
    exact ⟨k, hk, hnone, rfl⟩
  | ok bs =>
    obtain ⟨hlen, hread⟩ := (memory_readBytes_ok_iff m a n bs).mp hr
    obtain ⟨k, hk, hnone⟩ := h
    rw [hread k hk, List.getElem?_eq_none_iff] at hnone
    omega

section
variable {a : Addr} {size : Size} {s : State}

/-- A buffer access of the map is one the bus takes outside the register window. -/
theorem mapTakes_buffer (h : mapTakes a.toNat size) (ha : 0x100 ≤ a.toNat) :
    busAccepts a.toNat size = true ∧ windowOf a.toNat ≠ some .regs :=
  ⟨busAccepts_iff.mpr h, fun hw => Nat.not_lt.mpr ha (windowOf_eq_regs_iff.mp hw)⟩

/-- Outside the window a buffer read that meets an unwritten byte is that byte's fault. -/
theorem hostRead_buffer_fault {f : Fault} (h : mapTakes a.toNat size) (ha : 0x100 ≤ a.toNat) (hwin : s.win = false)
    (hf : s.mem.readBytes a.toNat size.bytes = .error f) : hostRead a size s = .fault f := by
  obtain ⟨hb, hw⟩ := mapTakes_buffer h ha
  rw [hostRead, if_pos hb, if_neg hw, readBuffer, if_neg (by simp [hwin]), hf]

end

/-- Settles O45: the write's bytes are the low bytes of the data, lowest first, every other address keeps its own. -/
theorem bufferWriteIsLittleEndian : Obligations.BufferWriteIsLittleEndian := by
  intro s a size w hwin hmap ha
  obtain ⟨hb, hw⟩ := mapTakes_buffer hmap ha
  refine ⟨_, hostWrite_buffer hb hw hwin, fun k hk => ?written, fun c hc => ?other, rfl⟩
  case written =>
    rw [memory_read_writeBytes, length_wordBytes, if_pos (by omega), Nat.add_sub_cancel_left, wordBytes_getElem? w hk]
  case other => exact memory_read_writeBytes_other _ _ (by rwa [length_wordBytes])

/-- Settles O46: the read returns its bytes assembled, whose lanes are the bytes. -/
theorem bufferReadIsLittleEndian : Obligations.BufferReadIsLittleEndian := by
  intro s a size bs hwin hmap ha hlen hread
  obtain ⟨hb, hw⟩ := mapTakes_buffer hmap ha
  exact ⟨_, hostRead_buffer hb hw hwin ((memory_readBytes_ok_iff _ _ _ bs).mpr ⟨hlen, hread⟩),
    fun k hk => littleEndian_lane bs hk⟩

/-- Settles O47: the read stops at an unwritten byte of the access. -/
theorem hostReadOfUnwrittenFaults : Obligations.HostReadOfUnwrittenFaults := by
  intro s a size hwin hmap ha hex
  obtain ⟨k, hk, hnone, hf⟩ := memory_readBytes_unwritten s.mem hex
  exact ⟨k, hk, hnone, hostRead_buffer_fault hmap ha hwin hf⟩

section
variable {s : State} {f : Fault}

/-- PACK of a matching shape answers the fault of its pixel reads (41 R136, R137). -/
theorem execPack_fault (h : s.snap.pixLen.toNat = s.snap.width * s.snap.height)
    (hf : s.mem.readBytes Config.pixBase (s.snap.width * s.snap.height) = .error f) : execPack s = .fault f := by
  unfold execPack
  simp only [h, ne_eq, not_true, if_false, hf]

/-- ENCODE with its checks passed answers the fault of its column reads (43 R173, R179). -/
theorem execEncode_fault (hl : s.snap.inputLen ≤ Config.colSize) (hd : s.snap.dictValid = true)
    (hf : s.mem.readBytes Config.colBase s.snap.inputLen = .error f) : execEncode s = .fault f := by
  unfold execEncode
  rw [if_neg (Nat.not_lt.mpr hl), if_neg (by simp [hd]), hf]

end

/-- Settles O20: past their checks PACK and ENCODE answer the fault of their reads. -/
theorem unwrittenInputFaults : Obligations.UnwrittenInputFaults := by
  refine ⟨fun s hshape hex => ?pack, fun s hlen hdict hex => ?encode⟩
  case pack =>
    obtain ⟨k, hk, hnone, hf⟩ := memory_readBytes_unwritten s.mem hex
    exact ⟨k, hk, hnone, execPack_fault hshape hf⟩
  case encode =>
    obtain ⟨k, hk, hnone, hf⟩ := memory_readBytes_unwritten s.mem hex
    exact ⟨k, hk, hnone, execEncode_fault hlen hdict hf⟩

/-! ### The host's turn (20_memory R54, R66, 60_exceptions R258) -/

section
variable {s : State} {op : HostOp} {rest : List HostOp} (hturn : s.HostsTurn) (hops : s.hostOps = op :: rest)
include hturn hops

/-- At the host's turn the step is the first operation of the list, when it is served. -/
theorem step_of_served {t : State} (h : serveOp op (s.hostTurn rest) = .next t) : step s = .next t := by
  rw [step_host hturn.faults hturn.port hturn.core, hostStep_of_next hops h]

/-- At the host's turn the step records the fault of the first operation of the list and answers it on the bus. -/
theorem step_of_hostFault {f : Fault} (h : serveOp op (s.hostTurn rest) = .fault f) :
    step s = .next { s with
      hostOps := rest, coreDelay := s.coreDelay - 1, reply := replyOnFault f, faults := [f] } := by
  rw [step_host hturn.faults hturn.port hturn.core, hostStep_of_fault hops h]
  simp only [State.recordFault, State.hostTurn, hturn.faults, List.nil_append]

end

/-- A read of STATUS, in the window too: the word, and the window closed when it shows BUSY = 0 (10_state R45). -/
theorem hostRead_status (s : State) :
    hostRead 0x00008 .word s = .next { s.statusSeen with reply := .data s.status.word } := by
  have hreg : regAt (0x00008 : Addr).toNat = .status := rfl
  rw [hostRead, if_pos (busAccepts_register (by decide) (by decide)), if_pos (windowOf_register (by decide)), hreg,
    readRegister, if_neg (by simp [barredInWindow])]
  rfl

/-- A POLL is a STATUS read that stays first while BUSY is 1 (log 18). -/
theorem serveOp_poll (s : State) : serveOp .poll s = .next { s.statusSeen with
    hostOps := if s.status.busy then .poll :: s.hostOps else s.hostOps, reply := .data s.status.word } := by
  rw [serveOp, hostRead_status, andThen_next]
  split <;> rfl

/-- A wait stays first while the interrupt output is 0 (log 18). -/
theorem serveOp_waitIrq (s : State) :
    serveOp .waitIrq s = .next { s with hostOps := if s.irq then s.hostOps else .waitIrq :: s.hostOps } := by
  rw [serveOp]
  split <;> rfl

/-- Settles O41: the step records the bus error and changes the host's fields alone. -/
theorem busErrorIsAnsweredOnTheBusAlone : Obligations.BusErrorIsAnsweredOnTheBusAlone := by
  intro s a size w rest hturn hmap hops
  obtain ⟨hread, hwrite⟩ := hostAccess_busError (s := s.hostTurn rest) hmap
  rcases hops with hops | hops
  · exact step_of_hostFault hturn hops hread
  · exact step_of_hostFault hturn hops (hwrite w)

/-- Settles O59: a read and a write are served as the bus serves them; a POLL and a wait never fault. -/
theorem stepMakesTheHostsAccess : Obligations.StepMakesTheHostsAccess := by
  intro s a size w rest hturn
  exact ⟨fun hops => ⟨fun _ => step_of_served hturn hops, fun _ => step_of_hostFault hturn hops⟩,
    fun hops => ⟨fun _ => step_of_served hturn hops, fun _ => step_of_hostFault hturn hops⟩,
    fun hops => step_of_served hturn hops (serveOp_poll _), fun hops => step_of_served hturn hops (serveOp_waitIrq _)⟩

end Sys2Proof.Machine
end

section
/-! No instruction reads the live operand registers or CTRL (20_memory R70, 40_control R111): every instruction but PACK
commutes with their replacement. -/

namespace Sys2Proof.Machine

/-! ### The live registers replaced -/

/-- CTRL and the operand registers as the host sees them live (10_state R22 to R32). -/
structure LiveRegs where
  ctrl : Ctrl
  geom : Geom
  fg : Byte
  pixLen : Word
  colLen : Word
  dictCnt : BitVec 4
  dict : DictRegs

/-- `s` with `r` in its live registers. -/
def State.withLive (s : State) (r : LiveRegs) : State :=
  { s with
    ctrl := r.ctrl, geom := r.geom, fg := r.fg, pixLen := r.pixLen, colLen := r.colLen, dictCnt := r.dictCnt
    dict := r.dict }

@[simp] theorem withLive_mem (s : State) (r : LiveRegs) : (s.withLive r).mem = s.mem := rfl
@[simp] theorem withLive_snap (s : State) (r : LiveRegs) : (s.withLive r).snap = s.snap := rfl
@[simp] theorem withLive_enc (s : State) (r : LiveRegs) : (s.withLive r).enc = s.enc := rfl

/-- The result with `r` in the live registers of its next state; a stop stays a stop. -/
def withLiveNext (r : LiveRegs) (o : Result) : Result := andThen o fun t => .next (t.withLive r)

@[simp] theorem withLiveNext_next (r : LiveRegs) (t : State) : withLiveNext r (.next t) = .next (t.withLive r) := rfl

/-- What `f` does is the same whatever the live registers hold, and they pass through it. -/
def LivePassesThrough (f : State → Result) : Prop :=
  ∀ (s : State) (r : LiveRegs), f (s.withLive r) = withLiveNext r (f s)

namespace LivePassesThrough

theorem apply {f : State → Result} (hf : LivePassesThrough f) {s t : State} (h : f s = .next t) (r : LiveRegs) :
    f (s.withLive r) = .next (t.withLive r) := by
  rw [hf, h, withLiveNext_next]

/-- A change of the state that neither reads nor writes the live registers. -/
theorem next {g : State → State} (h : ∀ (s : State) (r : LiveRegs), g (s.withLive r) = (g s).withLive r) :
    LivePassesThrough fun s => .next (g s) := by
  intro s r
  simp only [withLiveNext_next, h]

theorem andThen {f g : State → Result} (hf : LivePassesThrough f) (hg : LivePassesThrough g) :
    LivePassesThrough fun s => Machine.andThen (f s) g := by
  intro s r
  simp only [hf s r]
  cases f s with
  | next t => exact hg t r
  | fault _ | refused _ => rfl

/-- A branch on a condition that does not read the live registers. -/
theorem ite {p : State → Prop} [DecidablePred p] {f g : State → Result} (hf : LivePassesThrough f)
    (hg : LivePassesThrough g) (hp : ∀ (s : State) (r : LiveRegs), p (s.withLive r) ↔ p s) :
    LivePassesThrough fun s => if p s then f s else g s := by
  intro s r
  simp only [hp s r]
  split
  next => exact hf s r
  next => exact hg s r

/-! ### The token packer and the tokens -/

theorem putOut (b : Byte) : LivePassesThrough (putOut b) :=
  ite (next fun _ _ => rfl) (fun _ _ => rfl) fun _ _ => Iff.rfl

theorem emit (n : Nibble) : LivePassesThrough (emit n) :=
  ite (fun s r => putOut (joinNibbles s.enc.hold n) { s with enc := { s.enc with nib := s.enc.nib + 1 } } r)
    (next fun _ _ => rfl) fun _ _ => Iff.rfl

theorem emitAll (ns : List Nibble) : LivePassesThrough (emitAll ns) := by
  induction ns with
  | nil => exact fun _ _ => rfl
  | cons n ns ih => exact (emit n).andThen ih

theorem flush : LivePassesThrough flush :=
  ite (fun s r => putOut (joinNibbles s.enc.hold 0) s r) (next fun _ _ => rfl) fun _ _ => Iff.rfl

theorem emitToken (ns : List Nibble) (m : Nat) : LivePassesThrough (emitToken ns m) :=
  (emitAll ns).andThen (next fun _ _ => rfl)

theorem runToken (t : Instr) : LivePassesThrough (runToken t) := by
  cases t with
  | nop | pack | encode => exact fun _ _ => rfl
  | dictRef _ | rawRun _ _ | shortRunRepeat _ _ | runRepeat _ _ | rawByte _ => exact emitToken _ _

/-! ### ENCODE -/

theorem encodeLoop (d x : List Byte) (fuel : Nat) : LivePassesThrough (encodeLoop d x fuel) := by
  induction fuel with
  | zero => exact fun _ _ => rfl
  | succ fuel ih =>
    intro s r
    simp only [Machine.encodeLoop, withLive_enc]
    cases chooseToken d x s.enc.seg s.enc.pos with
    | none => rfl
    | some t => exact (runToken t).andThen ih s r

theorem encodeInput (x : List Byte) : LivePassesThrough (encodeInput x) := by
  intro s r
  have tail : LivePassesThrough fun t => Machine.andThen (Machine.flush t) fun u => .next (finishEncode x.length u) :=
    flush.andThen (next fun _ _ => rfl)
  exact (encodeLoop s.snap.dictionary x x.length).andThen tail
    { s with enc := { Encoder.initial with seg := segments x } } r

theorem execEncode : LivePassesThrough execEncode := by
  refine ite (next fun _ _ => rfl) (ite (next fun _ _ => rfl) (fun s r => ?reads) fun _ _ => Iff.rfl) fun _ _ => Iff.rfl
  case reads =>
    simp only [withLive_mem, withLive_snap]
    cases s.mem.readBytes Config.colBase s.snap.inputLen with
    | error f => rfl
    | ok x => exact encodeInput x s r

/-- Every instruction but PACK, whose success writes the live COL_LEN. -/
theorem exec {i : Instr} (hi : i ≠ .pack) : LivePassesThrough (exec i) := by
  cases i with
  | nop => exact fun _ _ => rfl
  | pack => exact absurd rfl hi
  | encode => exact execEncode
  | dictRef _ | rawRun _ _ | shortRunRepeat _ _ | runRepeat _ _ | rawByte _ => exact emitToken _ _

end LivePassesThrough

/-! ### PACK -/

/-- A shape that does not match ends PACK with SHAPE (41 R131). -/
theorem execPack_shape {s : State} (h : s.snap.pixLen.toNat ≠ s.snap.width * s.snap.height) :
    execPack s = .next (s.complete .shape) := by
  simp only [execPack]
  exact if_pos h

/-- The SHAPE error of PACK leaves the live registers as they are. -/
theorem execPack_withLive_error {s t : State} (h : execPack s = .next t) (herr : t.status.errCode ≠ .none)
    (r : LiveRegs) :
    execPack (s.withLive r) = .next (t.withLive r) := by
  rcases execPack_next h with ⟨hshape, rfl⟩ | ⟨-, pix, -, rfl⟩
  · exact execPack_shape hshape
  · exact absurd rfl herr

/-- PACK's success writes the live COL_LEN with a value of the snapshot and leaves the other live registers. -/
theorem execPack_withLive_ok {s t : State} (h : execPack s = .next t) (hok : t.status.errCode = .none)
    (r : LiveRegs) :
    execPack (s.withLive r) = .next { t.withLive r with colLen := t.colLen } := by
  rcases execPack_next h with ⟨-, rfl⟩ | ⟨hshape, pix, hpix, rfl⟩
  · cases hok
  · exact execPack_ok (s := s.withLive r) hshape hpix

/-- Settles O37: the changed registers pass through every instruction, but for COL_LEN through PACK's success. -/
theorem instructionsReadOnlyTheSnapshot : Obligations.InstructionsReadOnlyTheSnapshot := by
  intro i s t c g f n l k d h
  refine ⟨fun hcase => ?passes, fun hpack hok => ?packed⟩
  case passes =>
    by_cases hi : i = .pack
    · subst hi
      exact execPack_withLive_error h (hcase.resolve_left (not_not_intro rfl)) ⟨c, g, f, n, l, k, d⟩
    · exact (LivePassesThrough.exec hi).apply h ⟨c, g, f, n, l, k, d⟩
  case packed =>
    subst hpack
    exact execPack_withLive_ok h hok ⟨c, g, f, n, l, k, d⟩

end Sys2Proof.Machine
end

section
/-! The two encodings (30_encoding.md): the token decoder inverts the encoder, the legal command words are the encoded
commands, the encoder's tokens are in range, and packing keeps the nibbles. -/

namespace Sys2Proof.Machine

/-! ### Fields of a byte and of a word (30_encoding R81, R93) -/

/-- A bit vector is its high field followed by its low one. -/
theorem extractLsb'_high_append_low {m n : Nat} (x : BitVec (m + n)) :
    x.extractLsb' n m ++ x.extractLsb' 0 n = x := by
  apply BitVec.eq_of_getLsbD_eq
  intro i hi
  rw [BitVec.getLsbD_append]
  by_cases hlow : i < n
  · simp [hlow]
  · simp [hlow, show i - n < m by omega, show n + (i - n) = i by omega]

@[simp] theorem joinNibbles_hi_lo (x : Byte) : joinNibbles (hiNibble x) (loNibble x) = x :=
  extractLsb'_high_append_low (m := 4) (n := 4) x

@[simp] theorem fieldNibbles_joinNibbles (h l : Nibble) : fieldNibbles (joinNibbles h l) = [h, l] := by
  simp only [fieldNibbles, hiNibble, loNibble, joinNibbles, BitVec.extractLsb'_append_eq_left,
    BitVec.extractLsb'_append_eq_right]

/-- A field's number is 16 times its high nibble plus its low one. -/
theorem toNat_eq_nibbles (x : Byte) : x.toNat = 16 * (hiNibble x).toNat + (loNibble x).toNat := by
  simp only [hiNibble, loNibble, BitVec.extractLsb'_toNat]
  omega

/-! ### The values of a RawRun (30_encoding R92) -/

theorem readValues_valueNibbles (vs : List Byte) (rest : List Nibble) :
    readValues vs.length (valueNibbles vs ++ rest) = .ok (vs, rest) := by
  induction vs with
  | nil => rfl
  | cons v vs ih => simp [valueNibbles, fieldNibbles, readValues, ih]

theorem readValues_ok {n : Nat} {ns rest : List Nibble} {vs : List Byte} (h : readValues n ns = .ok (vs, rest)) :
    vs.length = n ∧ ns = valueNibbles vs ++ rest := by
  induction n generalizing ns vs with
  | zero => cases h; exact ⟨rfl, rfl⟩
  | succ n ih =>
    match ns, h with
    | a :: b :: ns, h =>
      rw [readValues] at h
      cases hr : readValues n ns with
      | error e => rw [hr] at h; cases h
      | ok p =>
        rw [hr] at h
        cases h
        obtain ⟨hlen, hns⟩ := ih hr
        exact ⟨congrArg (· + 1) hlen, by simp [valueNibbles, ← hns]⟩

/-! ### The token decoder, selector by selector (30_encoding R87 to R94) -/

theorem decodeToken_dictRef {i : Nibble} (hi : i.toNat < 12) (ns : List Nibble) :
    decodeToken (i :: ns) = .ok (.dictRef i, ns) := by
  have hne : ∀ c : Nibble, 12 ≤ c.toNat → i ≠ c := by
    rintro c hc rfl
    omega
  rw [decodeToken, if_neg (hne _ (by decide)), if_neg (hne _ (by decide)), if_neg (hne _ (by decide)),
    if_neg (hne _ (by decide))]

/-- A nibble selects a DictRef, or is one of the four other selectors. -/
theorem selector_cases (s : Nibble) : s.toNat < 12 ∨ s = 0xC ∨ s = 0xD ∨ s = 0xE ∨ s = 0xF := by
  revert s; decide

theorem decodeRawRun_ok {ns rest : List Nibble} {t : Instr} (h : decodeRawRun ns = .ok (t, rest)) :
    ∃ n vs, t = .rawRun n vs ∧ n.toNat = vs.length ∧ ns = fieldNibbles n ++ valueNibbles vs ++ rest := by
  match ns, h with
  | a :: b :: ns, h =>
    rw [decodeRawRun] at h
    cases hr : readValues (joinNibbles a b).toNat ns with
    | error e => rw [hr] at h; cases h
    | ok p =>
      rw [hr] at h
      cases h
      obtain ⟨hlen, hns⟩ := readValues_ok hr
      exact ⟨_, _, rfl, hlen.symm, by simp [← hns]⟩

theorem decodeShortRun_ok {ns rest : List Nibble} {t : Instr} (h : decodeShortRun ns = .ok (t, rest)) :
    ∃ len i, t = .shortRunRepeat len i ∧ i.toNat < 12 ∧ ns = fieldNibbles len ++ i :: rest := by
  match ns, h with
  | a :: b :: i :: ns, h =>
    rw [decodeShortRun] at h
    split at h
    next hi => cases h; exact ⟨_, _, rfl, hi, by simp⟩
    next => cases h

theorem decodeRun_ok {ns rest : List Nibble} {t : Instr} (h : decodeRun ns = .ok (t, rest)) :
    ∃ len v, t = .runRepeat len v ∧ ns = fieldNibbles len ++ fieldNibbles v ++ rest := by
  match ns, h with
  | a :: b :: c :: d :: ns, h => cases h; exact ⟨_, _, rfl, by simp⟩

theorem decodeRawByte_ok {ns rest : List Nibble} {t : Instr} (h : decodeRawByte ns = .ok (t, rest)) :
    ∃ v, t = .rawByte v ∧ ns = fieldNibbles v ++ rest := by
  match ns, h with
  | a :: b :: ns, h => cases h; exact ⟨_, rfl, by simp⟩

/-- The decoder reads a well-formed token back from its nibbles, whatever follows them. -/
theorem decodeToken_tokenNibbles {t : Instr} (ht : t.isToken = true) (hw : t.wellFormed = true) (rest : List Nibble) :
    decodeToken (tokenNibbles t ++ rest) = .ok (t, rest) := by
  cases t with
  | nop | pack | encode => cases ht
  | dictRef i => exact decodeToken_dictRef (of_decide_eq_true hw) rest
  | rawRun n vs =>
    have hlen : n.toNat = vs.length := of_decide_eq_true hw
    simp [tokenNibbles, fieldNibbles, decodeToken, decodeRawRun, hlen, readValues_valueNibbles]
  | shortRunRepeat len i =>
    have hi : i.toNat < Config.dictMax := of_decide_eq_true hw
    simp [tokenNibbles, fieldNibbles, decodeToken, decodeShortRun, hi]
  | runRepeat len v => simp [tokenNibbles, fieldNibbles, decodeToken, decodeRun]
  | rawByte v => simp [tokenNibbles, fieldNibbles, decodeToken, decodeRawByte]

/-- Settles O3: by the selector, each field's inversion gives the token and its nibbles. -/
theorem tokenDecodeConsumesItsNibbles : Obligations.TokenDecodeConsumesItsNibbles := by
  intro ns rest t h
  match ns, h with
  | s :: ns, h =>
    obtain hs | rfl | rfl | rfl | rfl := selector_cases s
    case inl =>
      rw [decodeToken_dictRef hs] at h
      cases h
      exact ⟨rfl, decide_eq_true hs, rfl⟩
    case inr.inl =>
      obtain ⟨n, vs, rfl, hlen, rfl⟩ := decodeRawRun_ok h
      exact ⟨rfl, decide_eq_true hlen, rfl⟩
    case inr.inr.inl =>
      obtain ⟨len, i, rfl, hi, rfl⟩ := decodeShortRun_ok h
      exact ⟨rfl, decide_eq_true hi, rfl⟩
    case inr.inr.inr.inl =>
      obtain ⟨len, v, rfl, rfl⟩ := decodeRun_ok h
      exact ⟨rfl, rfl, rfl⟩
    case inr.inr.inr.inr =>
      obtain ⟨v, rfl, rfl⟩ := decodeRawByte_ok h
      exact ⟨rfl, rfl, rfl⟩

/-- A well-formed token is the one token of its nibbles. -/
theorem decodeOneToken_tokenNibbles {t : Instr} (ht : t.isToken = true) (hw : t.wellFormed = true) :
    decodeOneToken (tokenNibbles t) = .ok t := by
  have h := decodeToken_tokenNibbles ht hw []
  rw [List.append_nil] at h
  rw [decodeOneToken, h]

/-- Settles O2: the three command words by evaluation, the tokens by the decoder's inversion of their nibbles. -/
theorem decodeEncodeIsIdentity : Obligations.DecodeEncodeIsIdentity := by
  intro i hw
  cases i with
  | nop | pack | encode => rfl
  | dictRef _ | rawRun _ _ | shortRunRepeat _ _ | runRepeat _ _ | rawByte _ =>
    exact decodeOneToken_tokenNibbles rfl hw

/-- Settles O1: each written-out word is the encoding of its instruction. -/
theorem familyWordsDecode : Obligations.FamilyWordsDecode :=
  ⟨decodeEncodeIsIdentity .nop rfl, decodeEncodeIsIdentity .pack rfl, decodeEncodeIsIdentity .encode rfl,
    decodeEncodeIsIdentity (.dictRef 3) rfl, decodeEncodeIsIdentity (.rawByte 0x5A) rfl,
    decodeEncodeIsIdentity (.runRepeat 0x15 0x02) rfl, decodeEncodeIsIdentity (.shortRunRepeat 6 11) rfl,
    decodeEncodeIsIdentity (.rawRun 3 [0x12, 0x34, 0x56]) rfl⟩

/-- Settles O4: the inversion of each selector's fields counts the nibbles consumed. -/
theorem tokenLengthBySelector : Obligations.TokenLengthBySelector := by
  intro s ns rest t h
  refine ⟨fun hs => ?dictRef, ?rawByte, ?shortRun, ?run, ?rawRun⟩
  case dictRef =>
    rw [decodeToken_dictRef (Nat.lt_succ_of_le hs)] at h
    cases h
    rfl
  case rawByte =>
    rintro rfl
    obtain ⟨v, -, rfl⟩ := decodeRawByte_ok h
    rfl
  case shortRun =>
    rintro rfl
    obtain ⟨len, i, -, -, rfl⟩ := decodeShortRun_ok h
    rfl
  case run =>
    rintro rfl
    obtain ⟨len, v, -, rfl⟩ := decodeRun_ok h
    rfl
  case rawRun =>
    rintro rfl
    obtain ⟨n, vs, -, hlen, rfl⟩ := decodeRawRun_ok h
    refine ⟨_, _, _, rfl, ?_⟩
    rw [← toNat_eq_nibbles, hlen]
    simp only [fieldNibbles, List.length_cons, List.length_append, List.length_nil, Laws.length_valueNibbles]
    omega

/-! ### Command words (30_encoding R81 to R84) -/

theorem decodeCommand_reserved {w : Word} (h : w.extractLsb' 4 28 ≠ 0) :
    decodeCommand w = .error (.reservedBits w) := by
  rw [decodeCommand, if_pos h]

/-- The words that decode: RSVD is 0, and OP is the instruction's. -/
theorem decodeCommand_ok {w : Word} {i : Instr} (h : decodeCommand w = .ok i) :
    w.extractLsb' 4 28 = 0 ∧ ((w.extractLsb' 0 4 = 0 ∧ i = .nop) ∨ (w.extractLsb' 0 4 = 1 ∧ i = .pack) ∨
      (w.extractLsb' 0 4 = 2 ∧ i = .encode)) := by
  unfold decodeCommand at h
  split_ifs at h with hres h0 h1 h2
  · exact ⟨not_not.mp hres, .inl ⟨h0, (Except.ok.inj h).symm⟩⟩
  · exact ⟨not_not.mp hres, .inr (.inl ⟨h1, (Except.ok.inj h).symm⟩)⟩
  · exact ⟨not_not.mp hres, .inr (.inr ⟨h2, (Except.ok.inj h).symm⟩)⟩

/-- Settles O5: a legal word is its zero RSVD followed by its OP. -/
theorem reservedBitsMakeWordsIllegal : Obligations.ReservedBitsMakeWordsIllegal := by
  refine ⟨fun w hres => ⟨_, decodeCommand_reserved hres⟩, fun w i h => ?legal⟩
  case legal =>
    obtain ⟨hres, hop⟩ := decodeCommand_ok h
    have hw : w = (0 : BitVec 28) ++ w.extractLsb' 0 4 := by
      rw [← hres]
      exact (extractLsb'_high_append_low (m := 28) (n := 4) w).symm
    rw [hw]
    obtain ⟨hop, rfl⟩ | ⟨hop, rfl⟩ | ⟨hop, rfl⟩ := hop <;> rw [hop] <;> exact ⟨rfl, rfl⟩

/-! ### The operands of the chosen tokens (30_encoding R95) -/

/-- Every token of the tokenizer was chosen at some position. -/
theorem mem_tokensFrom {d x : List Byte} {seg : List Segment} {fuel pos : Nat} {t : Instr}
    (h : t ∈ tokensFrom d x seg fuel pos) : ∃ p, chooseToken d x seg p = some t := by
  induction fuel generalizing pos with
  | zero => cases h
  | succ fuel ih =>
    rw [tokensFrom] at h
    cases hc : chooseToken d x seg pos with
    | none => rw [hc] at h; cases h
    | some u =>
      rw [hc] at h
      rcases List.mem_cons.mp h with rfl | h
      · exact ⟨pos, hc⟩
      · exact ih h

/-- The index nibble of a byte found in a dictionary of at most 12 entries is below its length. -/
theorem indexNibble_lt {d : List Byte} {v : Byte} {k : Nat} (hd : d.length ≤ 12) (hk : dictIndex d v = some k) :
    (indexNibble k).toNat < d.length := by
  obtain ⟨hlt, -⟩ := List.getElem?_eq_some_iff.mp (dictIndex_some hk)
  rwa [indexNibble_toNat (by omega)]

/-- The count field of a segment holds its length. -/
theorem countField_segAt {x : List Byte} {p : Nat} {g : Segment} (h : segAt (segments x) p = some g) :
    (countField g.len).toNat = g.len :=
  countField_toNat (segments_inside (segAt_mem h).1).2.1

/-- The bytes of the span at `p` are as many as its count field says, and none is in the dictionary (43 R168). -/
theorem span_values (d x : List Byte) (seg : List Segment) (p : Nat) :
    (countField (span d x seg p)).toNat = span d x seg p ∧
      ((x.drop p).take (span d x seg p)).length = span d x seg p ∧
      ∀ v ∈ (x.drop p).take (span d x seg p), v ∉ d := by
  obtain ⟨hcap, hlen, hbytes⟩ := spanFrom_spec d seg Config.countMax p (x.drop p)
  refine ⟨countField_toNat hcap, List.length_take_of_le hlen, fun v hv => ?_⟩
  obtain ⟨k, hk, rfl⟩ := List.mem_take_iff_getElem.mp hv
  obtain ⟨⟨w, hw, hwd⟩, -⟩ := hbytes k (lt_min_iff.mp hk).1
  rw [List.getElem?_eq_getElem (lt_min_iff.mp hk).2, Option.some.injEq] at hw
  rwa [hw]

/-- Settles O27: by the rule that chose the token. -/
theorem emittedTokensAreInRange : Obligations.EmittedTokensAreInRange := by
  intro d x t hd ht
  obtain ⟨p, hc⟩ := mem_tokensFrom ht
  obtain ⟨v, -, ⟨g, hg, rfl⟩ | ⟨-, g, k, hg, hk, rfl⟩ |
    ⟨-, -, ⟨hs, rfl⟩ | ⟨-, k, hk, rfl⟩ | ⟨-, hk, rfl⟩⟩⟩ := chooseToken_cases hc
  case inl =>
    obtain ⟨hseg, hv, hlen⟩ := qualA_some hg
    exact ⟨rfl, .inr (.inr (.inl ⟨_, _, rfl, by rwa [countField_segAt hseg], hv⟩))⟩
  case inr.inl =>
    obtain ⟨hseg, -, hlen⟩ := qualB_some hg
    have hi := indexNibble_lt hd hk
    exact ⟨decide_eq_true (hi.trans_le hd),
      .inr (.inr (.inr (.inl ⟨_, _, rfl, by rwa [countField_segAt hseg], hi⟩)))⟩
  case inr.inr.inl =>
    obtain ⟨hcount, hlen, hvs⟩ := span_values d x (segments x) p
    exact ⟨decide_eq_true (hcount.trans hlen.symm),
      .inr (.inr (.inr (.inr ⟨_, _, rfl, by omega, hvs⟩)))⟩
  case inr.inr.inr.inl =>
    have hi := indexNibble_lt hd hk
    exact ⟨decide_eq_true (hi.trans_le hd), .inl ⟨_, rfl, hi⟩⟩
  case inr.inr.inr.inr => exact ⟨rfl, .inr (.inl ⟨_, rfl, dictIndex_none.mp hk⟩)⟩

/-! ### Packed nibbles (30_encoding R98, R99) -/

/-- The packed bytes read nibble by nibble are the nibbles packed, and one zero nibble after an odd count. -/
theorem nibblesOf_packNibbles (ns : List Nibble) :
    nibblesOf (packNibbles ns) = ns ++ (if ns.length % 2 = 1 then [0] else []) := by
  induction ns using packNibbles.induct with
  | case1 => rfl
  | case2 h => simp [packNibbles, nibblesOf]
  | case3 h l ns ih =>
    have hpar : (h :: l :: ns).length % 2 = ns.length % 2 := Nat.add_mod_right ns.length 2
    rw [hpar]
    simpa [packNibbles, nibblesOf] using ih

/-- Settles O33: the length is the packer's law, the contents are read back. -/
theorem packedBytesHoldTheNibbles : Obligations.PackedBytesHoldTheNibbles :=
  fun ns => ⟨length_packNibbles ns, nibblesOf_packNibbles ns⟩

end Sys2Proof.Machine
end

section
/-! Command control (40_control.md): acceptance of a CMD write, dispatch of the accepted word, and completion. -/

namespace Sys2Proof.Machine

/-! ### Completion (40_control R115, R116) -/

theorem exec_nop (s : State) : exec .nop s = .next (s.complete .none) := rfl

/-- Settles O16: NOP is the completion without error. -/
theorem nopOnlyCompletes : Obligations.NopOnlyCompletes := exec_nop

/-- A command that answers a next state ends in a completion: of STATUS it decides the code and COMPRESS alone, and it
leaves CTRL. -/
theorem exec_command_completes {i : Instr} {s t : State} (hi : i.isToken = false) (h : exec i s = .next t) :
    ∃ c b, t.status = Status.completed { s.status with compress := b } c ∧ t.ctrl = s.ctrl := by
  cases i with
  | nop => cases h; exact ⟨.none, s.status.compress, rfl, rfl⟩
  | pack =>
    rcases execPack_next h with ⟨-, rfl⟩ | ⟨-, pix, -, rfl⟩
    · exact ⟨.shape, s.status.compress, rfl, rfl⟩
    · exact ⟨.none, s.status.compress, rfl, rfl⟩
  | encode =>
    rcases execEncode_next h with ⟨-, rfl⟩ | ⟨-, -, rfl⟩ | ⟨-, -, x, -, u, v, he, hv, rfl⟩
    · exact ⟨.len, s.status.compress, rfl, rfl⟩
    · exact ⟨.dict, s.status.compress, rfl, rfl⟩
    · have hstatus : v.status = s.status := by rw [flush_frame hv, he.frame]
      have hctrl : v.ctrl = s.ctrl := by rw [flush_frame hv, he.frame]
      exact ⟨.none, compressFlag v.enc.ob x.length, by rw [finishEncode_status, hstatus], hctrl⟩
  | dictRef _ | rawRun _ _ | shortRunRepeat _ _ | runRepeat _ _ | rawByte _ => cases hi

/-! ### Dispatch (40_control R112, R114) -/

/-- The words of R114: RSVD nonzero, or OP above ENCODE's. -/
theorem decodeCommand_illegal {w : Word} (h : w.extractLsb' 4 28 ≠ 0 ∨ 3 ≤ (w.extractLsb' 0 4).toNat) :
    ∃ e, decodeCommand w = .error e := by
  cases hd : decodeCommand w with
  | error e => exact ⟨e, rfl⟩
  | ok i =>
    obtain ⟨hres, hop⟩ := decodeCommand_ok hd
    have hlarge := h.resolve_left (not_not_intro hres)
    obtain ⟨hop, -⟩ | ⟨hop, -⟩ | ⟨hop, -⟩ := hop <;> rw [hop] at hlarge <;> exact absurd hlarge (by decide)

/-- The core's step on an illegal word is the completion with ILLEGAL_CMD. -/
theorem coreStep_of_illegal {s : State} {e : DecodeError} (h : decodeCommand s.snap.cmd = .error e) :
    coreStep s = .next (s.complete .illegalCmd) := by
  unfold coreStep
  rw [h]
  rfl

/-- Every core step that answers a next state ends in a completion, whatever its word. -/
theorem coreStep_completes {s t : State} (h : coreStep s = .next t) :
    ∃ c b, t.status = Status.completed { s.status with compress := b } c ∧ t.ctrl = s.ctrl := by
  cases hd : decodeCommand s.snap.cmd with
  | error e =>
    rw [coreStep_of_illegal hd] at h
    cases h
    exact ⟨.illegalCmd, s.status.compress, rfl, rfl⟩
  | ok i =>
    rw [coreStep_of_decode hd] at h
    obtain ⟨hcommand, -⟩ := reservedBitsMakeWordsIllegal.2 s.snap.cmd i hd
    exact exec_command_completes hcommand h

/-- Settles O38: the completion sets DONE and clears BUSY, so IRQ is the kept CTRL.IRQ_EN. -/
theorem everyCompletionSetsDone : Obligations.EveryCompletionSetsDone := by
  intro s t h
  obtain ⟨c, b, hstatus, hctrl⟩ := coreStep_completes h
  refine ⟨by rw [hstatus, status_completed_done], by rw [hstatus, status_completed_busy], ?irq⟩
  case irq => rw [State.irq, hstatus, hctrl, status_completed_done, Bool.and_true]

theorem State.CoresTurn.step_eq {s : State} (h : s.CoresTurn) : step s = settle s (coreStep s) :=
  step_core h.faults h.port h.core

/-- Settles O9: at the core's turn the step is the core's, which runs the decoded instruction. -/
theorem stepRunsAcceptedCommand : Obligations.StepRunsAcceptedCommand := by
  intro s i hturn hd
  rw [hturn.step_eq, coreStep_of_decode hd]

/-- Settles O11: an illegal word has no decoding, and its completion is the whole step. -/
theorem illegalCommandCompletes : Obligations.IllegalCommandCompletes := by
  intro s hturn hillegal
  obtain ⟨e, hd⟩ := decodeCommand_illegal hillegal
  rw [hturn.step_eq, coreStep_of_illegal hd]
  rfl

/-! ### Acceptance (40_control R110, R111) -/

/-- Outside the window, with BUSY = 0, the bus write of any word to CMD is its acceptance. -/
theorem hostWrite_cmd {s : State} (hwin : s.win = false) (hbusy : s.status.busy = false) (w : Word) :
    hostWrite 0x00004 .word w s = .next { s.accept w with reply := .ack } :=
  hostWrite_register (r := .cmd) (busAccepts_register (by decide) (by decide)) (windowOf_register (by decide)) rfl
    (by simp [State.windowBars, hwin, hbusy])

/-- Settles O50: the acceptance sets the fields R111 names, and of the rest only the reply and the model's schedule
change. -/
theorem cmdWriteStartsTheCommand : Obligations.CmdWriteStartsTheCommand := by
  intro s w hwin hbusy
  exact ⟨_, hostWrite_cmd hwin hbusy w, rfl, rfl, rfl, rfl⟩

end Sys2Proof.Machine
end

section
/-! The column-packed bitmap serializer (41_bitmap_serializer.md): the state PACK's success leaves, its columns byte by
byte, and the bits of a column. -/

namespace Sys2Proof.Machine

/-- Settles O17: the shape check is PACK's first. -/
theorem packShapeError : Obligations.PackShapeError := fun _ => execPack_shape

/-! ### The PackedColumn array (41 R133, R134) -/

/-- Rows of `w` entries laid end to end: row `b` starts at `b * w`. -/
theorem getElem?_rows {α : Type} (f : Nat → Nat → α) {n w b c : Nat} (hb : b < n) (hc : c < w) :
    ((List.range n).flatMap fun i => (List.range w).map (f i))[b * w + c]? = some (f b c) := by
  induction n with
  | zero => cases hb
  | succ n ih =>
    have hlen : ((List.range n).flatMap fun i => (List.range w).map (f i)).length = n * w := by
      simp [List.length_flatMap]
    rw [List.range_succ, List.flatMap_append]
    rcases Nat.lt_succ_iff_lt_or_eq.mp hb with hlt | rfl
    · have hrow : b * w + c < n * w := by
        have := Nat.mul_le_mul_right w (Nat.succ_le_of_lt hlt)
        rw [Nat.succ_mul] at this
        omega
      rw [List.getElem?_append_left (hlen ▸ hrow), ih hlt]
    · rw [List.getElem?_append_right (by omega), hlen, Nat.add_sub_cancel_left]
      simp [hc]

/-- Band-major: the byte of band `b`, column `c` is byte `b * width + c` (41 R134). -/
theorem getElem?_packColumns {width height : Nat} (fg : Byte) (pix : List Byte) {b c : Nat}
    (hb : b < bandCount height) (hc : c < width) :
    (packColumns width height fg pix)[b * width + c]? = some (columnByte width height fg pix b c) :=
  getElem?_rows (columnByte width height fg pix) hb hc

/-- Bit `h` of a column is row `8b + h` (41 R133). -/
theorem getLsbD_columnByte (width height : Nat) (fg : Byte) (pix : List Byte) (b c : Nat) {h : Nat} (hh : h < 8) :
    (columnByte width height fg pix b c).getLsbD h = pixelSet width height fg pix (8 * b + h) c := by
  rw [columnByte, BitVec.getLsbD_ofFnLE, dif_pos hh]

/-- On a frame read from the buffer, a pixel is set when its row is in the frame and its byte there is FG. -/
theorem pixelSet_iff {m : Memory} {a width height : Nat} {pix : List Byte} (fg : Byte) {r c : Nat}
    (hpix : m.readBytes a (width * height) = .ok pix) (hc : c < width) :
    pixelSet width height fg pix r c = true ↔ r < height ∧ m.read (a + (r * width + c)) = some fg := by
  obtain ⟨-, hread⟩ := (memory_readBytes_ok_iff _ _ _ _).mp hpix
  rw [pixelSet, Bool.and_eq_true, decide_eq_true_iff, decide_eq_true_iff]
  refine and_congr_right fun hr => ?_
  have hin : r * width + c < width * height := by
    have := Nat.mul_le_mul_left width (Nat.succ_le_of_lt hr)
    rw [Nat.mul_succ, Nat.mul_comm width r] at this
    omega
  rw [hread _ hin]

/-! ### The state PACK's success leaves (41 R135) -/

/-- `s` after a PACK that read the pixels `pix`. -/
def State.packed (s : State) (pix : List Byte) : State :=
  { s with
    mem := s.mem.writeBytes Config.colBase (packColumns s.snap.width s.snap.height s.snap.fg pix)
    colLen := BitVec.ofNat 32 (s.snap.width * bandCount s.snap.height)
    status := s.status.completed .none }

/-- PACK without an error is the packing of the pixels it read. -/
theorem execPack_packed {s t : State} (h : execPack s = .next t) (hok : t.status.errCode = .none) :
    ∃ pix, s.mem.readBytes Config.pixBase (s.snap.width * s.snap.height) = .ok pix ∧ t = s.packed pix := by
  rcases execPack_next h with ⟨-, rfl⟩ | ⟨-, pix, hpix, rfl⟩
  · cases hok
  · exact ⟨pix, hpix, rfl⟩

/-- PACK of a matching shape whose pixels are all written succeeds. -/
theorem execPack_of_written {s : State} (hshape : s.snap.pixLen.toNat = s.snap.width * s.snap.height)
    (hwritten : ∀ k, k < s.snap.width * s.snap.height → (s.mem.read (Config.pixBase + k)).isSome = true) :
    ∃ pix, s.mem.readBytes Config.pixBase (s.snap.width * s.snap.height) = .ok pix ∧
      execPack s = .next (s.packed pix) := by
  cases hr : s.mem.readBytes Config.pixBase (s.snap.width * s.snap.height) with
  | ok pix => exact ⟨pix, rfl, execPack_ok hshape hr⟩
  | error f =>
    obtain ⟨k, hk, -, hnone⟩ := memory_readBytes_error s.mem hr
    have hsome := hwritten k hk
    rw [hnone] at hsome
    cases hsome

section
variable (s : State) (pix : List Byte)

/-- A frame's columns are at most 8160, so COL_LEN holds their number (41 R135). -/
theorem packed_colLen : (s.packed pix).colLen.toNat = s.snap.width * bandCount s.snap.height := by
  have hfit : s.snap.width * bandCount s.snap.height ≤ 8160 := (frame_bounds s.snap.geom.width s.snap.geom.height).1
  exact Nat.mod_eq_of_lt (by omega)

theorem packed_read_col {k : Nat} (hk : k < (s.packed pix).colLen.toNat) :
    (s.packed pix).mem.read (Config.colBase + k) =
      (packColumns s.snap.width s.snap.height s.snap.fg pix)[k]? := by
  rw [packed_colLen] at hk
  have hlen := length_packColumns s.snap.width s.snap.height s.snap.fg pix
  rw [State.packed, memory_read_writeBytes, if_pos (by omega), Nat.add_sub_cancel_left]

theorem packed_read_other {a : Nat} (ha : a < Config.colBase ∨ Config.colBase + (s.packed pix).colLen.toNat ≤ a) :
    (s.packed pix).mem.read a = s.mem.read a :=
  memory_read_writeBytes_other _ _ (by rwa [length_packColumns, ← packed_colLen s pix])

theorem packed_read_column {b w : Nat} (hb : b < bandCount s.snap.height) (hw : w < s.snap.width) :
    (s.packed pix).mem.read (Config.colBase + (b * s.snap.width + w)) =
      some (columnByte s.snap.width s.snap.height s.snap.fg pix b w) := by
  have hcol := getElem?_packColumns s.snap.fg pix hb hw
  obtain ⟨hin, -⟩ := List.getElem?_eq_some_iff.mp hcol
  rw [length_packColumns, ← packed_colLen s pix] at hin
  rw [packed_read_col s pix hin, hcol]

end

/-- Settles O18: PACK succeeds, and each clause is a law of the packed state. -/
theorem packWritesColumns : Obligations.PackWritesColumns := by
  intro s hshape hwritten
  obtain ⟨pix, hpix, hexec⟩ := execPack_of_written hshape hwritten
  refine ⟨s.packed pix, hexec, packed_colLen s pix, ?bound, fun b w hb hw => ?column,
    fun _ ha => packed_read_other s pix ha, rfl⟩
  case bound => exact (packed_colLen s pix).trans_le (frame_bounds s.snap.geom.width s.snap.geom.height).1
  case column =>
    refine ⟨_, packed_read_column s pix hb hw, fun h hh => ?_⟩
    rw [getLsbD_columnByte _ _ _ _ _ _ hh]
    exact pixelSet_iff s.snap.fg hpix hw

/-- Settles O19: equal pixels are read, so equal columns are written. -/
theorem packDependsOnlyOnItsOperands : Obligations.PackDependsOnlyOnItsOperands := by
  intro s s' t t' hgeom hfg hpixels h h' hok hok'
  obtain ⟨pix, hpix, rfl⟩ := execPack_packed h hok
  obtain ⟨pix', hpix', rfl⟩ := execPack_packed h' hok'
  have hwidth : s.snap.width = s'.snap.width := congrArg (·.width.toNat) hgeom
  have hheight : s.snap.height = s'.snap.height := congrArg (·.height.toNat) hgeom
  have hreads : s.mem.readBytes Config.pixBase (s.snap.width * s.snap.height) =
      s'.mem.readBytes Config.pixBase (s.snap.width * s.snap.height) := memory_readBytes_congr hpixels
  have hsame : pix = pix' := by
    rw [hreads, hwidth, hheight, hpix'] at hpix
    exact (Except.ok.inj hpix).symm
  have hcolLen : (s.packed pix).colLen = (s'.packed pix').colLen := by
    rw [State.packed, State.packed, hwidth, hheight]
  refine ⟨hcolLen, fun k hk => ?_⟩
  rw [packed_read_col s pix hk, packed_read_col s' pix' (hcolLen ▸ hk), hwidth, hheight, hfg, hsame]

end Sys2Proof.Machine
end

section
/-! The dictionary lookup (42_dictionary_lookup.md): the lookup answers the first entry that equals the byte, and over a
valid dictionary the comparators answer the same. -/

namespace Sys2Proof.Machine

/-! ### The lookup in a list of entries (42 R147) -/

theorem dictIndex_cons_self (ds : List Byte) (v : Byte) : dictIndex (v :: ds) v = some 0 := if_pos rfl

theorem dictIndex_cons_of_ne (ds : List Byte) {e v : Byte} (h : e ≠ v) :
    dictIndex (e :: ds) v = (dictIndex ds v).map (· + 1) := if_neg h

/-- The index found is that of a match, and no earlier entry matches. -/
theorem dictIndex_eq_some_iff {d : List Byte} {v : Byte} {k : Nat} :
    dictIndex d v = some k ↔ d[k]? = some v ∧ ∀ j, j < k → d[j]? ≠ some v := by
  induction d generalizing k with
  | nil => simp [dictIndex]
  | cons e ds ih =>
    by_cases he : e = v
    · subst he
      rw [dictIndex_cons_self]
      cases k with
      | zero => simp
      | succ k => exact iff_of_false nofun fun h => h.2 0 k.succ_pos rfl
    · rw [dictIndex_cons_of_ne ds he]
      cases k with
      | zero => simp [he]
      | succ k =>
        rw [Nat.forall_lt_succ_left]
        simp [he, ih]

/-- Where the entries are distinct, every match is the first one. -/
theorem dictIndex_eq_some_iff_of_nodup {d : List Byte} (hd : d.Nodup) {v : Byte} {k : Nat} :
    dictIndex d v = some k ↔ d[k]? = some v := by
  refine ⟨dictIndex_some, fun hk => dictIndex_eq_some_iff.mpr ⟨hk, fun j hjk hj => ?_⟩⟩
  obtain ⟨hlt, -⟩ := List.getElem?_eq_some_iff.mp hj
  exact hjk.ne ((List.getElem?_inj hlt hd).mp (hj.trans hk.symm))

/-! ### The dictionary of a command (42 R145, R146) -/

section
variable {p : Snapshot} {v : Byte}

theorem dictionary_getElem?_eq_some_iff {k : Nat} :
    p.dictionary[k]? = some v ↔ k < p.dictCnt.toNat ∧ p.dict[k]? = some v := by
  simp [Snapshot.dictionary, Snapshot.count, List.getElem?_take]

theorem mem_dictionary_iff : v ∈ p.dictionary ↔ ∃ k, k < p.dictCnt.toNat ∧ p.dict[k]? = some v := by
  simp only [List.mem_iff_getElem?, dictionary_getElem?_eq_some_iff]

theorem dictionary_nodup (h : p.dictValid = true) : p.dictionary.Nodup := by
  simp only [Snapshot.dictValid, Bool.and_eq_true, decide_eq_true_eq] at h
  exact h.2

/-- A comparator hits where the dictionary's entry is the byte (42 R148). -/
theorem hit_iff {k : Fin 12} : p.hit v k = true ↔ p.dictionary[k.val]? = some v := by
  rw [Snapshot.hit, Bool.and_eq_true, decide_eq_true_eq, decide_eq_true_eq, dictionary_getElem?_eq_some_iff,
    Vector.getElem?_eq_getElem k.isLt, Option.some_inj]
  rfl

/-- Twelve comparators cover the dictionary, whatever COUNT is. -/
theorem mem_dictionary_iff_hit : v ∈ p.dictionary ↔ ∃ k : Fin 12, p.hit v k = true := by
  simp only [hit_iff, List.mem_iff_getElem?]
  refine ⟨fun ⟨k, hk⟩ => ?_, fun ⟨k, hk⟩ => ⟨k.val, hk⟩⟩
  obtain ⟨-, hreg⟩ := dictionary_getElem?_eq_some_iff.mp hk
  obtain ⟨hlt, -⟩ := Vector.getElem?_eq_some_iff.mp hreg
  exact ⟨⟨k, hlt⟩, hk⟩

end

/-- Settles O21: the entries below COUNT are those of the list the lookup scans; two indices of one byte are both the
lookup's answer where the entries are distinct. -/
theorem lookupFindsFirstEntry : Obligations.LookupFindsFirstEntry := by
  intro p v
  refine ⟨fun k => ?first, ?none, Option.isSome_iff_ne_none, fun hvalid j k hj hk hjv hkv => ?unique⟩
  case first =>
    rw [dictIndex_eq_some_iff, dictionary_getElem?_eq_some_iff, and_assoc]
    refine and_congr_right fun hk => and_congr_right fun _ => forall₂_congr fun j hjk => not_congr ?_
    rw [dictionary_getElem?_eq_some_iff, and_iff_right (hjk.trans hk)]
  case none =>
    rw [dictIndex_none, mem_dictionary_iff]
    simp only [not_exists, not_and, ne_eq]
  case unique =>
    have answer {i : Nat} (hi : i < p.dictCnt.toNat) (hiv : p.dict[i]? = some v) : dictIndex p.dictionary v = some i :=
      (dictIndex_eq_some_iff_of_nodup (dictionary_nodup hvalid)).mpr (dictionary_getElem?_eq_some_iff.mpr ⟨hi, hiv⟩)
    exact Option.some.inj ((answer hj hjv).symm.trans (answer hk hkv))

/-- Settles O22: a hit is the lookup's answer, which is one index. -/
theorem comparatorsAgreeWithLookup : Obligations.ComparatorsAgreeWithLookup := by
  intro p v hvalid
  have hit_iff_answer (k : Fin 12) : p.hit v k = true ↔ dictIndex p.dictionary v = some k.val :=
    hit_iff.trans (dictIndex_eq_some_iff_of_nodup (dictionary_nodup hvalid)).symm
  refine ⟨hit_iff_answer, fun j k hj hk => ?oneHit, inDict_iff.trans mem_dictionary_iff_hit⟩
  case oneHit =>
    have hjk := ((hit_iff_answer j).mp hj).symm.trans ((hit_iff_answer k).mp hk)
    exact Fin.ext (Option.some.inj hjk)

end Sys2Proof.Machine
end

section
/-! The nibble-stream encoder (43_nibble_encoder.md): the segments are the cut maximal runs, the first matching rule
chooses the token, and the position passes through every qualifying segment to the end of the input. -/

namespace Sys2Proof.Machine

/-! ### Maximal stretches of equal bytes (43 R161) -/

/-- What the scan of runs finds: a maximal interval of equal bytes, a single byte too. -/
structure MaximalStretch (x : List Byte) (r : Segment) : Prop where
  pos : 1 ≤ r.len
  equal : ∀ j, j < r.len → x[r.start + j]? = some r.value
  left : r.start = 0 ∨ x[r.start - 1]? ≠ some r.value
  right : x[r.start + r.len]? ≠ some r.value

theorem maximalRun_iff {x : List Byte} {start len : Nat} {v : Byte} :
    MaximalRun x start len v ↔ MaximalStretch x ⟨start, v, len⟩ ∧ 2 ≤ len :=
  ⟨fun h => ⟨⟨Nat.le_of_succ_le h.two, h.equal, h.left, h.right⟩, h.two⟩,
    fun ⟨h, htwo⟩ => ⟨htwo, h.equal, h.left, h.right⟩⟩

namespace MaximalStretch
variable {x : List Byte} {r r' : Segment} {p : Nat}

theorem getElem? (h : MaximalStretch x r) (hp : r.start ≤ p) (hp' : p < r.start + r.len) : x[p]? = some r.value := by
  have hj := h.equal (p - r.start) (by omega)
  rwa [Nat.add_sub_cancel' hp] at hj

theorem start_lt_length (h : MaximalStretch x r) : r.start < x.length :=
  (List.getElem?_eq_some_iff.mp (h.getElem? le_rfl (Nat.lt_add_of_pos_right h.pos))).1

/-- A stretch that begins before the end of another one of its value begins no later than that one. -/
theorem start_le (h : MaximalStretch x r) (h' : MaximalStretch x r') (hv : r.value = r'.value)
    (hp : r'.start < r.start + r.len) : r'.start ≤ r.start := by
  by_contra hlt
  rcases h'.left with hzero | hne
  · omega
  · exact hne (hv ▸ h.getElem? (by omega) (by omega))

theorem len_le (h : MaximalStretch x r) (h' : MaximalStretch x r') (hv : r.value = r'.value)
    (hs : r.start = r'.start) : r'.len ≤ r.len := by
  by_contra hlt
  exact h.right (hv ▸ h'.getElem? (by omega) (by omega))

/-- Two stretches are equal when one begins inside the other. -/
theorem eq_of_start_mem (h : MaximalStretch x r) (h' : MaximalStretch x r') (hp : r.start ≤ r'.start)
    (hp' : r'.start < r.start + r.len) : r = r' := by
  have hv : r.value = r'.value := by
    have hbyte := h'.getElem? le_rfl (Nat.lt_add_of_pos_right h'.pos)
    rw [h.getElem? hp hp', Option.some.injEq] at hbyte
    exact hbyte
  have hs : r.start = r'.start := le_antisymm hp (h.start_le h' hv hp')
  have hl : r.len = r'.len := le_antisymm (h'.len_le h hv.symm hs.symm) (h.len_le h' hv hs)
  cases r; cases r'; simp_all

/-- Two stretches are equal when they share a byte. -/
theorem eq_of_mem (h : MaximalStretch x r) (h' : MaximalStretch x r') (hp : r.start ≤ p) (hp' : p < r.start + r.len)
    (hq : r'.start ≤ p) (hq' : p < r'.start + r'.len) : r = r' := by
  rcases le_total r.start r'.start with hle | hle
  · exact h.eq_of_start_mem h' hle (by omega)
  · exact (h'.eq_of_start_mem h hle (by omega)).symm

end MaximalStretch

/-- The first byte of what is left of a list, and what is left after it. -/
theorem drop_eq_cons {x ys : List Byte} {p : Nat} {y : Byte} (h : x.drop p = y :: ys) :
    x[p]? = some y ∧ x.drop (p + 1) = ys := by
  rw [← Nat.add_zero p, ← List.getElem?_drop, h, Nat.add_zero, ← List.drop_drop, h]
  exact ⟨rfl, rfl⟩

/-- The scan with the stretch of `len` bytes from `start` open, and `ys` still to come, finds the maximal stretches from
`start` on. -/
theorem mem_runsFrom {x ys : List Byte} {start len : Nat} {v : Byte} {r : Segment} (hys : x.drop (start + len) = ys)
    (hpos : 1 ≤ len) (hequal : ∀ j, j < len → x[start + j]? = some v)
    (hleft : start = 0 ∨ x[start - 1]? ≠ some v) :
    r ∈ runsFrom start v len ys ↔ MaximalStretch x r ∧ start ≤ r.start := by
  induction ys generalizing start len v with
  | nil =>
    have hend : x.length ≤ start + len := List.drop_eq_nil_iff.mp hys
    have hopen : MaximalStretch x ⟨start, v, len⟩ :=
      ⟨hpos, hequal, hleft, by simp [List.getElem?_eq_none hend]⟩
    rw [runsFrom, List.mem_singleton]
    refine ⟨fun hr => hr ▸ ⟨hopen, le_rfl⟩, fun ⟨hr, hs⟩ => ?_⟩
    exact (hopen.eq_of_start_mem hr hs (hr.start_lt_length.trans_le hend)).symm
  | cons y ys ih =>
    obtain ⟨hy, hys⟩ := drop_eq_cons hys
    rw [runsFrom]
    split
    next hyv =>
      subst hyv
      refine ih hys (Nat.le_add_left 1 len) (fun j hj => ?_) hleft
      rcases Nat.lt_succ_iff_lt_or_eq.mp hj with hj | rfl
      · exact hequal j hj
      · exact hy
    next hyv =>
      have hopen : MaximalStretch x ⟨start, v, len⟩ :=
        ⟨hpos, hequal, hleft, by simpa [hy] using hyv⟩
      have hlast : x[start + len - 1]? = some v := by
        have := hequal (len - 1) (by omega)
        rwa [← Nat.add_sub_assoc hpos] at this
      have hnext := ih (start := start + len) (len := 1) (v := y) hys le_rfl
        (fun j hj => by rwa [Nat.lt_one_iff.mp hj]) (.inr (by simpa [hlast] using Ne.symm hyv))
      rw [List.mem_cons, hnext]
      constructor
      · rintro (rfl | ⟨hr, hs⟩)
        · exact ⟨hopen, le_rfl⟩
        · exact ⟨hr, by omega⟩
      · rintro ⟨hr, hs⟩
        by_cases hin : r.start < start + len
        · exact .inl (hopen.eq_of_start_mem hr hs hin).symm
        · exact .inr ⟨hr, by omega⟩

/-- The runs the model finds are the maximal stretches. -/
theorem mem_runs {x : List Byte} {r : Segment} : r ∈ runs x ↔ MaximalStretch x r := by
  cases x with
  | nil => exact ⟨nofun, fun hr => absurd hr.start_lt_length (Nat.not_lt_zero _)⟩
  | cons y ys =>
    have hfirst (j : Nat) (hj : j < 1) : (y :: ys)[0 + j]? = some y := by rw [Nat.lt_one_iff.mp hj]; rfl
    exact (mem_runsFrom rfl le_rfl hfirst (.inl rfl)).trans (and_iff_left (Nat.zero_le _))

/-- Settles O24: the runs are the maximal stretches; a piece of 2 bytes or more is cut from a stretch of 2 or more. -/
theorem segmentsAreCutRuns : Obligations.SegmentsAreCutRuns := by
  intro x g
  simp only [segments, List.mem_flatMap, mem_runs, mem_cutRun]
  constructor
  · rintro ⟨r, hr, k, hk, rfl, htwo⟩
    exact ⟨r.start, r.len, k, maximalRun_iff.mpr ⟨hr, htwo.trans (by simp only; omega)⟩, hk, rfl, rfl, htwo⟩
  · rintro ⟨start, len, k, hrun, hk, hs, hl, htwo⟩
    refine ⟨⟨start, g.value, len⟩, (maximalRun_iff.mp hrun).1, k, hk, ?_, htwo⟩
    rw [← hs, ← hl]

/-! ### The segment at a position (43 R162 to R164) -/

/-- Two segments are equal when one begins inside the other: they are cut from one run, at one multiple of 255. -/
theorem segments_eq_of_start_mem {x : List Byte} {g g' : Segment} (hg : g ∈ segments x) (hg' : g' ∈ segments x)
    (hp : g.start ≤ g'.start) (hp' : g'.start < g.start + g.len) : g = g' := by
  obtain ⟨r, hr, hg⟩ := List.mem_flatMap.mp hg
  obtain ⟨r', hr', hg'⟩ := List.mem_flatMap.mp hg'
  obtain ⟨k, hk, rfl, -⟩ := mem_cutRun.mp hg
  obtain ⟨k', hk', rfl, -⟩ := mem_cutRun.mp hg'
  simp only at hp hp'
  obtain rfl : r = r' := (mem_runs.mp hr).eq_of_mem (mem_runs.mp hr') (p := r'.start + 255 * k')
    (by omega) (by omega) (by omega) (by omega)
  obtain rfl : k = k' := by omega
  rfl

/-- `seg(j)` is the one segment that starts at `j`. -/
theorem segAt_segments {x : List Byte} {j : Nat} {g : Segment} :
    segAt (segments x) j = some g ↔ g ∈ segments x ∧ g.start = j := by
  refine ⟨segAt_mem, fun ⟨hg, hj⟩ => ?_⟩
  cases hs : segAt (segments x) j with
  | none =>
    rw [segAt, List.find?_eq_none] at hs
    exact absurd hj (by simpa using hs g hg)
  | some g' =>
    obtain ⟨hg', hj'⟩ := segAt_mem hs
    obtain ⟨htwo, -⟩ := segments_inside hg'
    rw [segments_eq_of_start_mem hg' hg (by omega) (by omega)]

theorem qualA_segments {d x : List Byte} {j : Nat} {g : Segment} :
    qualA d (segments x) j = some g ↔ g ∈ segments x ∧ g.start = j ∧ g.value ∉ d ∧ 3 ≤ g.len := by
  rw [qualA, Option.filter_eq_some_iff, segAt_segments]
  simp [inDict_eq_false, and_assoc]

theorem qualB_segments {d x : List Byte} {j : Nat} {g : Segment} :
    qualB d (segments x) j = some g ↔ g ∈ segments x ∧ g.start = j ∧ g.value ∈ d ∧ 4 ≤ g.len := by
  rw [qualB, Option.filter_eq_some_iff, segAt_segments]
  simp [inDict_iff, and_assoc]

/-- Rules a and b ask opposite things of the one segment at a position. -/
theorem qualA_eq_none_of_qualB {d : List Byte} {seg : List Segment} {j : Nat} {g : Segment}
    (hb : qualB d seg j = some g) : qualA d seg j = none := by
  obtain ⟨hseg, hmem, -⟩ := qualB_some hb
  simp [qualA, hseg, inDict_iff.mpr hmem]

/-! ### The rules in their order (43 R165 to R170) -/

section
variable {d x : List Byte} {seg : List Segment} {pos : Nat} {v : Byte} (hv : x[pos]? = some v)
include hv

theorem chooseToken_ruleA {g : Segment} (ha : qualA d seg pos = some g) :
    chooseToken d x seg pos = some (.runRepeat (countField g.len) g.value) := by
  simp [chooseToken, hv, tokenRuleA, ha]

theorem chooseToken_ruleB {g : Segment} {k : Nat} (hb : qualB d seg pos = some g) (hk : dictIndex d g.value = some k) :
    chooseToken d x seg pos = some (.shortRunRepeat (countField g.len) (indexNibble k)) := by
  simp [chooseToken, hv, tokenRuleA, qualA_eq_none_of_qualB hb, tokenRuleB, hb, hk]

theorem chooseToken_ruleC (ha : qualA d seg pos = none) (hb : qualB d seg pos = none) (hs : 2 < span d x seg pos) :
    chooseToken d x seg pos =
      some (.rawRun (countField (span d x seg pos)) ((x.drop pos).take (span d x seg pos))) := by
  simp [chooseToken, hv, tokenRuleA, ha, tokenRuleB, hb, tokenRuleC, hs]

theorem chooseToken_ruleD (ha : qualA d seg pos = none) (hb : qualB d seg pos = none) (hs : span d x seg pos ≤ 2) :
    chooseToken d x seg pos = some (tokenRuleD d v) := by
  simp [chooseToken, hv, tokenRuleA, ha, tokenRuleB, hb, tokenRuleC, hs.not_gt]

end

theorem tokenRuleD_dictRef {d : List Byte} {v : Byte} {k : Nat} (hk : dictIndex d v = some k) :
    tokenRuleD d v = .dictRef (indexNibble k) := by
  rw [tokenRuleD, hk]

theorem tokenRuleD_rawByte {d : List Byte} {v : Byte} (hv : v ∉ d) : tokenRuleD d v = .rawByte v := by
  rw [tokenRuleD, dictIndex_none.mpr hv]

/-- The lookup of a dictionary byte has an answer. -/
theorem dictIndex_of_mem {d : List Byte} {v : Byte} (hv : v ∈ d) : ∃ k, dictIndex d v = some k :=
  Option.isSome_iff_exists.mp (inDict_iff.mpr hv)

/-- Settles O25: each clause is its rule, since at most one segment starts at a position. -/
theorem firstMatchingRuleDecides : Obligations.FirstMatchingRuleDecides := by
  intro d x pos v hv
  obtain ⟨t, ht⟩ : ∃ t, chooseToken d x (segments x) pos = some t := ⟨_, by rw [chooseToken, hv]; rfl⟩
  have token_eq {t' : Instr} (h : chooseToken d x (segments x) pos = some t') : t = t' :=
    Option.some.inj (ht.symm.trans h)
  refine ⟨t, ht, fun g hg hstart hmem hlen => ?ruleA, fun g hg hstart hmem hlen => ?ruleB, fun hnone => ?later⟩
  case ruleA => exact token_eq (chooseToken_ruleA hv (qualA_segments.mpr ⟨hg, hstart, hmem, hlen⟩))
  case ruleB =>
    obtain ⟨k, hk⟩ := dictIndex_of_mem hmem
    exact ⟨k, hk, token_eq (chooseToken_ruleB hv (qualB_segments.mpr ⟨hg, hstart, hmem, hlen⟩) hk)⟩
  case later =>
    have ha : qualA d (segments x) pos = none := Option.eq_none_iff_forall_ne_some.mpr fun g h => by
      obtain ⟨hg, hstart, hq⟩ := qualA_segments.mp h
      exact (hnone g hg hstart).1 hq
    have hb : qualB d (segments x) pos = none := Option.eq_none_iff_forall_ne_some.mpr fun g h => by
      obtain ⟨hg, hstart, hq⟩ := qualB_segments.mp h
      exact (hnone g hg hstart).2 hq
    refine ⟨fun hs => token_eq (chooseToken_ruleC hv ha hb hs), fun hs => ?_⟩
    have hd := token_eq (chooseToken_ruleD hv ha hb hs)
    exact ⟨fun k hk => hd.trans (tokenRuleD_dictRef hk), fun hmem => hd.trans (tokenRuleD_rawByte hmem)⟩

/-! ### The raw span (43 R168) -/

/-- The span stays in its cap and in the input, and no byte of it ends it. -/
theorem span_spec (d x : List Byte) (seg : List Segment) (p : Nat) :
    span d x seg p ≤ 255 ∧ span d x seg p ≤ x.length - p ∧
      ∀ k, k < span d x seg p → (∃ v, x[p + k]? = some v ∧ v ∉ d) ∧ qualA d seg (p + k) = none := by
  obtain ⟨hcap, hlen, hbytes⟩ := spanFrom_spec d seg Config.countMax p (x.drop p)
  simp only [List.getElem?_drop] at hbytes
  exact ⟨hcap, List.length_drop ▸ hlen, hbytes⟩

/-- Settles O26: the scan's bounds, and what stops it. -/
theorem rawSpanIsLongest : Obligations.RawSpanIsLongest := by
  intro d x p
  obtain ⟨hcap, -, hbytes⟩ := span_spec d x (segments x) p
  refine ⟨hcap, fun k hk => ?inside, ?stop⟩
  case inside =>
    obtain ⟨hv, ha⟩ := hbytes k hk
    refine ⟨hv, fun g hg hstart hq => ?_⟩
    rw [qualA_segments.mpr ⟨hg, hstart, hq⟩] at ha
    cases ha
  case stop =>
    rcases hcap.eq_or_lt with hfull | hlt
    · exact .inl hfull
    cases hv : x[p + span d x (segments x) p]? with
    | none => exact .inr (.inl rfl)
    | some v =>
      have hdrop : (x.drop p)[span d x (segments x) p]? = some v := List.getElem?_drop ▸ hv
      rcases spanFrom_stop d (segments x) Config.countMax p (x.drop p) hlt hdrop with hmem | hq
      · exact .inr (.inr (.inl ⟨v, rfl, hmem⟩))
      · obtain ⟨g, hg⟩ := Option.isSome_iff_exists.mp hq
        obtain ⟨hg, hstart, hq⟩ := qualA_segments.mp hg
        exact .inr (.inr (.inr ⟨g, hg, hstart, hq⟩))

/-! ### The position (43 R171, R175) -/

theorem length_tokenNibbles_rawRun (n : Byte) (vs : List Byte) :
    (tokenNibbles (.rawRun n vs)).length = 3 + 2 * vs.length := by
  simp only [tokenNibbles, fieldNibbles, List.length_cons, List.length_append, List.length_nil,
    Laws.length_valueNibbles]
  omega

/-- What a chosen token can be, with the bytes it stands for: a qualifying segment's repeat, the raw span of 3 bytes or
more, or one byte. -/
theorem chooseToken_count {d x : List Byte} {pos : Nat} {t : Instr} (h : chooseToken d x (segments x) pos = some t) :
    pos < x.length ∧
      ((∃ g ∈ segments x, g.start = pos ∧ t.count = g.len ∧ 3 ≤ g.len ∧ (tokenNibbles t).length ≤ 5) ∨
       (t.count = span d x (segments x) pos ∧ 2 < t.count ∧ (tokenNibbles t).length = 3 + 2 * t.count) ∨
       (t.count = 1 ∧ (tokenNibbles t).length ≤ 3)) := by
  obtain ⟨v, hv, hcases⟩ := chooseToken_cases h
  refine ⟨(List.getElem?_eq_some_iff.mp hv).1, ?_⟩
  obtain ⟨g, hg, rfl⟩ | ⟨-, g, k, hg, -, rfl⟩ | ⟨-, -, ⟨hs, rfl⟩ | ⟨-, k, -, rfl⟩ | ⟨-, -, rfl⟩⟩ := hcases
  case inl =>
    obtain ⟨hseg, -, hlen⟩ := qualA_some hg
    obtain ⟨hmem, hstart⟩ := segAt_mem hseg
    exact .inl ⟨g, hmem, hstart, countField_segAt hseg, hlen, le_rfl⟩
  case inr.inl =>
    obtain ⟨hseg, -, hlen⟩ := qualB_some hg
    obtain ⟨hmem, hstart⟩ := segAt_mem hseg
    exact .inl ⟨g, hmem, hstart, countField_segAt hseg, by omega, by simp [tokenNibbles, fieldNibbles]⟩
  case inr.inr.inl =>
    obtain ⟨hcount, hlen, -⟩ := span_values d x (segments x) pos
    refine .inr (.inl ⟨hcount, hs.trans_eq hcount.symm, ?_⟩)
    rw [length_tokenNibbles_rawRun, hlen, Instr.count, hcount]
  case inr.inr.inr.inl => exact .inr (.inr ⟨rfl, by simp [tokenNibbles]⟩)
  case inr.inr.inr.inr => exact .inr (.inr ⟨rfl, le_rfl⟩)

/-- A chosen token stands for 1 to 255 bytes, all of them in the input. -/
theorem chooseToken_advance {d x : List Byte} {pos : Nat} {t : Instr} (h : chooseToken d x (segments x) pos = some t) :
    1 ≤ t.count ∧ t.count ≤ 255 ∧ pos + t.count ≤ x.length := by
  obtain ⟨hpos, ⟨g, hg, hstart, hcount, -, -⟩ | ⟨hcount, htwo, -⟩ | ⟨hcount, -⟩⟩ := chooseToken_count h
  · obtain ⟨htwo, hmax, hend, -⟩ := segments_inside hg
    omega
  · obtain ⟨hcap, hend, -⟩ := span_spec d x (segments x) pos
    omega
  · omega

/-- A chosen token has at most 3 nibbles for each byte it stands for (44 R205). -/
theorem chooseToken_nibbles_le {d x : List Byte} {pos : Nat} {t : Instr}
    (h : chooseToken d x (segments x) pos = some t) : (tokenNibbles t).length ≤ 3 * t.count := by
  obtain ⟨-, ⟨g, -, -, hcount, hthree, hnibbles⟩ | ⟨-, htwo, hnibbles⟩ | ⟨hcount, hnibbles⟩⟩ := chooseToken_count h <;>
    omega

/-- Before the end of the input a token is chosen. -/
theorem chooseToken_eq_none {d x : List Byte} {seg : List Segment} {pos : Nat} (h : chooseToken d x seg pos = none) :
    x.length ≤ pos :=
  List.getElem?_eq_none_iff.mp (Option.map_eq_none_iff.mp h)

@[simp] theorem tokenTotal_cons (t : Instr) (ts : List Instr) : tokenTotal (t :: ts) = t.count + tokenTotal ts :=
  List.sum_cons

/-- The tokens from a position on, one a byte at most, stand for the rest of the input. -/
theorem tokenTotal_tokensFrom (d x : List Byte) {fuel pos : Nat} (hpos : pos ≤ x.length)
    (hfuel : x.length - pos ≤ fuel) : pos + tokenTotal (tokensFrom d x (segments x) fuel pos) = x.length := by
  induction fuel generalizing pos with
  | zero => exact le_antisymm hpos (Nat.sub_eq_zero_iff_le.mp (Nat.le_zero.mp hfuel))
  | succ fuel ih =>
    rw [tokensFrom]
    cases hc : chooseToken d x (segments x) pos with
    | none => exact le_antisymm hpos (chooseToken_eq_none hc)
    | some t =>
      obtain ⟨hone, -, hend⟩ := chooseToken_advance hc
      rw [tokenTotal_cons, ← Nat.add_assoc]
      exact ih hend (by omega)

theorem length_tokensFrom_le (d x : List Byte) (seg : List Segment) (fuel pos : Nat) :
    (tokensFrom d x seg fuel pos).length ≤ fuel := by
  induction fuel generalizing pos with
  | zero => exact le_rfl
  | succ fuel ih =>
    rw [tokensFrom]
    cases chooseToken d x seg pos with
    | none => exact Nat.zero_le _
    | some t => exact Nat.succ_le_succ (ih _)

theorem tokenTotal_tokenize (d x : List Byte) : tokenTotal (tokenize d x) = x.length :=
  (Nat.zero_add _).symm.trans (tokenTotal_tokensFrom d x (Nat.zero_le _) (Nat.sub_le _ _))

/-- Settles O28: each token's advance, and their sum from position 0. -/
theorem positionEndsAtInputLength : Obligations.PositionEndsAtInputLength := by
  intro d x
  refine ⟨tokenTotal_tokenize d x, length_tokensFrom_le d x _ _ _, fun t ht => ?_⟩
  obtain ⟨p, hc⟩ := mem_tokensFrom ht
  obtain ⟨hone, hmax, -⟩ := chooseToken_advance hc
  exact ⟨hone, hmax⟩

/-- A position that no token steps over is reached, and the token chosen there is emitted. -/
theorem tokensFrom_reaches {d x : List Byte} {q : Nat} {u : Instr} (hq : chooseToken d x (segments x) q = some u)
    (hstop : ∀ p t, p < q → chooseToken d x (segments x) p = some t → p + t.count ≤ q) {fuel p : Nat} (hp : p ≤ q)
    (hfuel : x.length - p ≤ fuel) :
    ∃ pre post, tokensFrom d x (segments x) fuel p = pre ++ u :: post ∧ p + tokenTotal pre = q := by
  obtain ⟨hone, -, hend⟩ := chooseToken_advance hq
  induction fuel generalizing p with
  | zero => omega
  | succ fuel ih =>
    rw [tokensFrom]
    rcases hp.eq_or_lt with rfl | hlt
    · exact ⟨[], _, by rw [hq]; rfl, rfl⟩
    · cases hc : chooseToken d x (segments x) p with
      | none => have := chooseToken_eq_none hc; omega
      | some t =>
        obtain ⟨hadvance, -, -⟩ := chooseToken_advance hc
        obtain ⟨pre, post, htokens, htotal⟩ := ih (hstop p t hlt hc) (by omega)
        exact ⟨t :: pre, post, congrArg (t :: ·) htokens, by rw [tokenTotal_cons, ← Nat.add_assoc, htotal]⟩

/-- No token steps over the start of a qualifying segment (43 R175): a repeat is of a segment, which holds no other's
start, and the raw span ends at the start of a rule-a segment and at a dictionary byte. -/
theorem chooseToken_stops_at_segment {d x : List Byte} {g : Segment} (hg : g ∈ segments x)
    (hq : g.value ∈ d ∨ qualA d (segments x) g.start = some g) {p : Nat} {t : Instr} (hp : p < g.start)
    (hc : chooseToken d x (segments x) p = some t) : p + t.count ≤ g.start := by
  by_contra hover
  obtain ⟨-, ⟨g', hg', hstart, hcount, -, -⟩ | ⟨hcount, -, -⟩ | ⟨hcount, -⟩⟩ := chooseToken_count hc
  · obtain rfl : g' = g := segments_eq_of_start_mem hg' hg (by omega) (by omega)
    omega
  · obtain ⟨-, -, hbytes⟩ := span_spec d x (segments x) p
    obtain ⟨⟨v, hv, hvd⟩, ha⟩ := hbytes (g.start - p) (by omega)
    rw [Nat.add_sub_cancel' hp.le] at hv ha
    rcases hq with hmem | hq
    · obtain ⟨htwo, -, -, hequal⟩ := segments_inside hg
      have hbyte : x[g.start]? = some g.value := hequal 0 (by omega)
      rw [hv, Option.some.injEq] at hbyte
      exact hvd (hbyte ▸ hmem)
    · rw [hq] at ha
      cases ha
  · omega

/-- The token chosen at the start of a qualifying segment is one of the tokens of the input, and those before it stand
for the bytes before the segment. -/
theorem tokenize_at_segment {d x : List Byte} {g : Segment} {u : Instr} (hg : g ∈ segments x)
    (hq : g.value ∈ d ∨ qualA d (segments x) g.start = some g) (hc : chooseToken d x (segments x) g.start = some u) :
    ∃ pre post, tokenize d x = pre ++ u :: post ∧ (pre.map Instr.count).sum = g.start := by
  obtain ⟨pre, post, htokens, htotal⟩ := tokensFrom_reaches hc
    (fun p t hp => chooseToken_stops_at_segment hg hq hp) (Nat.zero_le g.start) (Nat.sub_le _ _)
  exact ⟨pre, post, htokens, (Nat.zero_add _).symm.trans htotal⟩

/-- Settles O29: the position stops at the segment, where its rule chooses the token. -/
theorem qualifyingSegmentIsOneToken : Obligations.QualifyingSegmentIsOneToken := by
  intro d x g hg
  obtain ⟨htwo, -, -, hequal⟩ := segments_inside hg
  have hbyte : x[g.start]? = some g.value := hequal 0 (by omega)
  refine ⟨fun hmem hlen => ?ruleA, fun hmem hlen => ?ruleB⟩
  case ruleA =>
    have ha := qualA_segments.mpr ⟨hg, rfl, hmem, hlen⟩
    exact tokenize_at_segment hg (.inr ha) (chooseToken_ruleA hbyte ha)
  case ruleB =>
    obtain ⟨k, hk⟩ := dictIndex_of_mem hmem
    have hb := qualB_segments.mpr ⟨hg, rfl, hmem, hlen⟩
    obtain ⟨pre, post, htokens, htotal⟩ := tokenize_at_segment hg (.inl hmem) (chooseToken_ruleB hbyte hb hk)
    exact ⟨pre, post, k, hk, htokens, htotal⟩

/-- The nibbles of the tokens from a position on are at most 3 for each byte they stand for (44 R205). -/
theorem length_streamNibbles_le {ts : List Instr} (h : ∀ t ∈ ts, (tokenNibbles t).length ≤ 3 * t.count) :
    (streamNibbles ts).length ≤ 3 * tokenTotal ts := by
  induction ts with
  | nil => exact le_rfl
  | cons t ts ih =>
    have ht := h t List.mem_cons_self
    have hts := ih fun u hu => h u (List.mem_cons_of_mem t hu)
    rw [tokenTotal_cons, streamNibbles, List.flatMap_cons, List.length_append]
    exact (Nat.add_le_add ht hts).trans_eq (Nat.mul_add ..).symm

/-- An input's stream has at most 3 nibbles a byte (44 R205). -/
theorem length_streamNibbles_tokenize_le (d x : List Byte) :
    (streamNibbles (tokenize d x)).length ≤ 3 * x.length := by
  rw [← tokenTotal_tokenize d x]
  refine length_streamNibbles_le fun t ht => ?_
  obtain ⟨p, hc⟩ := mem_tokensFrom ht
  exact chooseToken_nibbles_le hc

end Sys2Proof.Machine
end

section
/-! The tokens' emissions and the command ENCODE (43_nibble_encoder.md, 44_token_packer.md), and a token at the port. -/

namespace Sys2Proof.Machine

/-! ### Tokens (43 R166 to R170) -/

/-- A token whose bytes fit OUT completes and emits its nibbles. -/
theorem exec_token_fits {i : Instr} {s : State} (hi : i.isToken = true)
    (h : s.enc.ob + (s.enc.half.toNat + (tokenNibbles i).length) / 2 ≤ Config.outSize) :
    ∃ u, exec i s = .next u ∧ Emits (tokenNibbles i) i.count s u := by
  have hrun : exec i s = emitToken (tokenNibbles i) i.count s := by
    cases i with
    | nop | pack | encode => cases hi
    | dictRef _ | rawRun _ _ | shortRunRepeat _ _ | runRepeat _ _ | rawByte _ => rfl
  obtain ⟨u, hu⟩ := emitToken_fits (m := i.count) h
  exact ⟨u, hrun.trans hu, emitToken_next hu⟩

theorem valueNibbles_eq_flatMap (vs : List Byte) : valueNibbles vs = vs.flatMap fieldNibbles := by
  induction vs with
  | nil => rfl
  | cons v vs ih => rw [valueNibbles, List.flatMap_cons, ih]

/-- Settles O31: the five kinds share one emission. -/
theorem tokensEmitTheirNibbles : Obligations.TokensEmitTheirNibbles := by
  intro s
  refine ⟨fun i h => exec_token_fits (i := .dictRef i) rfl h, fun v h => exec_token_fits (i := .rawByte v) rfl h,
    fun len v h => exec_token_fits (i := .runRepeat len v) rfl h,
    fun len i h => exec_token_fits (i := .shortRunRepeat len i) rfl h, fun n vs h => ?rawRun⟩
  case rawRun =>
    have hrun := exec_token_fits (i := .rawRun n vs) (s := s) rfl (by rwa [length_tokenNibbles_rawRun])
    rwa [tokenNibbles, valueNibbles_eq_flatMap] at hrun

/-- An emission writes the `OUT` bytes it completes and no other byte. -/
theorem Emits.read_other {ns : List Nibble} {m : Nat} {s u : State} (h : Emits ns m s u) {a : Nat}
    (ha : a < Config.outBase + s.enc.ob ∨
      Config.outBase + s.enc.ob + (s.enc.half.toNat + ns.length) / 2 ≤ a) : u.mem.read a = s.mem.read a := by
  rw [h.rest]
  refine memory_read_writeBytes_other _ _ ?_
  rwa [length_fullBytes, List.length_append, length_pending]

/-- Settles O32: the frame of the emission that every token is. -/
theorem tokensChangeOnlyTheirBytes : Obligations.TokensChangeOnlyTheirBytes := by
  intro i s u hi h
  have he := exec_token_next hi h
  exact ⟨he.frame, he.seg, fun a => he.read_other⟩

/-- Settles O10: the decoder reads the token back from its nibbles, of which there is at least one. -/
theorem stepRunsPortToken : Obligations.StepRunsPortToken := by
  intro s i hf hi hw hp
  have hport : s.port ≠ [] := by
    rw [hp]
    cases i with
    | nop | pack | encode => cases hi
    | dictRef _ | rawRun _ _ | shortRunRepeat _ _ | runRepeat _ _ | rawByte _ => exact List.cons_ne_nil _ _
  rw [step_port hf hport, portStep, hp, decodeOneToken_tokenNibbles hi hw]
  rfl

/-! ### ENCODE (43 R172, R173, R179) -/

/-- A dictionary of more than 12 entries is not valid, nor is one with two equal entries (42 R146). -/
theorem dictValid_eq_false {p : Snapshot}
    (h : 12 < p.dictCnt.toNat ∨
      ∃ i j : Nat, ∃ v : Byte, i < j ∧ j < p.dictCnt.toNat ∧ p.dict[i]? = some v ∧ p.dict[j]? = some v) :
    p.dictValid = false := by
  rw [← Bool.not_eq_true]
  intro hvalid
  rcases h with hcount | ⟨i, j, v, hij, hj, hiv, hjv⟩
  · obtain ⟨hmax, -⟩ := Bool.and_eq_true_iff.mp hvalid
    exact absurd (of_decide_eq_true hmax) hcount.not_ge
  · obtain ⟨-, -, -, hunique⟩ := lookupFindsFirstEntry p v
    exact hij.ne (hunique hvalid i j (hij.trans hj) hj hiv hjv)

/-- Settles O23: the two checks of ENCODE, in the order it makes them. -/
theorem encodeChecksInOrder : Obligations.EncodeChecksInOrder := by
  refine ⟨fun s hlen => ?len, fun s hlen hdict => ?dict⟩
  case len => exact if_pos hlen
  case dict => exact (if_neg hlen.not_gt).trans (if_pos (dictValid_eq_false hdict))

/-- The stream of an input of at most 8192 bytes fits OUT (44 R205). -/
theorem packedStream_fits (d : List Byte) {x : List Byte} (hx : x.length ≤ Config.colSize) :
    (packedStream d x).length ≤ Config.outSize := by
  have hnibbles := length_streamNibbles_tokenize_le d x
  rw [packedStream, length_packNibbles]
  unfold Config.colSize at hx
  unfold Config.outSize
  omega

/-- Settles O34: ENCODE's completion, its stream read back from OUT, its counts small enough for their registers. -/
theorem encodeWritesThePackedStream : Obligations.EncodeWritesThePackedStream := by
  intro s x hlen hdict hx hread
  have hxlen : x.length ≤ 8192 := hx.trans_le hlen
  have hbytes : s.mem.readBytes Config.colBase s.snap.inputLen = .ok x :=
    (memory_readBytes_ok_iff ..).mpr ⟨hx, fun k hk => hread k (hx ▸ hk)⟩
  have hfits := packedStream_fits s.snap.dictionary hxlen
  have hnibbles := length_streamNibbles_tokenize_le s.snap.dictionary x
  refine ⟨_, execEncode_ok hlen hdict hbytes hfits, fun k hk => ?stream, ?outLen, ?nibCount, rfl,
    fun a ha => memory_read_writeBytes_other _ _ ha, rfl⟩
  case stream => rw [memory_read_writeBytes, if_pos (by omega), Nat.add_sub_cancel_left]
  case outLen => exact (BitVec.toNat_ofNat _ _).trans (Nat.mod_eq_of_lt (hfits.trans_lt (by decide)))
  case nibCount => exact (BitVec.toNat_ofNat _ _).trans (Nat.mod_eq_of_lt (by omega))

end Sys2Proof.Machine
end

section
/-! The packed stream (44_token_packer.md): its size, the registers that ENCODE leaves to describe it, and the reference
decode that gives the input back. -/

namespace Sys2Proof.Machine

/-! ### The size of a stream (44 R205) -/

theorem length_packedStream (d x : List Byte) :
    (packedStream d x).length = ((streamNibbles (tokenize d x)).length + 1) / 2 :=
  length_packNibbles _

/-- Settles O30: at most 3 nibbles an input byte, two nibbles a stream byte. -/
theorem streamFitsOut : Obligations.StreamFitsOut := by
  intro d x
  have hnibbles := length_streamNibbles_tokenize_le d x
  have hbytes := length_packedStream d x
  exact ⟨hnibbles, by omega, fun hx => by omega, packedStream_fits d⟩

/-! ### The reference decode of a stream (44 R206 to R208) -/

@[simp] theorem streamNibbles_cons (t : Instr) (ts : List Instr) :
    streamNibbles (t :: ts) = tokenNibbles t ++ streamNibbles ts :=
  List.flatMap_cons

theorem decodeNibbles_zero (d : List Byte) (fuel : Nat) (ns : List Nibble) : decodeNibbles d fuel 0 ns = some [] := by
  cases fuel <;> rfl

/-- One round of the decode: the nibbles of a token become the bytes it stands for. -/
theorem decodeNibbles_token {d bs : List Byte} {t : Instr} (ht : t.isToken = true) (hw : t.wellFormed = true)
    (hbs : expandToken d t = some bs) (fuel e : Nat) (rest : List Nibble) :
    decodeNibbles d (fuel + 1) (e + 1) (tokenNibbles t ++ rest) =
      (decodeNibbles d fuel (e + 1 - bs.length) rest).map (bs ++ ·) := by
  simp only [decodeNibbles, decodeToken_tokenNibbles ht hw, hbs]

theorem one_le_length_tokenNibbles {t : Instr} (ht : t.isToken = true) : 1 ≤ (tokenNibbles t).length := by
  cases t with
  | nop | pack | encode => cases ht
  | dictRef _ | rawRun _ _ | shortRunRepeat _ _ | runRepeat _ _ | rawByte _ => exact Nat.le_add_left 1 _

/-- The bytes of a segment are its value, repeated. -/
theorem take_segment {x : List Byte} {g : Segment} (hg : g ∈ segments x) :
    (x.drop g.start).take g.len = List.replicate g.len g.value := by
  obtain ⟨-, -, hend, hequal⟩ := segments_inside hg
  apply List.ext_getElem?
  intro j
  by_cases hj : j < g.len
  · simp [hj, hequal j hj]
  · simp [hj]

/-- The index nibble of a byte found in a dictionary of at most 12 entries refers to that byte. -/
theorem getElem?_indexNibble {d : List Byte} {v : Byte} {k : Nat} (hd : d.length ≤ 12) (hk : dictIndex d v = some k) :
    d[(indexNibble k).toNat]? = some v := by
  obtain ⟨hlt, -⟩ := List.getElem?_eq_some_iff.mp (dictIndex_some hk)
  rw [indexNibble_toNat (by omega), dictIndex_some hk]

theorem take_one_drop {x : List Byte} {pos : Nat} {v : Byte} (hv : x[pos]? = some v) : (x.drop pos).take 1 = [v] := by
  rw [List.take_one, List.head?_drop, hv, Option.toList_some]

/-- A chosen token stands for the next bytes of the input, as many as it counts. -/
theorem expandToken_chooseToken {d x : List Byte} {pos : Nat} {t : Instr} (hd : d.length ≤ 12)
    (h : chooseToken d x (segments x) pos = some t) : expandToken d t = some ((x.drop pos).take t.count) := by
  obtain ⟨v, hv, ⟨g, hg, rfl⟩ | ⟨-, g, k, hg, hk, rfl⟩ |
    ⟨-, -, ⟨-, rfl⟩ | ⟨-, k, hk, rfl⟩ | ⟨-, -, rfl⟩⟩⟩ := chooseToken_cases h
  case inl =>
    obtain ⟨hmem, rfl, -⟩ := qualA_segments.mp hg
    obtain ⟨hseg, -⟩ := qualA_some hg
    rw [expandToken, Instr.count, countField_segAt hseg, take_segment hmem]
  case inr.inl =>
    obtain ⟨hmem, rfl, -⟩ := qualB_segments.mp hg
    obtain ⟨hseg, -⟩ := qualB_some hg
    rw [expandToken, getElem?_indexNibble hd hk, Instr.count, countField_segAt hseg, take_segment hmem]
    rfl
  case inr.inr.inl =>
    obtain ⟨hcount, -⟩ := span_values d x (segments x) pos
    rw [expandToken, Instr.count, hcount]
  case inr.inr.inr.inl =>
    rw [expandToken, getElem?_indexNibble hd hk, Instr.count, take_one_drop hv]
    rfl
  case inr.inr.inr.inr => rw [expandToken, Instr.count, take_one_drop hv]

/-- The nibbles of the tokens from a position on decode to the rest of the input, whatever follows them: the decode
stops by the bytes still wanted (44 R207). -/
theorem decodeNibbles_tokensFrom {d x : List Byte} (hd : d.length ≤ 12) (pad : List Nibble) {n pos fuel : Nat}
    (hpos : pos ≤ x.length) (hn : x.length - pos ≤ n)
    (hw : ∀ t ∈ tokensFrom d x (segments x) n pos, t.wellFormed = true)
    (hfuel : (streamNibbles (tokensFrom d x (segments x) n pos)).length ≤ fuel) :
    decodeNibbles d fuel (x.length - pos) (streamNibbles (tokensFrom d x (segments x) n pos) ++ pad) =
      some (x.drop pos) := by
  induction n generalizing pos fuel with
  | zero => rw [Nat.le_zero.mp hn, decodeNibbles_zero, List.drop_of_length_le (by omega)]
  | succ n ih =>
    cases hc : chooseToken d x (segments x) pos with
    | none =>
      have hend := chooseToken_eq_none hc
      rw [Nat.sub_eq_zero_of_le hend, decodeNibbles_zero, List.drop_of_length_le hend]
    | some t =>
      have ht := chooseToken_isToken hc
      obtain ⟨hone, -, hend⟩ := chooseToken_advance hc
      have htokens : tokensFrom d x (segments x) (n + 1) pos =
          t :: tokensFrom d x (segments x) n (pos + t.count) := by rw [tokensFrom, hc]
      rw [htokens] at hw hfuel ⊢
      rw [streamNibbles_cons, List.length_append] at hfuel
      have hnibble := one_le_length_tokenNibbles ht
      obtain ⟨fuel, rfl⟩ : ∃ k, fuel = k + 1 := ⟨fuel - 1, by omega⟩
      obtain ⟨e, he⟩ : ∃ e, x.length - pos = e + 1 := ⟨x.length - pos - 1, by omega⟩
      have hleft : e + 1 - ((x.drop pos).take t.count).length = x.length - (pos + t.count) := by
        rw [List.length_take, List.length_drop]
        omega
      have hrest := ih hend (by omega) (fun u hu => hw u (List.mem_cons_of_mem t hu))
        (fuel := fuel) (by omega)
      rw [he, streamNibbles_cons, List.append_assoc,
        decodeNibbles_token ht (hw t List.mem_cons_self) (expandToken_chooseToken hd hc), hleft, hrest,
        Option.map_some, ← List.drop_drop, List.take_append_drop]

/-- The reference decode inverts the encoding of any input under a dictionary of at most 12 entries; the pad nibble of
an odd count is never read. -/
theorem referenceDecode_packedStream {d : List Byte} (hd : d.length ≤ 12) (x : List Byte) :
    referenceDecode (packedStream d x) x.length d = some x := by
  have hbytes := length_packedStream d x
  rw [referenceDecode, packedStream, nibblesOf_packNibbles, ← packedStream]
  exact decodeNibbles_tokensFrom hd _ (Nat.zero_le _) (Nat.sub_le _ _)
    (fun t ht => (emittedTokensAreInRange d x t hd ht).1)
    (show (streamNibbles (tokenize d x)).length ≤ _ by omega)

/-! ### ENCODE's results (44 R202 to R204, R208) -/

/-- A valid dictionary has at most 12 entries (42 R146). -/
theorem length_dictionary_le {p : Snapshot} (h : p.dictValid = true) : p.dictionary.length ≤ 12 := by
  obtain ⟨hcount, -⟩ := Bool.and_eq_true_iff.mp h
  exact (List.length_take_le _ _).trans (of_decide_eq_true hcount)

/-- `t` is `s` after an ENCODE without error of the input `x`: the checks held, the stream stands in OUT, and the result
registers describe it. -/
structure EncodesInput (s t : State) (x : List Byte) : Prop where
  inputLen : s.snap.colLen.toNat ≤ 8192
  dictionary : s.snap.dictionary.length ≤ 12
  input : s.mem.readBytes Config.colBase s.snap.colLen.toNat = .ok x
  length : x.length = s.snap.colLen.toNat
  outLen : t.outLen.toNat = (packedStream s.snap.dictionary x).length
  output : t.mem.readBytes Config.outBase t.outLen.toNat = .ok (packedStream s.snap.dictionary x)
  nibCount : t.nibCount.toNat = (streamNibbles (tokenize s.snap.dictionary x)).length
  compress : t.status.compress = decide ((packedStream s.snap.dictionary x).length < x.length)

/-- An ENCODE that completes without error has passed its checks and encoded the input it read. -/
theorem exec_encode_encodesInput {s t : State} (h : exec .encode s = .next t) (hok : t.status.errCode = .none) :
    ∃ x, EncodesInput s t x := by
  obtain ⟨-, rfl⟩ | ⟨-, -, rfl⟩ | ⟨hlen, hdict, x, hx, -⟩ := execEncode_next h
  case inl => cases hok
  case inr.inl => cases hok
  case inr.inr =>
    obtain ⟨hxlen, hread⟩ := (memory_readBytes_ok_iff ..).mp hx
    obtain ⟨u, hu, hstream, hout, hnib, hstatus, -⟩ := encodeWritesThePackedStream s x (not_lt.mp hlen) hdict hxlen
      (fun k hk => hread k (hxlen ▸ hk))
    obtain rfl : t = u := Host.Outcome.next.inj (h.symm.trans hu)
    exact ⟨x, {
      inputLen := not_lt.mp hlen
      dictionary := length_dictionary_le hdict
      input := hx
      length := hxlen
      outLen := hout
      output := (memory_readBytes_ok_iff ..).mpr ⟨hout.symm, fun k hk => hstream k (hout ▸ hk)⟩
      nibCount := hnib
      compress := by rw [hstatus] }⟩

/-- Settles O35: the registers hold the counts of the stream, whose bytes are pairs of its nibbles. -/
theorem encodeResultRegisters : Obligations.EncodeResultRegisters := by
  intro s t h hok
  obtain ⟨x, hx⟩ := exec_encode_encodesInput h hok
  exact ⟨by rw [hx.outLen, hx.nibCount, length_packedStream], by rw [hx.compress, hx.outLen, hx.length]⟩

/-- Settles O36: OUT holds the packed stream of the input, which the reference decode inverts. -/
theorem encodeRoundTrip : Obligations.EncodeRoundTrip := by
  intro s t h hok
  obtain ⟨x, hx⟩ := exec_encode_encodesInput h hok
  exact ⟨hx.inputLen, x, _, hx.input, hx.output, hx.length ▸ referenceDecode_packedStream hx.dictionary x⟩

end Sys2Proof.Machine
end

section
/-! The host's dictionary (48_host_side R223, R224): its values by frequency. -/

namespace Sys2Proof.Machine

/-! ### The observed values (48_host_side R222) -/

theorem mem_firstEncounters {xs : List Byte} {v : Byte} : v ∈ firstEncounters xs ↔ v ∈ xs := by
  induction xs with
  | nil => rfl
  | cons x xs ih =>
    simp only [firstEncounters, List.mem_cons, List.mem_filter, ih, decide_eq_true_eq]
    tauto

/-- The values in the order of their first occurrence. -/
theorem firstEncounters_pairwise (xs : List Byte) :
    (firstEncounters xs).Pairwise fun v w => xs.idxOf v < xs.idxOf w := by
  induction xs with
  | nil => exact .nil
  | cons x xs ih =>
    refine List.pairwise_cons.mpr ⟨fun w hw => ?head, ?tail⟩
    case head =>
      obtain ⟨-, hne⟩ := List.mem_filter.mp hw
      rw [List.idxOf_cons_self, List.idxOf_cons_ne _ (Ne.symm (of_decide_eq_true hne))]
      exact Nat.succ_pos _
    case tail =>
      refine (ih.filter _).imp_of_mem fun hv hw hlt => ?_
      obtain ⟨-, hvx⟩ := List.mem_filter.mp hv
      obtain ⟨-, hwx⟩ := List.mem_filter.mp hw
      rw [List.idxOf_cons_ne _ (Ne.symm (of_decide_eq_true hvx)), List.idxOf_cons_ne _ (Ne.symm (of_decide_eq_true hwx))]
      exact Nat.succ_lt_succ hlt

theorem firstEncounters_nodup (xs : List Byte) : (firstEncounters xs).Nodup :=
  (firstEncounters_pairwise xs).imp fun hlt => by
    rintro rfl
    exact Nat.lt_irrefl _ hlt

/-! ### The order by frequency (48_host_side R223) -/

/-- The order of R223: the higher count first, of one count the value met first. -/
def ComesBefore (xs : List Byte) (v w : Byte) : Prop :=
  xs.count w < xs.count v ∨ (xs.count w = xs.count v ∧ xs.idxOf v < xs.idxOf w)

theorem ComesBefore.trans {xs : List Byte} {u v w : Byte} (h : ComesBefore xs u v) (h' : ComesBefore xs v w) :
    ComesBefore xs u w := by
  unfold ComesBefore at *
  omega

theorem ComesBefore.ne {xs : List Byte} {v w : Byte} (h : ComesBefore xs v w) : v ≠ w := by
  rintro rfl
  unfold ComesBefore at h
  omega

theorem insertByCount_perm (count : Byte → Nat) (v : Byte) (l : List Byte) : (insertByCount count v l).Perm (v :: l) := by
  induction l with
  | nil => exact .refl _
  | cons w ws ih =>
    unfold insertByCount
    split
    next => exact (ih.cons w).trans (.swap v w ws)
    next => exact .refl _

/-- A value met after all of the list goes to its place in the order. -/
theorem insertByCount_pairwise {xs : List Byte} {v : Byte} {l : List Byte} (hl : l.Pairwise (ComesBefore xs))
    (hv : ∀ w ∈ l, xs.idxOf w < xs.idxOf v) : (insertByCount (fun w => xs.count w) v l).Pairwise (ComesBefore xs) := by
  induction l with
  | nil => exact List.pairwise_singleton _ _
  | cons w ws ih =>
    obtain ⟨hw, hws⟩ := List.pairwise_cons.mp hl
    unfold insertByCount
    split
    next hle =>
      refine List.pairwise_cons.mpr ⟨fun u hu => ?_, ih hws fun u hu => hv u (List.mem_cons_of_mem w hu)⟩
      rcases List.mem_cons.mp ((insertByCount_perm _ v ws).mem_iff.mp hu) with rfl | hu
      · exact hle.lt_or_eq.imp id fun heq => ⟨heq, hv w List.mem_cons_self⟩
      · exact hw u hu
    next hlt =>
      have hvw : ComesBefore xs v w := .inl (not_le.mp hlt)
      refine List.pairwise_cons.mpr ⟨fun u hu => ?_, hl⟩
      rcases List.mem_cons.mp hu with rfl | hu
      · exact hvw
      · exact hvw.trans (hw u hu)

/-- Values inserted in the order of their first occurrence, into a list of values met before them, stand in the order
by frequency. -/
theorem foldl_insertByCount {xs : List Byte} {vs acc : List Byte} (hacc : acc.Pairwise (ComesBefore xs))
    (hvs : vs.Pairwise fun v w => xs.idxOf v < xs.idxOf w) (hnew : ∀ v ∈ vs, ∀ w ∈ acc, xs.idxOf w < xs.idxOf v) :
    (vs.foldl (fun acc v => insertByCount (fun w => xs.count w) v acc) acc).Pairwise (ComesBefore xs) ∧
      (vs.foldl (fun acc v => insertByCount (fun w => xs.count w) v acc) acc).Perm (acc ++ vs) := by
  induction vs generalizing acc with
  | nil => exact ⟨hacc, by simp⟩
  | cons v vs ih =>
    obtain ⟨hv, hvs⟩ := List.pairwise_cons.mp hvs
    have hperm := insertByCount_perm (fun w => xs.count w) v acc
    obtain ⟨hsorted, hall⟩ := ih (insertByCount_pairwise hacc (hnew v List.mem_cons_self)) hvs fun u hu w hw => by
      rcases List.mem_cons.mp (hperm.mem_iff.mp hw) with rfl | hw
      · exact hv u hu
      · exact hnew u (List.mem_cons_of_mem v hu) w hw
    exact ⟨hsorted, hall.trans ((hperm.append_right vs).trans List.perm_middle.symm)⟩

theorem byFrequency_pairwise (xs : List Byte) : (byFrequency xs).Pairwise (ComesBefore xs) :=
  (foldl_insertByCount .nil (firstEncounters_pairwise xs) (by simp)).1

theorem byFrequency_perm (xs : List Byte) : (byFrequency xs).Perm (firstEncounters xs) :=
  (foldl_insertByCount .nil (firstEncounters_pairwise xs) (by simp)).2

theorem mem_byFrequency {xs : List Byte} {v : Byte} : v ∈ byFrequency xs ↔ v ∈ xs :=
  (byFrequency_perm xs).mem_iff.trans mem_firstEncounters

/-- There are as many values by frequency as distinct observed values. -/
theorem length_byFrequency (xs : List Byte) : (byFrequency xs).length = xs.dedup.length := by
  have hperm : (firstEncounters xs).Perm xs.dedup :=
    (List.perm_ext_iff_of_nodup (firstEncounters_nodup xs) xs.nodup_dedup).mpr fun v => by
      rw [mem_firstEncounters, List.mem_dedup]
  exact (byFrequency_perm xs).length_eq.trans hperm.length_eq

/-! ### The dictionary (48_host_side R223, R224) -/

theorem buildDictionary_pairwise (xs : List Byte) : (buildDictionary xs).Pairwise (ComesBefore xs) :=
  (byFrequency_pairwise xs).sublist (List.take_sublist _ _)

theorem buildDictionary_nodup (xs : List Byte) : (buildDictionary xs).Nodup :=
  (buildDictionary_pairwise xs).imp ComesBefore.ne

theorem length_buildDictionary (xs : List Byte) : (buildDictionary xs).length = min 12 xs.dedup.length := by
  rw [buildDictionary, List.length_take, length_byFrequency]

/-- Every dictionary value comes before every observed value left out. -/
theorem buildDictionary_comesBefore {xs : List Byte} {v w : Byte} (hv : v ∈ buildDictionary xs) (hw : w ∈ xs)
    (hout : w ∉ buildDictionary xs) : ComesBefore xs v w := by
  have hsplit : byFrequency xs = buildDictionary xs ++ (byFrequency xs).drop Config.dictMax :=
    (List.take_append_drop _ _).symm
  have hsorted := byFrequency_pairwise xs
  have hmem := mem_byFrequency.mpr hw
  rw [hsplit] at hsorted hmem
  obtain ⟨-, -, hcross⟩ := List.pairwise_append.mp hsorted
  exact hcross v hv w ((List.mem_append.mp hmem).resolve_left hout)

/-- Settles O55: the values by frequency are sorted and are the distinct observed ones; the dictionary is their start. -/
theorem dictionaryIsByFrequency : Obligations.DictionaryIsByFrequency := by
  intro xs
  exact ⟨length_buildDictionary xs, buildDictionary_nodup xs,
    fun _ hv => mem_byFrequency.mp (List.mem_of_mem_take hv), buildDictionary_pairwise xs,
    fun _ hv _ hw hout => buildDictionary_comesBefore hv hw hout⟩

end Sys2Proof.Machine
end

section
/-! The sprite record (48_host_side R229 to R233): directory entries, offsets and the places of the payloads. -/

namespace Sys2Proof.Machine

/-! ### A directory entry (48_host_side R230) -/

/-- The entry's number: below bit `k` the low part of the offset, the flag at bit `k`, above it the rest. -/
theorem directoryEntry_toNat (dir : Config.Directory) (flag : Bool) {offset : Nat} (h : offset < 2 ^ 15) :
    (directoryEntry dir flag offset).toNat =
      offset % 2 ^ dir.flagBit.val + 2 ^ dir.flagBit.val * (flag.toNat + 2 * (offset / 2 ^ dir.flagBit.val)) := by
  have hk : dir.flagBit.val < 16 := dir.flagBit.isLt
  rw [directoryEntry, BitVec.toNat_ofNat]
  generalize dir.flagBit.val = k at hk ⊢
  have hpow : (2 : Nat) ^ 15 = 2 ^ k * 2 ^ (15 - k) := by rw [← pow_add]; congr 1; omega
  have hlow : offset % 2 ^ k < 2 ^ k := Nat.mod_lt _ (Nat.two_pow_pos k)
  have hhigh : offset / 2 ^ k < 2 ^ (15 - k) := Nat.div_lt_of_lt_mul (hpow ▸ h)
  have hflag : flag.toNat ≤ 1 := flag.toNat_le
  have hsum : offset % 2 ^ k + flag.toNat * 2 ^ k + offset / 2 ^ k * 2 ^ (k + 1) =
      offset % 2 ^ k + 2 ^ k * (flag.toNat + 2 * (offset / 2 ^ k)) := by ring
  have hfits : offset % 2 ^ k + 2 ^ k * (flag.toNat + 2 * (offset / 2 ^ k)) < 2 ^ 16 := by
    calc offset % 2 ^ k + 2 ^ k * (flag.toNat + 2 * (offset / 2 ^ k))
        < 2 ^ k * (flag.toNat + 2 * (offset / 2 ^ k) + 1) := by rw [Nat.mul_succ]; omega
      _ ≤ 2 ^ k * (2 * 2 ^ (15 - k)) := Nat.mul_le_mul_left _ (by omega)
      _ = 2 ^ 16 := by rw [Nat.mul_left_comm, ← hpow]; rfl
  rw [hsum, Nat.mod_eq_of_lt hfits]

/-- Settles O57: the entry's number divided at the flag's bit. -/
theorem directoryEntryRoundTrip : Obligations.DirectoryEntryRoundTrip := by
  intro dir flag offset h
  have hpos : 0 < 2 ^ dir.flagBit.val := Nat.two_pow_pos _
  have hlow : offset % 2 ^ dir.flagBit.val < 2 ^ dir.flagBit.val := Nat.mod_lt _ hpos
  have hflag : flag.toNat < 2 := flag.toNat_lt
  have hdiv : (directoryEntry dir flag offset).toNat / 2 ^ dir.flagBit.val =
      flag.toNat + 2 * (offset / 2 ^ dir.flagBit.val) := by
    rw [directoryEntry_toNat dir flag h, Nat.add_mul_div_left _ _ hpos, Nat.div_eq_of_lt hlow, Nat.zero_add]
  have hmod : (directoryEntry dir flag offset).toNat % 2 ^ dir.flagBit.val = offset % 2 ^ dir.flagBit.val := by
    rw [directoryEntry_toNat dir flag h, Nat.add_mul_mod_self_left, Nat.mod_mod]
  constructor
  · rw [BitVec.getLsbD, Nat.testBit_eq_decide_div_mod_eq, hdiv, Nat.add_mul_mod_self_left]
    cases flag <;> rfl
  · rw [hmod, pow_succ, ← Nat.div_div_eq_div_mul, hdiv, Nat.add_mul_div_left _ _ Nat.two_pos, Nat.div_eq_of_lt hflag,
      Nat.zero_add, Nat.mod_add_div']

/-! ### Offsets (48_host_side R231, R233) -/

/-- The number of payload bytes. -/
def blobLength (ps : List (Bool × List Byte)) : Nat := (ps.map fun q => q.2.length).sum

@[simp] theorem blobLength_cons (p : Bool × List Byte) (ps : List (Bool × List Byte)) :
    blobLength (p :: ps) = p.2.length + blobLength ps := List.sum_cons

theorem blobLength_append (ps qs : List (Bool × List Byte)) : blobLength (ps ++ qs) = blobLength ps + blobLength qs := by
  simp [blobLength]

theorem length_flatMap_payloads (ps : List (Bool × List Byte)) : (ps.flatMap (·.2)).length = blobLength ps :=
  List.length_flatMap

theorem offsetsFrom_append (base : Nat) (ps qs : List (Bool × List Byte)) :
    offsetsFrom base (ps ++ qs) = offsetsFrom base ps ++ offsetsFrom (base + blobLength ps) qs := by
  induction ps generalizing base with
  | nil => rfl
  | cons p ps ih => simp only [List.cons_append, offsetsFrom, ih, blobLength_cons, Nat.add_assoc]

theorem base_le_of_mem_offsetsFrom {base o : Nat} {ps : List (Bool × List Byte)} (h : o ∈ offsetsFrom base ps) :
    base ≤ o := by
  induction ps generalizing base with
  | nil => cases h
  | cons p ps ih =>
    rcases List.mem_cons.mp h with rfl | h
    · exact Nat.le_refl _
    · exact (Nat.le_add_right _ _).trans (ih h)

theorem offsetsFrom_pairwise (base : Nat) (ps : List (Bool × List Byte)) : (offsetsFrom base ps).Pairwise (· ≤ ·) := by
  induction ps generalizing base with
  | nil => exact .nil
  | cons p ps ih =>
    exact List.pairwise_cons.mpr
      ⟨fun o ho => (Nat.le_add_right _ _).trans (base_le_of_mem_offsetsFrom ho), ih _⟩

/-- The last payload's offset: the base and the payloads before it. -/
theorem offsetsFrom_getLast? (base : Nat) (ps : List (Bool × List Byte)) (p : Bool × List Byte) :
    (offsetsFrom base (ps ++ [p])).getLast? = some (base + blobLength ps) := by
  rw [offsetsFrom_append]
  exact List.getLast?_concat

/-- Settles O56: each offset adds a length to the one before, from the origin's base. -/
theorem offsetsCoverTheBlob : Obligations.OffsetsCoverTheBlob := by
  intro dir ps p
  have hlast := offsetsFrom_getLast? (offsetBase dir (ps ++ [p]).length) ps p
  have hblob : blobLength (ps ++ [p]) = blobLength ps + p.2.length := blobLength_append ps [p]
  refine ⟨offsetsFrom_pairwise _ _, fun hdir => hlast.trans ?_, fun hdir => hlast.trans ?_⟩
  · show _ = some (blobLength (ps ++ [p]) - _)
    simp only [offsetBase, hdir, Nat.zero_add, hblob, Nat.add_sub_cancel]
  · show _ = some (2 + 2 * (ps.length + 1) + blobLength (ps ++ [p]) - _)
    simp only [offsetBase, hdir, hblob, List.length_append, List.length_singleton, ← Nat.add_assoc, Nat.add_sub_cancel]

/-! ### The record (48_host_side R229) -/

theorem length_entryBytes (dir : Config.Directory) (e : BitVec 16) : (entryBytes dir e).length = 2 := by
  unfold entryBytes
  split <;> rfl

/-- The directory bytes of payloads whose first stands at `base`. -/
def directoryFrom (dir : Config.Directory) (base : Nat) (ps : List (Bool × List Byte)) : List Byte :=
  directoryBytes dir ps (offsetsFrom base ps)

@[simp] theorem directoryFrom_cons (dir : Config.Directory) (base : Nat) (p : Bool × List Byte)
    (ps : List (Bool × List Byte)) : directoryFrom dir base (p :: ps) =
      entryBytes dir (directoryEntry dir p.1 base) ++ directoryFrom dir (base + p.2.length) ps := rfl

theorem directoryFrom_append (dir : Config.Directory) (base : Nat) (ps qs : List (Bool × List Byte)) :
    directoryFrom dir base (ps ++ qs) = directoryFrom dir base ps ++ directoryFrom dir (base + blobLength ps) qs := by
  induction ps generalizing base with
  | nil => rfl
  | cons p ps ih =>
    simp only [List.cons_append, directoryFrom_cons, ih, List.append_assoc, blobLength_cons, Nat.add_assoc]

theorem length_directoryFrom (dir : Config.Directory) (base : Nat) (ps : List (Bool × List Byte)) :
    (directoryFrom dir base ps).length = 2 * ps.length := by
  induction ps generalizing base with
  | nil => rfl
  | cons p ps ih =>
    rw [directoryFrom_cons, List.length_append, length_entryBytes, ih, List.length_cons]
    omega

/-- A record that is made has every offset below 2^15, and is header, directory and payloads. -/
theorem spriteRecord_ok {dir : Config.Directory} {p : Sprite} {ps : List (Bool × List Byte)} {r : List Byte}
    (h : spriteRecord dir p ps = .ok r) :
    (∀ o ∈ offsetsFrom (offsetBase dir ps.length) ps, o < 2 ^ 15) ∧
      r = [p.width, p.height] ++ directoryFrom dir (offsetBase dir ps.length) ps ++ ps.flatMap (·.2) := by
  unfold spriteRecord at h
  simp only at h
  split at h
  next hall =>
    cases h
    exact ⟨fun o ho => of_decide_eq_true (List.all_eq_true.mp hall o ho), rfl⟩
  next => cases h

/-- A record of `F` frames around one of them: what stands before its entry, the entry, what stands between the entry and
the payload, the payload, the rest. -/
theorem spriteRecord_around {dir : Config.Directory} {p : Sprite} {pre post : List (Bool × List Byte)}
    {q : Bool × List Byte} {r : List Byte} (h : spriteRecord dir p (pre ++ q :: post) = .ok r) :
    offsetBase dir (pre ++ q :: post).length + blobLength pre < 2 ^ 15 ∧
    ∃ a b c : List Byte, a.length = 2 + 2 * pre.length ∧
      a.length + 2 + b.length = 2 + 2 * (pre ++ q :: post).length + blobLength pre ∧
      r = a ++ entryBytes dir (directoryEntry dir q.1 (offsetBase dir (pre ++ q :: post).length + blobLength pre)) ++ b ++
        q.2 ++ c := by
  obtain ⟨hsmall, hr⟩ := spriteRecord_ok h
  generalize offsetBase dir (pre ++ q :: post).length = base at hsmall hr ⊢
  refine ⟨hsmall _ (by simp [offsetsFrom_append, offsetsFrom]), [p.width, p.height] ++ directoryFrom dir base pre,
    directoryFrom dir (base + blobLength pre + q.2.length) post ++ pre.flatMap (·.2), post.flatMap (·.2), ?_, ?_, ?_⟩
  · simp only [List.length_append, length_directoryFrom, List.length_cons, List.length_nil]
  · simp only [List.length_append, length_directoryFrom, length_flatMap_payloads, List.length_cons, List.length_nil]
    omega
  · simp only [hr, directoryFrom_append, directoryFrom_cons, List.flatMap_append, List.flatMap_cons, List.append_assoc]

/-- Two bytes stand where the bytes before them end. -/
theorem getElem?_append_two {a : List Byte} {n : Nat} (x y : Byte) (rest : List Byte) (h : a.length = n) :
    (a ++ ([x, y] ++ rest))[n]? = some x ∧ (a ++ ([x, y] ++ rest))[n + 1]? = some y := by
  subst h
  exact ⟨by simp, by simp⟩

/-- Settles O58: the record around the frame that is asked for. -/
theorem recordPlacesPayloads : Obligations.RecordPlacesPayloads := by
  intro dir p ps r h
  obtain ⟨-, hr⟩ := spriteRecord_ok h
  refine ⟨by rw [hr]; rfl, by rw [hr]; rfl, ?length, fun k q hk => ?place⟩
  case length =>
    rw [hr]
    simp only [List.length_append, length_directoryFrom, length_flatMap_payloads, List.length_cons, List.length_nil]
    rfl
  case place =>
    obtain ⟨hlt, hq⟩ := List.getElem?_eq_some_iff.mp hk
    have hsplit : ps = ps.take k ++ q :: ps.drop (k + 1) := by
      rw [← hq, List.getElem_cons_drop, List.take_append_drop]
    obtain ⟨hsmall, a, b, c, ha, hb, hr⟩ := spriteRecord_around (hsplit ▸ h)
    rw [← hsplit] at hsmall hb hr
    rw [List.length_take_of_le hlt.le] at ha
    intro before off
    have hoff : offsetBase dir ps.length + blobLength (ps.take k) = off := by
      unfold offsetBase off
      cases dir.origin with
      | blob => exact Nat.zero_add _
      | record => rfl
    rw [hoff] at hsmall hr
    have hentry := fun x y => getElem?_append_two x y (b ++ (q.2 ++ c)) ha
    rw [hr, show 3 + 2 * k = 2 + 2 * k + 1 by omega]
    refine ⟨hsmall, fun hdir => ?little, fun hdir => ?big, ?payload⟩
    case little | big =>
      simp only [entryBytes, hdir, List.append_assoc]
      exact hentry _ _
    case payload =>
      have hbefore : a.length + (2 + b.length) = 2 + (2 * ps.length + before) := by
        rw [← Nat.add_assoc, hb, Nat.add_assoc]
        rfl
      rw [List.append_assoc (bs := q.2), List.drop_left' (by simpa [length_entryBytes, Nat.add_assoc] using hbefore),
        List.take_left]

end Sys2Proof.Machine
end

section
/-! The host's run on the NSE (48_host_side R227) against the wire format: phase by phase it answers what the pure
functions answer. -/

namespace Sys2Proof.Machine

/-! ### Actions that answer as a pure value does -/

theorem bind_error {α β : Type} {x : Except HostError α} {f : α → Except HostError β} {e : HostError}
    (h : x = .error e) : (x >>= f) = .error e := by
  rw [h]
  rfl

/-- From `s`, whatever the host's fields hold, the host's action answers `r`: its value, in a state of `P`, or its
error. -/
def Answers {β : Type} (P : State → Prop) (f : State → Except HostError (β × State)) (s : State)
    (r : Except HostError β) : Prop :=
  (∃ b u, r = .ok b ∧ P u ∧ Gives f s b u) ∨ ∃ e, r = .error e ∧ ∀ h, f (s.withHost h) = .error e

section
variable {α β : Type} {P P' : State → Prop} {s : State}

theorem Answers.of_gives {f : State → Except HostError (β × State)} {b : β} {u : State} (hu : P u) (h : Gives f s b u) :
    Answers P f s (.ok b) :=
  .inl ⟨b, u, rfl, hu, h⟩

theorem Answers.mono {f : State → Except HostError (β × State)} {r : Except HostError β} (h : Answers P f s r)
    (hP : ∀ u, P u → P' u) : Answers P' f s r :=
  h.imp_left fun ⟨b, u, hr, hu, hf⟩ => ⟨b, u, hr, hP u hu, hf⟩

/-- A value found without an access. -/
theorem Answers.of_pure (hs : P s) (r : Except HostError β) : Answers P (fun t => r.map (·, t)) s r := by
  cases r with
  | ok b => exact .of_gives hs fun h => ⟨h, rfl⟩
  | error e => exact .inr ⟨e, rfl, fun _ => rfl⟩

/-- One action after another. -/
theorem Answers.bind {f : State → Except HostError (α × State)} {g : α → State → Except HostError (β × State)}
    {r : Except HostError α} {k : α → Except HostError β} (hf : Answers P f s r)
    (hg : ∀ a t, r = .ok a → P t → Answers P' (g a) t (k a)) :
    Answers P' (fun t => f t >>= fun x => g x.1 x.2) s (r >>= k) := by
  obtain ⟨a, t, rfl, ht, hfa⟩ | ⟨e, rfl, hfe⟩ := hf
  · obtain ⟨b, u, hk, hu, hgb⟩ | ⟨e, hk, hge⟩ := hg a t rfl ht
    · refine .inl ⟨b, u, hk, hu, fun h => ?_⟩
      obtain ⟨h₁, e₁⟩ := hfa h
      obtain ⟨h₂, e₂⟩ := hgb h₁
      exact ⟨h₂, (bind_ok e₁).trans e₂⟩
    · refine .inr ⟨e, hk, fun h => ?_⟩
      obtain ⟨h₁, e₁⟩ := hfa h
      exact (bind_ok e₁).trans (hge h₁)
  · exact .inr ⟨e, rfl, fun h => bind_error (hfe h)⟩

/-- An action whose value is changed by `g` at its end. -/
theorem Answers.map {f : State → Except HostError (α × State)} {r : Except HostError α} (hf : Answers P f s r)
    (g : α → β) : Answers P (fun t => f t >>= fun x => .ok (g x.1, x.2)) s (r.map g) := by
  have hbind := hf.bind (g := fun a t => .ok (g a, t)) fun a t _ ht => Answers.of_pure ht (.ok (g a))
  cases r <;> exact hbind

/-- Accesses that read nothing, before an action. -/
theorem Answers.after_takes {ops : List HostOp} {t : State} {f : State → Except HostError (β × State)}
    {r : Except HostError β} (h : Takes ops s t) (hf : Answers P f t r) :
    Answers P (fun u => accesses ops u >>= f) s r := by
  obtain ⟨b, u, hr, hu, hfb⟩ | ⟨e, hr, hfe⟩ := hf
  · refine .inl ⟨b, u, hr, hu, fun k => ?_⟩
    obtain ⟨k₁, e₁⟩ := h k
    obtain ⟨k₂, e₂⟩ := hfb k₁
    exact ⟨k₂, (bind_ok e₁).trans e₂⟩
  · refine .inr ⟨e, hr, fun k => ?_⟩
    obtain ⟨k₁, e₁⟩ := h k
    exact (bind_ok e₁).trans (hfe k₁)

/-- What an action answers it answers from the state itself. -/
theorem Answers.eq {f : State → Except HostError (β × State)} {r : Except HostError β} (h : Answers P f s r) :
    (f s).map Prod.fst = r := by
  have hself : s.withHost s = s := rfl
  obtain ⟨b, u, rfl, -, hf⟩ | ⟨e, rfl, hf⟩ := h
  · obtain ⟨k, hk⟩ := hf s
    rw [hself] at hk
    rw [hk]
    rfl
  · have hk := hf s
    rw [hself] at hk
    rw [hk]
    rfl

/-- Actions on the items of a list in turn. -/
theorem Answers.eachInTurn {f : α → State → Except HostError (β × State)} {g : α → Except HostError β} {Q : α → Prop}
    (step : ∀ a t, P t → Q a → Answers P (f a) t (g a)) {l : List α} (hs : P s) (hl : ∀ a ∈ l, Q a) :
    Answers P (Machine.eachInTurn f l) s (l.mapM g) :=
  eachInTurn_cases step l hs hl

end

/-- Each item of a list made by `g` is one that `g` made. -/
theorem forall_mem_of_mapM {α β : Type} {g : α → Except HostError β} {Q : β → Prop} (h : ∀ a b, g a = .ok b → Q b)
    {l : List α} {bs : List β} (hl : l.mapM g = .ok bs) : ∀ b ∈ bs, Q b := by
  induction l generalizing bs with
  | nil => cases hl; simp
  | cons a l ih =>
    rw [List.mapM_cons] at hl
    cases ha : g a with
    | error e => rw [ha] at hl; cases hl
    | ok b =>
      rw [bind_ok ha] at hl
      cases hrest : l.mapM g with
      | error e => rw [hrest] at hl; cases hl
      | ok cs =>
        rw [bind_ok hrest] at hl
        cases hl
        exact List.forall_mem_cons.mpr ⟨h a b ha, ih hrest⟩

/-! ### Phase 1 (48_host_side R222) -/

section
variable (fgNormal fgMask : Byte)

/-- A frame's pixels beside its PackedColumn array, as phase 1 keeps them. -/
def packedFrame (p : Sprite) (pixels : List Byte) : Except HostError (List Byte × List Byte) :=
  (packFrame fgNormal fgMask p pixels).map (pixels, ·)

/-- A sprite's frames and their arrays, as phase 1 keeps them. -/
def packedSprite (p : Sprite) : Except HostError (Sprite × List (List Byte × List Byte)) :=
  (p.frames.mapM (packedFrame fgNormal fgMask p)).map (p, ·)

theorem packFrames_eq (p : Sprite) (fs : List (List Byte)) :
    packFrames fgNormal fgMask p fs = (fs.mapM (packedFrame fgNormal fgMask p)).map (List.map Prod.snd) := by
  induction fs with
  | nil => rfl
  | cons f fs ih =>
    rw [List.mapM_cons, packFrames, ih, packedFrame]
    cases packFrame fgNormal fgMask p f <;> cases fs.mapM (packedFrame fgNormal fgMask p) <;> rfl

theorem packSprites_eq (ps : List Sprite) :
    packSprites fgNormal fgMask ps = (ps.mapM (packedSprite fgNormal fgMask)).map arraysOf := by
  induction ps with
  | nil => rfl
  | cons p ps ih =>
    rw [List.mapM_cons, packSprites, ih, packFrames_eq, packedSprite]
    cases p.frames.mapM (packedFrame fgNormal fgMask p) <;> cases ps.mapM (packedSprite fgNormal fgMask) <;> rfl

/-- The array of a packed frame is what PACK gives for its pixels. -/
theorem packedFrame_ok {p : Sprite} {pixels : List Byte} {frame : List Byte × List Byte}
    (h : packedFrame fgNormal fgMask p pixels = .ok frame) : packFrame fgNormal fgMask p frame.1 = .ok frame.2 := by
  unfold packedFrame at h
  cases hx : packFrame fgNormal fgMask p pixels with
  | error e => rw [hx] at h; cases h
  | ok x => rw [hx] at h; cases h; exact hx

/-- A sprite as phase 1 keeps it: each frame's array is what PACK gives for its pixels. -/
def Packed (q : Sprite × List (List Byte × List Byte)) : Prop :=
  ∀ frame ∈ q.2, packFrame fgNormal fgMask q.1 frame.1 = .ok frame.2

theorem packedSprite_ok {p : Sprite} {q : Sprite × List (List Byte × List Byte)}
    (h : packedSprite fgNormal fgMask p = .ok q) : Packed fgNormal fgMask q := by
  unfold packedSprite at h
  cases hf : p.frames.mapM (packedFrame fgNormal fgMask p) with
  | error e => rw [hf] at h; cases h
  | ok frames =>
    rw [hf] at h
    cases h
    exact forall_mem_of_mapM (fun _ _ => packedFrame_ok fgNormal fgMask) hf

theorem packFrame_ok {p : Sprite} {pixels x : List Byte} (h : packFrame fgNormal fgMask p pixels = .ok x) :
    x = packColumns p.width.toNat p.height.toNat (foreground fgNormal fgMask p) pixels := by
  unfold packFrame at h
  split at h
  next => cases h
  next => cases h; rfl

/-- A PackedColumn array fits COL (41 R135). -/
theorem length_packFrame {p : Sprite} {pixels x : List Byte} (h : packFrame fgNormal fgMask p pixels = .ok x) :
    x.length ≤ Config.colSize := by
  obtain ⟨hcols, -⟩ := frame_bounds p.width p.height
  rw [packFrame_ok fgNormal fgMask h, length_packColumns]
  exact hcols.trans (by decide)

/-- `u` is outside the window with the dictionary of `s`, and a frame's array `x` stands in COL. -/
structure HoldsColumns (s : State) (x : List Byte) (u : State) : Prop where
  quiet : u.Quiet
  dictionary : SameDictionary s u
  colLen : u.colLen = BitVec.ofNat 32 x.length
  columns : u.mem.readBytes Config.colBase x.length = .ok x

/-- A PACK on the NSE answers as the wire format packs, and leaves the array in COL. -/
theorem answers_packOnNse (p : Sprite) (pixels : List Byte) {s : State} (hs : s.Quiet) :
    Answers (fun u => ∃ x, packFrame fgNormal fgMask p pixels = .ok x ∧ HoldsColumns s x u)
      (packOnNse (foreground fgNormal fgMask p) p pixels) s (packFrame fgNormal fgMask p pixels) := by
  rcases packOnNse_cases (foreground fgNormal fgMask p) p pixels hs with
    ⟨hshape, u, hu, hdict, hlen, hcol, hgives⟩ | ⟨hshape, herror⟩
  · have hpack : packFrame fgNormal fgMask p pixels = .ok _ := if_neg (not_not.mpr hshape)
    rw [hpack]
    exact .of_gives ⟨_, rfl, hu, hdict, hlen, hcol⟩ hgives
  · exact .inr ⟨_, if_pos hshape, herror⟩

theorem answers_packFrameOnNse (p : Sprite) (pixels : List Byte) {s : State} (hs : s.Quiet) :
    Answers State.Quiet (packFrameOnNse (foreground fgNormal fgMask p) p pixels) s
      (packedFrame fgNormal fgMask p pixels) :=
  ((answers_packOnNse fgNormal fgMask p pixels hs).mono fun _ ⟨_, _, hu⟩ => hu.quiet).map (pixels, ·)

theorem answers_packSpriteOnNse (p : Sprite) {s : State} (hs : s.Quiet) :
    Answers State.Quiet (packSpriteOnNse fgNormal fgMask p) s (packedSprite fgNormal fgMask p) :=
  (Answers.eachInTurn (Q := fun _ => True) (fun pixels _ ht _ => answers_packFrameOnNse fgNormal fgMask p pixels ht) hs
    fun _ _ => trivial).map (p, ·)

/-! ### Phase 2 (48_host_side R225, R228) -/

/-- `s` is outside the window, and a command accepted in it has the valid dictionary `d`. -/
structure Loaded (d : List Byte) (s : State) : Prop where
  quiet : s.Quiet
  dictionary : (s.capture 2).dictionary = d
  valid : (s.capture 2).dictValid = true

theorem Loaded.congr {d : List Byte} {s u : State} (hs : Loaded d s) (hu : u.Quiet) (hdict : SameDictionary s u) :
    Loaded d u := by
  obtain ⟨hregs, hcount⟩ := hdict
  have hsame : (u.capture 2).dictionary = (s.capture 2).dictionary := by
    unfold Snapshot.dictionary Snapshot.count
    rw [capture_dict, capture_dictCnt, hregs, hcount]
    rfl
  refine ⟨hu, hsame.trans hs.dictionary, ?_⟩
  have hvalid := hs.valid
  unfold Snapshot.dictValid Snapshot.count at hvalid ⊢
  rw [hsame, capture_dictCnt, hcount]
  exact hvalid

/-- The load of a dictionary of at most 12 distinct values. -/
theorem takes_loadDictionary_loaded {d : List Byte} {s : State} (hs : s.Quiet) (hlen : d.length ≤ 12)
    (hnodup : d.Nodup) : ∃ u, Loaded d u ∧ Takes (loadDictionary d) s u := by
  obtain ⟨u, hu, hcapture, htakes⟩ := takes_loadDictionary d hs hlen
  obtain ⟨hdict, hcount⟩ := hcapture 2
  refine ⟨u, ⟨hu, hdict, ?_⟩, htakes⟩
  unfold Snapshot.dictValid
  rw [hdict, Bool.and_eq_true, decide_eq_true_eq, decide_eq_true_eq]
  exact ⟨hcount.trans_le hlen, hnodup⟩

/-- ENCODE of an array in COL answers the payload of R228. -/
theorem answers_encodeOnNse (p : Sprite) {d x : List Byte} {s u : State} (hs : Loaded d s) (hx : x.length ≤ Config.colSize)
    (hu : HoldsColumns s x u) : Answers (Loaded d) (encodeOnNse p) u (.ok (choosePayload d x)) := by
  have hload := hs.congr hu.quiet hu.dictionary
  obtain ⟨v, hv, hdict, hgives⟩ := gives_encodeOnNse p hu.quiet hload.dictionary hload.valid hu.colLen hx hu.columns
    (packedStream_fits d hx)
  exact .of_gives (hload.congr hv hdict) hgives

/-- Phase 2 of a frame answers the payload of its array, whether it packs again or writes the array back (R227). -/
theorem answers_encodeFrameOnNse (again : Bool) (p : Sprite) {frame : List Byte × List Byte} {d : List Byte} {s : State}
    (hs : Loaded d s) (hframe : packFrame fgNormal fgMask p frame.1 = .ok frame.2) :
    Answers (Loaded d) (encodeFrameOnNse again (foreground fgNormal fgMask p) p frame) s
      (.ok (choosePayload d frame.2)) := by
  have hlen := length_packFrame fgNormal fgMask hframe
  cases again with
  | true =>
    have hpack := answers_packOnNse fgNormal fgMask p frame.1 hs.quiet
    rw [hframe] at hpack
    have hrun : encodeFrameOnNse true (foreground fgNormal fgMask p) p frame =
        fun t => packOnNse (foreground fgNormal fgMask p) p frame.1 t >>= fun y => encodeOnNse p y.2 := by
      funext t
      unfold encodeFrameOnNse
      cases packOnNse (foreground fgNormal fgMask p) p frame.1 t <;> rfl
    rw [hrun]
    exact hpack.bind (g := fun _ => encodeOnNse p) (k := fun x => .ok (choosePayload d x)) fun x u hx ⟨y, hy, hu⟩ => by
      cases hx
      cases hy
      exact answers_encodeOnNse p hs hlen hu
  | false =>
    obtain ⟨u, hu, hdict, hcolLen, hcol, htakes⟩ := takes_columnAccesses hs.quiet hlen
    exact .after_takes htakes (answers_encodeOnNse p hs hlen ⟨hu, hdict, hcolLen, hcol⟩)

/-- The record of a sprite that phase 1 has packed. -/
def packedRecord (dir : Config.Directory) (d : List Byte) (q : Sprite × List (List Byte × List Byte)) :
    Except HostError (List Char × List Byte) :=
  (spriteRecord dir q.1 (q.2.map fun frame => choosePayload d frame.2)).map (q.1.name, ·)

theorem records_arraysOf (dir : Config.Directory) (d : List Byte) (qs : List (Sprite × List (List Byte × List Byte))) :
    records dir d (arraysOf qs) = qs.mapM (packedRecord dir d) := by
  induction qs with
  | nil => rfl
  | cons q qs ih =>
    have hpayloads : (q.2.map Prod.snd).map (choosePayload d) = q.2.map fun frame => choosePayload d frame.2 :=
      List.map_map
    rw [List.mapM_cons, ← ih, packedRecord, arraysOf, List.map_cons, records, hpayloads, ← arraysOf]
    cases spriteRecord dir q.1 (q.2.map fun frame => choosePayload d frame.2) <;>
      cases records dir d (arraysOf qs) <;> rfl

theorem answers_encodeSpriteOnNse (dir : Config.Directory) (again : Bool) {d : List Byte}
    {q : Sprite × List (List Byte × List Byte)} {s : State} (hs : Loaded d s) (hq : Packed fgNormal fgMask q) :
    Answers (Loaded d) (encodeSpriteOnNse dir fgNormal fgMask again q) s (packedRecord dir d q) := by
  have hpayloads := Answers.eachInTurn (f := encodeFrameOnNse again (foreground fgNormal fgMask q.1) q.1)
    (fun _ _ ht hframe => answers_encodeFrameOnNse fgNormal fgMask again q.1 ht hframe) hs hq
  have hrun : encodeSpriteOnNse dir fgNormal fgMask again q = fun t =>
      eachInTurn (encodeFrameOnNse again (foreground fgNormal fgMask q.1) q.1) q.2 t >>= fun y =>
        ((spriteRecord dir q.1 y.1).map (q.1.name, ·)).map (·, y.2) := by
    funext t
    refine bind_congr fun ⟨payloads, u⟩ => ?_
    dsimp only
    cases spriteRecord dir q.1 payloads <;> rfl
  rw [show q.2.mapM (fun frame => Except.ok (choosePayload d frame.2)) = .ok _ from List.mapM_pure] at hpayloads
  rw [hrun]
  exact hpayloads.bind (k := fun payloads => (spriteRecord dir q.1 payloads).map (q.1.name, ·))
    fun payloads _ _ ht => .of_pure ht _

/-! ### The run -/

/-- The dictionary of the sprites that phase 1 has packed (R223). -/
def packedDictionary (packed : List (Sprite × List (List Byte × List Byte))) : List Byte :=
  buildDictionary (traversal (arraysOf packed))

/-- The run after phase 1: the dictionary load and phase 2. -/
def encodePackedOnNse (dir : Config.Directory) (again : Bool) (packed : List (Sprite × List (List Byte × List Byte)))
    (s : State) : Except HostError ((List Byte × List (List Char × List Byte)) × State) := do
  let s ← accesses (loadDictionary (packedDictionary packed)) s
  let (rs, s) ← eachInTurn (encodeSpriteOnNse dir fgNormal fgMask again) packed s
  .ok ((packedDictionary packed, rs), s)

theorem hostRun_eq (dir : Config.Directory) (again : Bool) (sprites : List Sprite) :
    hostRun dir fgNormal fgMask again sprites = fun s =>
      eachInTurn (packSpriteOnNse fgNormal fgMask) (visitOrder sprites) s >>= fun x =>
        encodePackedOnNse fgNormal fgMask dir again x.1 x.2 := rfl

theorem wireOutput_eq (dir : Config.Directory) (sprites : List Sprite) :
    wireOutput dir fgNormal fgMask sprites = (visitOrder sprites).mapM (packedSprite fgNormal fgMask) >>= fun packed =>
      (packed.mapM (packedRecord dir (packedDictionary packed))).map (packedDictionary packed, ·) := by
  unfold wireOutput
  rw [packSprites_eq]
  cases (visitOrder sprites).mapM (packedSprite fgNormal fgMask) with
  | error e => rfl
  | ok packed =>
    rw [bind_ok rfl, ← records_arraysOf, packedDictionary]
    simp only [Except.map]
    cases records dir (buildDictionary (traversal (arraysOf packed))) (arraysOf packed) <;> rfl

/-- The dictionary is loaded, and phase 2 answers the records of the packed sprites under it. -/
theorem answers_encodePackedOnNse (dir : Config.Directory) (again : Bool)
    {packed : List (Sprite × List (List Byte × List Byte))} {s : State} (hs : s.Quiet)
    (hpacked : ∀ q ∈ packed, Packed fgNormal fgMask q) :
    Answers State.Quiet (encodePackedOnNse fgNormal fgMask dir again packed) s
      ((packed.mapM (packedRecord dir (packedDictionary packed))).map (packedDictionary packed, ·)) := by
  have hlen : (packedDictionary packed).length ≤ 12 := (length_buildDictionary _).trans_le (Nat.min_le_left _ _)
  obtain ⟨u, hu, htakes⟩ := takes_loadDictionary_loaded hs hlen (buildDictionary_nodup _)
  have hphase2 := Answers.eachInTurn
    (fun _ _ ht hq => answers_encodeSpriteOnNse fgNormal fgMask dir again ht hq) hu hpacked
  exact .after_takes htakes ((hphase2.mono fun _ hv => hv.quiet).map _)

theorem answers_hostRun (dir : Config.Directory) (again : Bool) (sprites : List Sprite) {s : State} (hs : s.Quiet) :
    Answers State.Quiet (hostRun dir fgNormal fgMask again sprites) s (wireOutput dir fgNormal fgMask sprites) := by
  have hphase1 := Answers.eachInTurn (Q := fun _ => True) (l := visitOrder sprites)
    (fun p _ ht _ => answers_packSpriteOnNse fgNormal fgMask p ht) hs fun _ _ => trivial
  rw [hostRun_eq, wireOutput_eq]
  exact hphase1.bind fun _ _ hpacked ht => answers_encodePackedOnNse fgNormal fgMask dir again ht
    (forall_mem_of_mapM (fun _ _ => packedSprite_ok fgNormal fgMask) hpacked)

end

/-- Settles O60: the run answers the wire format, phase by phase. -/
theorem hostRunGivesTheWireOutput : Obligations.HostRunGivesTheWireOutput :=
  fun dir fgNormal fgMask again sprites _ hs => (answers_hostRun fgNormal fgMask dir again sprites hs).eq

end Sys2Proof.Machine
end

section
/-! Errors, faults, the idle NSE and the interrupt (60_exceptions.md). -/

namespace Sys2Proof.Machine

/-! ### Errors are precise (60_exceptions R260, R261) -/

/-- A command that ends with an error has stopped at a check, before it wrote anything: its whole effect is the
completion. -/
theorem exec_command_error {i : Instr} {s t : State} (hi : i.isToken = false) (h : exec i s = .next t)
    (herr : t.status.errCode ≠ .none) : t = s.complete t.status.errCode := by
  cases i with
  | nop => cases h; exact absurd rfl herr
  | pack =>
    rcases execPack_next h with ⟨-, rfl⟩ | ⟨-, pix, -, rfl⟩
    · rfl
    · exact absurd rfl herr
  | encode =>
    rcases execEncode_next h with ⟨-, rfl⟩ | ⟨-, -, rfl⟩ | ⟨-, -, x, -, u, v, -, -, rfl⟩
    · rfl
    · rfl
    · exact absurd rfl herr
  | dictRef _ | rawRun _ _ | shortRunRepeat _ _ | runRepeat _ _ | rawByte _ => cases hi

/-- A core step that ends with an error is its completion alone, whatever its word. -/
theorem coreStep_error {s t : State} (h : coreStep s = .next t) (herr : t.status.errCode ≠ .none) :
    t = s.complete t.status.errCode := by
  cases hd : decodeCommand s.snap.cmd with
  | error e =>
    rw [coreStep_of_illegal hd] at h
    cases h
    rfl
  | ok i =>
    rw [coreStep_of_decode hd] at h
    obtain ⟨hcommand, -⟩ := reservedBitsMakeWordsIllegal.2 s.snap.cmd i hd
    exact exec_command_error hcommand h herr

/-- Settles O39: the completion overwrites the three STATUS fields the acceptance had set, so only the acceptance's own
fields stay beside it. -/
theorem errorsArePrecise : Obligations.ErrorsArePrecise :=
  fun _ _ _ h herr => coreStep_error h herr

/-! ### Recorded faults and the idle NSE (60_exceptions R257, R272) -/

/-- Settles O12: the fault record decides the step before anything else does. -/
theorem faultedRunStops : Obligations.FaultedRunStops :=
  fun _ _ _ hfaults => step_fault hfaults

/-- The host's turn with nothing to do. -/
theorem hostStep_of_nil {s : State} (h : s.hostOps = []) : hostStep s = .next s := by
  rw [hostStep, h]

/-- Settles O14: at the host's turn the step is the host's, which has no access to make. -/
theorem idleKeepsState : Obligations.IdleKeepsState := by
  intro s hturn hops
  rw [step_host hturn.faults hturn.port hturn.core, hostStep_of_nil hops]

/-! ### The interrupt output (60_exceptions R264) -/

section
variable (s : State) {w : Word}

/-- A STATUS write with a 1 in bit 1 clears DONE. -/
theorem irq_writeReg_status (h : w.getLsbD 1 = true) : (s.writeReg .status w).irq = false := by
  have hdone : (s.writeReg .status w).status.done = false := by
    rw [State.writeReg, status_hostWrite_done, h, Bool.not_true, Bool.and_false]
  rw [State.irq, hdone, Bool.and_false]

/-- An acceptance clears DONE. -/
theorem irq_accept (w : Word) : (s.accept w).irq = false := by
  rw [State.irq, accept_status, status_started_done, Bool.and_false]

/-- A CTRL write with a 0 in bit 0 clears IRQ_EN. -/
theorem irq_writeReg_ctrl (h : w.getLsbD 0 = false) : (s.writeReg .ctrl w).irq = false := by
  have hirqEn : (s.writeReg .ctrl w).ctrl.irqEn = false := h
  rw [State.irq, hirqEn, Bool.false_and]

/-- A completion sets DONE and leaves CTRL. -/
theorem irq_complete (c : ErrCode) : (s.complete c).irq = s.ctrl.irqEn := by
  rw [State.irq, complete_ctrl, complete_status, status_completed_done, Bool.and_true]

end

/-- Settles O51: the level by its definition, then W1C, acceptance, masking and completion by their lemmas. -/
theorem interruptIsALevel : Obligations.InterruptIsALevel := by
  intro s w
  refine ⟨rfl, irq_writeReg_status s, irq_accept s w, fun hmask => ⟨irq_writeReg_ctrl s hmask, ?kept⟩,
    fun c => ⟨?pending, irq_complete s c⟩⟩
  case kept => rfl
  case pending => rw [complete_status, status_completed_done]

end Sys2Proof.Machine
end

section
/-! Reset, the hazards of the BUSY window, and the core's step under a polling host (70_reset_and_hazards.md). -/

namespace Sys2Proof.Machine

/-! ### The registers after reset (70_reset R281) -/

/-- DICT_CNT 0 makes the dictionary empty, whatever the entries hold (42 R145, R34). -/
theorem dictionary_eq_nil {p : Snapshot} (h : p.dictCnt = 0) : p.dictionary = [] := by
  rw [Snapshot.dictionary, Snapshot.count, h]
  exact List.take_zero

/-- DICT_CNT 0 makes the dictionary valid (42 R146). -/
theorem dictValid_of_dictCnt_zero {p : Snapshot} (h : p.dictCnt = 0) : p.dictValid = true := by
  rw [Snapshot.dictValid, dictionary_eq_nil h, Snapshot.count, h]
  rfl

theorem reset_readReg (r : Reg) : State.reset.readReg r = 0 := by
  cases r with
  | dict k =>
    show (0 : BitVec 24) ++ (Vector.replicate 12 (0 : Byte))[k] = 0
    rw [Fin.getElem_fin, Vector.getElem_replicate]
    rfl
  | ctrl | cmd | status | geom | fg | pixLen | colLen | outLen | nibCount | dictCnt | reserved => rfl

/-- Settles O6: the registers one by one; the empty dictionary by DICT_CNT, whatever word is accepted. -/
theorem resetRegisterValues : Obligations.ResetRegisterValues :=
  ⟨reset_readReg, rfl, fun _ => ⟨dictionary_eq_nil rfl, dictValid_of_dictCnt_zero rfl⟩⟩

/-- Settles O53: the reset state is IDLE with no byte written, OUT_LEN and NIB_COUNT 0. -/
theorem invariantHoldsAtReset : Obligations.InvariantHoldsAtReset := State.Inv.reset

/-! ### Commands right after reset (70_reset R282) -/

/-- Settles O7: PACK has no pixel to read and ENCODE no column, so each succeeds on no byte at all. -/
theorem commandsRightAfterReset : Obligations.CommandsRightAfterReset := by
  refine ⟨memory_read_nil, ?_⟩
  rintro i w (⟨rfl, -⟩ | ⟨rfl, -⟩)
  case inl =>
    have hread : (State.reset.accept w).mem.readBytes Config.pixBase 0 = .ok [] := memory_readBytes_zero _ _
    have hlen : (State.reset.accept w).snap.width * bandCount (State.reset.accept w).snap.height = 0 := Nat.zero_mul _
    have hcols : packColumns (State.reset.accept w).snap.width (State.reset.accept w).snap.height
        (State.reset.accept w).snap.fg [] = [] :=
      List.eq_nil_of_length_eq_zero ((length_packColumns _ _ _ _).trans hlen)
    exact ⟨_, execPack_ok rfl hread, rfl, rfl, congrArg (Memory.writeBytes [] Config.colBase) hcols,
      congrArg (BitVec.ofNat 32) hlen, rfl, rfl⟩
  case inr =>
    have hread : (State.reset.accept w).mem.readBytes Config.colBase 0 = .ok [] := memory_readBytes_zero _ _
    exact ⟨_, execEncode_ok (Nat.zero_le _) (dictValid_of_dictCnt_zero rfl) hread (Nat.zero_le _),
      rfl, rfl, rfl, rfl, rfl, rfl⟩

/-! ### The reset input (70_reset R280, R283) -/

theorem applyReset_readReg (s : State) (r : Reg) : s.applyReset.readReg r = 0 := reset_readReg r

/-- Settles O8: the step is `applyReset`, whose fields are those of the reset state but for the list. -/
theorem resetInputClearsTheMachine : Obligations.ResetInputClearsTheMachine := by
  intro s rest hturn hops
  have hserved : serveOp .reset (s.hostTurn rest) = .next (s.hostTurn rest).applyReset := rfl
  exact ⟨_, step_of_served hturn hops hserved, applyReset_readReg _, rfl, rfl, rfl, memory_read_nil, rfl, rfl⟩

/-! ### The BUSY window (70_reset R286, R287) -/

/-- Every offset of the register window but those of CTRL and STATUS is barred. -/
theorem barredInWindow_regAt {o : Nat} (hctrl : o ≠ 0x00) (hstatus : o ≠ 0x08) : barredInWindow (regAt o) = true := by
  simp only [regAt, if_neg hctrl, if_neg hstatus]
  split_ifs <;> rfl

/-- Settles O48: the access is a hazard, read or write, and the host's turn records it. -/
theorem hazardsAreRecorded : Obligations.HazardsAreRecorded := by
  intro s a size w rest hturn hwin hmap hctrl hstatus hops
  have hbarred : barredInWindow (regAt a.toNat) = true :=
    barredInWindow_regAt (fun h => hctrl (BitVec.eq_of_toNat_eq h)) (fun h => hstatus (BitVec.eq_of_toNat_eq h))
  obtain ⟨hread, hwrite⟩ :=
    hostAccess_hazard (s := s.hostTurn rest) (busAccepts_iff.mpr hmap) hwin fun _ => hbarred
  rcases hops with hops | hops
  · exact step_of_hostFault hturn hops hread
  · exact step_of_hostFault hturn hops (hwrite w)

/-- A read of CTRL, in the window too. -/
theorem hostRead_ctrl (s : State) : hostRead 0x00000 .word s = .next { s with reply := .data s.ctrl.word } := by
  have hreg : regAt (0x00000 : Addr).toNat = .ctrl := rfl
  rw [hostRead, if_pos (busAccepts_register (by decide) (by decide)), if_pos (windowOf_register (by decide)), hreg,
    readRegister, if_neg (by simp [barredInWindow])]
  rfl

/-- A write of a register that the window does not bar is that register's write, in the window too. -/
theorem hostWrite_allowed {a : Addr} {r : Reg} (ha : a.toNat < 0x100) (h4 : a.toNat % 4 = 0) (hr : regAt a.toNat = r)
    (hallowed : barredInWindow r = false) (w : Word) (s : State) :
    hostWrite a .word w s = .next { s.writeReg r w with reply := .ack } :=
  hostWrite_register (busAccepts_register ha h4) (windowOf_register ha) hr (by rw [hallowed, Bool.and_false])

/-- Settles O49: STATUS and CTRL are the registers that the window does not bar. -/
theorem windowAllowsStatusAndCtrl : Obligations.WindowAllowsStatusAndCtrl := by
  intro s w
  refine ⟨hostRead_status s, ?statusWrite, hostRead_ctrl s, ?ctrlWrite⟩
  case statusWrite => exact hostWrite_allowed (r := .status) (by decide) (by decide) rfl rfl w s
  case ctrlWrite => exact hostWrite_allowed (r := .ctrl) (by decide) (by decide) rfl rfl w s

/-! ### The core's step under a polling host (70_reset R289) -/

/-- A run begins with its first step. -/
theorem run_succ_of_step {M : Host.Core} {s t : M.State} (n : Nat) (h : M.step s = .next t) :
    M.run (n + 1) s = M.run n t := by
  rw [Host.Core.run, h]

/-- While the host has an access left, a BUSY core is due when its delay is over (log 1). -/
theorem coreReady_of_hostOps {s : State} {op : HostOp} {rest : List HostOp} (hbusy : s.status.busy = true)
    (hops : s.hostOps = op :: rest) : s.coreReady = decide (s.coreDelay = 0) := by
  rw [State.coreReady, hbusy, hops, List.isEmpty_cons, Bool.true_and, Bool.false_or]

/-- A POLL of a BUSY NSE at the host's turn stays first and brings the core one access nearer to its step. -/
theorem step_poll_busy {s : State} {rest : List HostOp} (hturn : s.HostsTurn) (hbusy : s.status.busy = true)
    (hops : s.hostOps = .poll :: rest) :
    step s = .next { s with coreDelay := s.coreDelay - 1, reply := .data s.status.word } := by
  rw [step_of_served hturn hops (serveOp_poll _)]
  simp only [State.statusSeen, State.hostTurn, hbusy, Bool.and_true, if_true, ← hops]

/-- Each POLL takes one from the delay, and nothing else that the statement names changes. -/
theorem polling_reaches_coresTurn {n : Nat} {s : State} {rest : List HostOp} (hdelay : s.coreDelay = n)
    (hfaults : s.faults = []) (hport : s.port = []) (hbusy : s.status.busy = true) (hops : s.hostOps = .poll :: rest) :
    ∃ t, Sys2Proof.core.run n s = .next t ∧ t.CoresTurn ∧ t.snap = s.snap ∧ t.mem = s.mem ∧
      t.status = s.status ∧ t.win = s.win ∧ t.hostOps = s.hostOps := by
  have hready := coreReady_of_hostOps hbusy hops
  induction n generalizing s with
  | zero => exact ⟨s, rfl, ⟨hfaults, hport, by rw [hready, hdelay]; rfl⟩, rfl, rfl, rfl, rfl, rfl⟩
  | succ n ih =>
    have hturn : s.HostsTurn := ⟨hfaults, hport, by rw [hready, hdelay]; rfl⟩
    rw [run_succ_of_step (M := Sys2Proof.core) n (step_poll_busy hturn hbusy hops)]
    exact ih (s := { s with coreDelay := s.coreDelay - 1, reply := .data s.status.word })
      (by rw [hdelay]; rfl) hfaults hport hbusy hops (coreReady_of_hostOps hbusy hops)

/-- Settles O15: as many POLLs as the command's delay bring the core's turn. -/
theorem pollingReachesTheCoreStep : Obligations.PollingReachesTheCoreStep :=
  fun _ _ hfaults hport hbusy hops => polling_reaches_coresTurn rfl hfaults hport hbusy hops

end Sys2Proof.Machine
end
